-- ==== Sys2Proof/Word.lean ====
section
/-! DEFINITION. The word and byte types of BBCHAIN (spec 00 R5, R6: every register, sample and access is 32 bits). -/

namespace Sys2Proof

/-- A 32-bit word: a register, a sample, a coefficient or a command (00 R5 `WORD = 32`). -/
abbrev Word := BitVec 32

/-- A byte of the window (20 R90) or a stage-kind code (30 R130). -/
abbrev Byte := BitVec 8

/-- A byte offset inside the 64 KiB window (00 R5 `WINDOW = 0x10000`). -/
abbrev Offset := BitVec 16

/-- One bit as a word: `zext_32` of a one-bit field (00 R18). -/
def boolWord (b : Bool) : Word := if b then 1#32 else 0#32

end Sys2Proof
end

