-- ==== Sys2Proof/Machine/Bytes.lean ====
section
/-! DEFINITION. Byte order: the window is little-endian (20 R90). -/

namespace Sys2Proof.Machine

/-- The byte of `w` that lies at byte offset `i` of its word: bits `8i+7` down to `8i` (20 R90). -/
def byteOf (w : Word) (i : Nat) : Byte := w.extractLsb' (8 * i) 8

/-- The four bytes of a word, the lowest offset first (20 R90). -/
def bytesOf (w : Word) : List Byte := [byteOf w 0, byteOf w 1, byteOf w 2, byteOf w 3]

/-- The word whose bytes at offsets 0 to 3 are given (20 R90). -/
def wordOf (b0 b1 b2 b3 : Byte) : Word := b3 ++ (b2 ++ (b1 ++ b0))

/-- The offset whose low and high bytes are given. -/
def offsetOf (b0 b1 : Byte) : Offset := b1 ++ b0

end Sys2Proof.Machine
end

