-- ==== Sys2Proof/Machine/Names.lean ====
section
/-! DEFINITION. The names of the spec: channels, stages, stage kinds, shaper modes, parameter registers, result codes.
Each is a closed set with the code or index the spec gives it. -/

namespace Sys2Proof

/-- The two channels of the sample buffer and of the filter-state file (20 R97, 10 R66). -/
inductive Chan where
  | ch0 | ch1
deriving DecidableEq, Repr

/-- A channel's number `c` (20 R97). -/
def Chan.idx : Chan → Nat
  | .ch0 => 0
  | .ch1 => 1

/-- Both channels in increasing number (40 R172). -/
def Chan.all : List Chan := [.ch0, .ch1]

/-- The stage kinds (30 R130). -/
inductive StageKind where
  | foHp | bqLp | bqPeak | bqNotch | gainNi | gainInv | shaper | foLp | gainVol
deriving DecidableEq, Repr

/-- The 8-bit code of a stage kind (30 R130). -/
def StageKind.code : StageKind → Byte
  | .foHp => 1 | .bqLp => 2 | .bqPeak => 3 | .bqNotch => 4 | .gainNi => 5
  | .gainInv => 6 | .shaper => 7 | .foLp => 8 | .gainVol => 9

/-- Every stage kind. -/
def StageKind.all : List StageKind :=
  [.foHp, .bqLp, .bqPeak, .bqNotch, .gainNi, .gainInv, .shaper, .foLp, .gainVol]

/-- The stage kind a code names; codes 0 and 10 to 255 are reserved (30 R131). -/
def StageKind.ofCode? (b : Byte) : Option StageKind := StageKind.all.find? (fun k => k.code == b)

/-- The eleven stages of the fixed chain (10 R59), by the names of its table. -/
inductive Stage where
  | hpf | aaf | peak | notch | gainNi | gainInv | shaper | pclp | tone | ptlp | vol
deriving DecidableEq, Repr

/-- A stage's index `s` (10 R59). -/
def Stage.idx : Stage → Nat
  | .hpf => 0 | .aaf => 1 | .peak => 2 | .notch => 3 | .gainNi => 4 | .gainInv => 5
  | .shaper => 6 | .pclp => 7 | .tone => 8 | .ptlp => 9 | .vol => 10

/-- The stages in increasing index, the order of the chain (10 R59). -/
def Stage.all : List Stage :=
  [.hpf, .aaf, .peak, .notch, .gainNi, .gainInv, .shaper, .pclp, .tone, .ptlp, .vol]

/-- STAGE_KIND[s] (10 R58, R59). -/
def Stage.kind : Stage → StageKind
  | .hpf => .foHp | .aaf => .bqLp | .peak => .bqPeak | .notch => .bqNotch
  | .gainNi => .gainNi | .gainInv => .gainInv | .shaper => .shaper
  | .pclp => .bqLp | .tone => .bqLp | .ptlp => .foLp | .vol => .gainVol

/-- The shaper modes (30 R135). -/
inductive ShaperMode where
  | atanSym | atanDoc | cubic
deriving DecidableEq, Repr

/-- The 32-bit code of a shaper mode (30 R135). -/
def ShaperMode.code : ShaperMode → Word
  | .atanSym => 0 | .atanDoc => 1 | .cubic => 2

/-- The shaper mode a word names; 3 and above are reserved (30 R136). -/
def ShaperMode.ofCode? (w : Word) : Option ShaperMode :=
  if w = 0#32 then some .atanSym else if w = 1#32 then some .atanDoc
  else if w = 2#32 then some .cubic else none

/-- The result codes (60 R300). -/
inductive ResultCode where
  | ok | okBypassed | illegalCmd | notPrepared | badFs | badMaxb | badNch | badLen
  | nonfiniteCoef | faulted
deriving DecidableEq, Repr

/-- The 8-bit code of a result (60 R300). -/
def ResultCode.code : ResultCode → Byte
  | .ok => 0x00 | .okBypassed => 0x01 | .illegalCmd => 0x10 | .notPrepared => 0x11
  | .badFs => 0x12 | .badMaxb => 0x13 | .badNch => 0x14 | .badLen => 0x15
  | .nonfiniteCoef => 0x20 | .faulted => 0x21

/-- Whether a result is neither OK nor OK_BYPASSED (60 R300, 40 R154). -/
def ResultCode.isError : ResultCode → Bool
  | .ok => false
  | .okBypassed => false
  | _ => true

/-- The parameter registers P_* in the order of their offsets (10 R53). -/
inductive ParamId where
  | hpFc
  | aaMargin
  | aaQ
  | pkFa
  | pkFb
  | pkFc
  | pkGa
  | pkGb
  | pkGc
  | pkQa
  | pkQb
  | ntFa
  | ntFb
  | ntFc
  | ntQa
  | ntQb
  | r1
  | r2
  | rg1
  | rg0
  | rf
  | rin
  | invPol
  | shMode
  | shK0
  | shK1
  | shT
  | pcFc
  | pcQ
  | tnFmin
  | tnFmax
  | tnQ
  | ptR
  | ptC
deriving DecidableEq, Repr

/-- Every parameter register, at offsets 0x100, 0x104, ..., 0x184 (10 R53). -/
def ParamId.all : List ParamId :=
  [.hpFc, .aaMargin, .aaQ, .pkFa, .pkFb, .pkFc, .pkGa, .pkGb, .pkGc,
   .pkQa, .pkQb, .ntFa, .ntFb, .ntFc, .ntQa, .ntQb, .r1, .r2,
   .rg1, .rg0, .rf, .rin, .invPol, .shMode, .shK0, .shK1, .shT,
   .pcFc, .pcQ, .tnFmin, .tnFmax, .tnQ, .ptR, .ptC]

end Sys2Proof
end

