-- ==== Sys2Proof/Machine/RegMap.lean ====
section
/-! DEFINITION. The window's map (10 section 2.1, 20 R97, R100): what stands at each aligned byte offset. -/

namespace Sys2Proof.Machine

/-- What an aligned offset of the window names (10 section 2.1, 20 R97). -/
inductive Reg where
  | id | version | ctrl | status | cmd | lastCmd | faultInfo | blockCnt
  | specFs | specMaxb | specNch | activeFs | activeMaxb | activeNch | caps
  | gain | tone | volume | bypass | snapGain | snapTone | snapVolume | snapBypass
  | normG | normT | normV
  | param (p : ParamId)
  | stageKind (st : Stage)
  | coef (st : Stage) (i : Nat)
  | state (c : Chan) (st : Stage) (j : Nat)
  | buf (c : Chan) (n : BitVec 12)
  | reserved
deriving DecidableEq, Repr

/-- The registers below 0x100 (10 section 2.1). -/
def lowRegs : List (Nat × Reg) :=
  [(0x000, .id), (0x004, .version), (0x008, .ctrl), (0x00C, .status), (0x010, .cmd),
   (0x014, .lastCmd), (0x018, .faultInfo), (0x01C, .blockCnt), (0x020, .specFs),
   (0x024, .specMaxb), (0x028, .specNch), (0x02C, .activeFs), (0x030, .activeMaxb),
   (0x034, .activeNch), (0x038, .caps), (0x040, .gain), (0x044, .tone), (0x048, .volume),
   (0x04C, .bypass), (0x050, .snapGain), (0x054, .snapTone), (0x058, .snapVolume),
   (0x05C, .snapBypass), (0x060, .normG), (0x064, .normT), (0x068, .normV)]

/-- The channel a bit names. -/
def chanOfBit (b : Bool) : Chan := if b then .ch1 else .ch0

/-- The register at an offset below 0x8000; every offset not listed is reserved (10 R33). -/
def lowRegAt (a : Nat) : Reg :=
  if a < 0x100 then (lowRegs.lookup a).getD .reserved
  else if a < 0x400 then
    match ParamId.all[(a - 0x100) / 4]? with
    | some p => .param p
    | none => .reserved
  else if a < 0x800 then
    match Stage.all[(a - 0x400) / 4]? with
    | some st => .stageKind st
    | none => .reserved
  else if a < 0xC00 then
    match Stage.all[(a - 0x800) / 0x20]? with
    | some st => .coef st ((a - 0x800) % 0x20 / 4)
    | none => .reserved
  else if a < 0xE00 then
    match Stage.all[(a - 0xC00) % 0x100 / 8]? with
    | some st => .state (chanOfBit (0x100 ≤ a - 0xC00)) st ((a - 0xC00) % 8 / 4)
    | none => .reserved
  else .reserved

/-- What stands at an aligned offset: the register window below 0x8000 and the sample buffer from 0x8000, where
bit 14 is the channel and bits 13:2 the sample (10 R33, 20 R97). -/
def regAt (off : Offset) : Reg :=
  if off.getLsbD 15 then .buf (chanOfBit (off.getLsbD 14)) (off.extractLsb' 2 12)
  else lowRegAt off.toNat

/-- The window offset of the buffer word `Buf[c][n]` (20 R97). -/
def bufAddr (c : Chan) (n : Nat) : Nat := 0x8000 + 4 * (4096 * c.idx + n)

/-- The access width must be 32 bits and the offset a multiple of 4 (20 R91). -/
def aligned (off : Offset) : Bool := off.toNat % 4 == 0

end Sys2Proof.Machine
end

