-- ==== Sys2Proof/Syntax.lean ====
section
/-! DEFINITION. The instructions of BBCHAIN: one constructor for each row of spec/opcode_table.json (30 R120). -/

namespace Sys2Proof

/-- One constructor for each row of the opcode table. The command words (a) carry their LEN; the host writes (b)
carry the value written; a stage operation (c) carries its channel `c`, stage `st` and input sample `x`; a shaper
mode (d) carries its input sample `x` (30 R120). -/
inductive Instr where
  -- (a) command words (30 R122)
  | nop
  | prepare
  | process (len : BitVec 16)
  | resolve
  | clearState
  -- (b) host register operations (30 R127)
  | setGain (v : Word)
  | setTone (v : Word)
  | setVolume (v : Word)
  | setBypass (v : Word)
  | setSpecFs (v : Word)
  | setSpecMaxb (v : Word)
  | setSpecNch (v : Word)
  | writeCtrl (v : Word)
  | clearStatus (v : Word)
  | setParamHpFc (v : Word)
  | setParamAaMargin (v : Word)
  | setParamAaQ (v : Word)
  | setParamPkFa (v : Word)
  | setParamPkFb (v : Word)
  | setParamPkFc (v : Word)
  | setParamPkGa (v : Word)
  | setParamPkGb (v : Word)
  | setParamPkGc (v : Word)
  | setParamPkQa (v : Word)
  | setParamPkQb (v : Word)
  | setParamNtFa (v : Word)
  | setParamNtFb (v : Word)
  | setParamNtFc (v : Word)
  | setParamNtQa (v : Word)
  | setParamNtQb (v : Word)
  | setParamR1 (v : Word)
  | setParamR2 (v : Word)
  | setParamRg1 (v : Word)
  | setParamRg0 (v : Word)
  | setParamRf (v : Word)
  | setParamRin (v : Word)
  | setParamInvPol (v : Word)
  | setParamShMode (v : Word)
  | setParamShK0 (v : Word)
  | setParamShK1 (v : Word)
  | setParamShT (v : Word)
  | setParamPcFc (v : Word)
  | setParamPcQ (v : Word)
  | setParamTnFmin (v : Word)
  | setParamTnFmax (v : Word)
  | setParamTnQ (v : Word)
  | setParamPtR (v : Word)
  | setParamPtC (v : Word)
  | writeBuf (c : Chan) (n : BitVec 12) (v : Word)
  | read (off : Offset)
  -- (c) stage kinds (30 R130)
  | stageFoHp (c : Chan) (st : Stage) (x : Word)
  | stageBqLp (c : Chan) (st : Stage) (x : Word)
  | stageBqPeak (c : Chan) (st : Stage) (x : Word)
  | stageBqNotch (c : Chan) (st : Stage) (x : Word)
  | stageGainNi (c : Chan) (st : Stage) (x : Word)
  | stageGainInv (c : Chan) (st : Stage) (x : Word)
  | stageShaper (c : Chan) (st : Stage) (x : Word)
  | stageFoLp (c : Chan) (st : Stage) (x : Word)
  | stageGainVol (c : Chan) (st : Stage) (x : Word)
  -- (d) shaper modes (30 R135)
  | shaperModeAtanSym (x : Word)
  | shaperModeAtanDoc (x : Word)
  | shaperModeCubic (x : Word)
deriving DecidableEq, Repr

end Sys2Proof
end

