-- ==== Sys2Proof/WellFormed.lean ====
section
/-! DEFINITION. Which instructions are well formed: the operand values an encoding admits. -/

namespace Sys2Proof

/-- An instruction is well formed when a READ names a word (20 R91: a byte offset that is a multiple of 4; the table's
mask fixes bits 1:0 to 0) and a stage operation names a stage of its own kind (10 R59, 40 R173). Every other operand
takes every value of its type. -/
def Instr.wf : Instr → Bool
  | .nop => true
  | .prepare => true
  | .process _ => true
  | .resolve => true
  | .clearState => true
  | .setGain _ => true
  | .setTone _ => true
  | .setVolume _ => true
  | .setBypass _ => true
  | .setSpecFs _ => true
  | .setSpecMaxb _ => true
  | .setSpecNch _ => true
  | .writeCtrl _ => true
  | .clearStatus _ => true
  | .setParamHpFc _ => true
  | .setParamAaMargin _ => true
  | .setParamAaQ _ => true
  | .setParamPkFa _ => true
  | .setParamPkFb _ => true
  | .setParamPkFc _ => true
  | .setParamPkGa _ => true
  | .setParamPkGb _ => true
  | .setParamPkGc _ => true
  | .setParamPkQa _ => true
  | .setParamPkQb _ => true
  | .setParamNtFa _ => true
  | .setParamNtFb _ => true
  | .setParamNtFc _ => true
  | .setParamNtQa _ => true
  | .setParamNtQb _ => true
  | .setParamR1 _ => true
  | .setParamR2 _ => true
  | .setParamRg1 _ => true
  | .setParamRg0 _ => true
  | .setParamRf _ => true
  | .setParamRin _ => true
  | .setParamInvPol _ => true
  | .setParamShMode _ => true
  | .setParamShK0 _ => true
  | .setParamShK1 _ => true
  | .setParamShT _ => true
  | .setParamPcFc _ => true
  | .setParamPcQ _ => true
  | .setParamTnFmin _ => true
  | .setParamTnFmax _ => true
  | .setParamTnQ _ => true
  | .setParamPtR _ => true
  | .setParamPtC _ => true
  | .writeBuf _ _ _ => true
  | .read off => off.toNat % 4 == 0
  | .stageFoHp _ st _ => st.kind == .foHp
  | .stageBqLp _ st _ => st.kind == .bqLp
  | .stageBqPeak _ st _ => st.kind == .bqPeak
  | .stageBqNotch _ st _ => st.kind == .bqNotch
  | .stageGainNi _ st _ => st.kind == .gainNi
  | .stageGainInv _ st _ => st.kind == .gainInv
  | .stageShaper _ st _ => st.kind == .shaper
  | .stageFoLp _ st _ => st.kind == .foLp
  | .stageGainVol _ st _ => st.kind == .gainVol
  | .shaperModeAtanSym _ => true
  | .shaperModeAtanDoc _ => true
  | .shaperModeCubic _ => true

end Sys2Proof
end

