-- ==== Sys2Proof/Decode.lean ====
section
/-! DEFINITION. The decoder, total on every bit pattern of the four encoded vocabularies (30 R120), and the encoder. -/

namespace Sys2Proof

/-- An encoded instruction, by vocabulary (30 R120). What no encoding holds (the channel, stage and sample of a stage
operation, the sample of a shaper mode) stands beside the code (log 3). -/
inductive Code where
  /-- (a) a word written to CMD (30 R121). -/
  | command (w : Word)
  /-- (b) an aligned 32-bit host write (30 R127). -/
  | hostWrite (off : Offset) (v : Word)
  /-- (b) an aligned 32-bit host read (30 R127). -/
  | hostRead (off : Offset)
  /-- (c) a stage-kind code (30 R130). -/
  | stageKind (code : Byte) (c : Chan) (st : Stage) (x : Word)
  /-- (d) a shaper-mode code (30 R135). -/
  | shaperMode (code : Word) (x : Word)
deriving DecidableEq, Repr

/-- Why an encoding names no instruction. -/
inductive DecodeError where
  /-- A command word that is not legal (30 R124, R125). -/
  | illegalCommand (w : Word)
  /-- A host access at an offset that is not a multiple of 4 (20 R93). -/
  | misaligned (off : Offset)
  /-- A host write to CMD: its value is a command of vocabulary (a) (30 R127). -/
  | commandRegister (v : Word)
  /-- A host write to a read-only register or a reserved offset (10 R33, 20 R94). -/
  | noWriteOperation (off : Offset)
  /-- Stage-kind codes 0 and 10 to 255 (30 R131). -/
  | reservedStageKind (code : Byte)
  /-- A stage-kind code that is not the kind of the stage beside it (10 R59). -/
  | kindOfAnotherStage (code : Byte) (st : Stage)
  /-- Shaper-mode codes 3 and above (30 R136). -/
  | reservedShaperMode (code : Word)
  /-- Not one, two or four bytes: no row of the opcode table has that width. -/
  | noSuchWidth (bytes : Nat)
deriving DecidableEq, Repr

/-- OP, bits 3:0 of a command word (30 R121). -/
def cmdOp (w : Word) : BitVec 4 := w.extractLsb' 0 4

/-- RSV, bits 15:4 of a command word (30 R121). -/
def cmdRsv (w : Word) : BitVec 12 := w.extractLsb' 4 12

/-- LEN, bits 31:16 of a command word (30 R121, R123). -/
def cmdLen (w : Word) : BitVec 16 := w.extractLsb' 16 16

/-- A command word is legal exactly when `OP ≤ 4`, `RSV = 0`, and `LEN = 0` unless `OP = 2` (30 R124). -/
def legalCmd (w : Word) : Bool :=
  decide ((cmdOp w).toNat ≤ 4) && (cmdRsv w == 0#12) && (cmdLen w == 0#16 || cmdOp w == 2#4)

/-- The command a word names (30 R122, R124). -/
def decodeCommand (w : Word) : Except DecodeError Instr :=
  if !legalCmd w then .error (.illegalCommand w)
  else if cmdOp w = 0#4 then .ok .nop
  else if cmdOp w = 1#4 then .ok .prepare
  else if cmdOp w = 2#4 then .ok (.process (cmdLen w))
  else if cmdOp w = 3#4 then .ok .resolve
  else .ok .clearState

/-- The SET_PARAM operation of a parameter register (30 R127, 40 R185). -/
def setParamInstr : ParamId → Word → Instr
  | .hpFc, v => .setParamHpFc v
  | .aaMargin, v => .setParamAaMargin v
  | .aaQ, v => .setParamAaQ v
  | .pkFa, v => .setParamPkFa v
  | .pkFb, v => .setParamPkFb v
  | .pkFc, v => .setParamPkFc v
  | .pkGa, v => .setParamPkGa v
  | .pkGb, v => .setParamPkGb v
  | .pkGc, v => .setParamPkGc v
  | .pkQa, v => .setParamPkQa v
  | .pkQb, v => .setParamPkQb v
  | .ntFa, v => .setParamNtFa v
  | .ntFb, v => .setParamNtFb v
  | .ntFc, v => .setParamNtFc v
  | .ntQa, v => .setParamNtQa v
  | .ntQb, v => .setParamNtQb v
  | .r1, v => .setParamR1 v
  | .r2, v => .setParamR2 v
  | .rg1, v => .setParamRg1 v
  | .rg0, v => .setParamRg0 v
  | .rf, v => .setParamRf v
  | .rin, v => .setParamRin v
  | .invPol, v => .setParamInvPol v
  | .shMode, v => .setParamShMode v
  | .shK0, v => .setParamShK0 v
  | .shK1, v => .setParamShK1 v
  | .shT, v => .setParamShT v
  | .pcFc, v => .setParamPcFc v
  | .pcQ, v => .setParamPcQ v
  | .tnFmin, v => .setParamTnFmin v
  | .tnFmax, v => .setParamTnFmax v
  | .tnQ, v => .setParamTnQ v
  | .ptR, v => .setParamPtR v
  | .ptC, v => .setParamPtC v

/-- The operation a host write to a register is (30 R127); none for CMD, read-only registers and reserved offsets. -/
def writeInstr (r : Machine.Reg) (v : Word) : Option Instr :=
  match r with
  | .ctrl => some (.writeCtrl v)
  | .status => some (.clearStatus v)
  | .specFs => some (.setSpecFs v)
  | .specMaxb => some (.setSpecMaxb v)
  | .specNch => some (.setSpecNch v)
  | .gain => some (.setGain v)
  | .tone => some (.setTone v)
  | .volume => some (.setVolume v)
  | .bypass => some (.setBypass v)
  | .param p => some (setParamInstr p v)
  | .buf c n => some (.writeBuf c n v)
  | .id => none | .version => none | .cmd => none | .lastCmd => none | .faultInfo => none
  | .blockCnt => none | .activeFs => none | .activeMaxb => none | .activeNch => none
  | .caps => none | .snapGain => none | .snapTone => none | .snapVolume => none
  | .snapBypass => none | .normG => none | .normT => none | .normV => none
  | .stageKind _ => none | .coef _ _ => none | .state _ _ _ => none | .reserved => none

/-- The operation of a host write (30 R127). -/
def decodeWrite (off : Offset) (v : Word) : Except DecodeError Instr :=
  if !Machine.aligned off then .error (.misaligned off)
  else if Machine.regAt off = .cmd then .error (.commandRegister v)
  else match writeInstr (Machine.regAt off) v with
    | some i => .ok i
    | none => .error (.noWriteOperation off)

/-- The operation of a host read (30 R127). -/
def decodeRead (off : Offset) : Except DecodeError Instr :=
  if Machine.aligned off then .ok (.read off) else .error (.misaligned off)

/-- The stage operation of a kind (30 R130, 40 R173). -/
def stageInstr (k : StageKind) (c : Chan) (st : Stage) (x : Word) : Instr :=
  match k with
  | .foHp => .stageFoHp c st x
  | .bqLp => .stageBqLp c st x
  | .bqPeak => .stageBqPeak c st x
  | .bqNotch => .stageBqNotch c st x
  | .gainNi => .stageGainNi c st x
  | .gainInv => .stageGainInv c st x
  | .shaper => .stageShaper c st x
  | .foLp => .stageFoLp c st x
  | .gainVol => .stageGainVol c st x

/-- The stage operation a code names at a stage (30 R130, R131). -/
def decodeStage (code : Byte) (c : Chan) (st : Stage) (x : Word) : Except DecodeError Instr :=
  match StageKind.ofCode? code with
  | none => .error (.reservedStageKind code)
  | some k => if st.kind = k then .ok (stageInstr k c st x) else .error (.kindOfAnotherStage code st)

/-- The shaper mode a code names (30 R135, R136). -/
def decodeMode (code x : Word) : Except DecodeError Instr :=
  match ShaperMode.ofCode? code with
  | some .atanSym => .ok (.shaperModeAtanSym x)
  | some .atanDoc => .ok (.shaperModeAtanDoc x)
  | some .cubic => .ok (.shaperModeCubic x)
  | none => .error (.reservedShaperMode code)

/-- The decoder: every encoding names one instruction or is rejected by name. -/
def decode : Code → Except DecodeError Instr
  | .command w => decodeCommand w
  | .hostWrite off v => decodeWrite off v
  | .hostRead off => decodeRead off
  | .stageKind code c st x => decodeStage code c st x
  | .shaperMode code x => decodeMode code x

/-- The encoding of an instruction, from the tables of 30 R121, R122, R127, R130 and R135. -/
def encode : Instr → Code
  | .nop => .command 0x00000000
  | .prepare => .command 0x00000001
  | .process len => .command (len ++ 0x0002#16)
  | .resolve => .command 0x00000003
  | .clearState => .command 0x00000004
  | .setGain v => .hostWrite 0x040 v
  | .setTone v => .hostWrite 0x044 v
  | .setVolume v => .hostWrite 0x048 v
  | .setBypass v => .hostWrite 0x04C v
  | .setSpecFs v => .hostWrite 0x020 v
  | .setSpecMaxb v => .hostWrite 0x024 v
  | .setSpecNch v => .hostWrite 0x028 v
  | .writeCtrl v => .hostWrite 0x008 v
  | .clearStatus v => .hostWrite 0x00C v
  | .setParamHpFc v => .hostWrite 0x100 v
  | .setParamAaMargin v => .hostWrite 0x104 v
  | .setParamAaQ v => .hostWrite 0x108 v
  | .setParamPkFa v => .hostWrite 0x10C v
  | .setParamPkFb v => .hostWrite 0x110 v
  | .setParamPkFc v => .hostWrite 0x114 v
  | .setParamPkGa v => .hostWrite 0x118 v
  | .setParamPkGb v => .hostWrite 0x11C v
  | .setParamPkGc v => .hostWrite 0x120 v
  | .setParamPkQa v => .hostWrite 0x124 v
  | .setParamPkQb v => .hostWrite 0x128 v
  | .setParamNtFa v => .hostWrite 0x12C v
  | .setParamNtFb v => .hostWrite 0x130 v
  | .setParamNtFc v => .hostWrite 0x134 v
  | .setParamNtQa v => .hostWrite 0x138 v
  | .setParamNtQb v => .hostWrite 0x13C v
  | .setParamR1 v => .hostWrite 0x140 v
  | .setParamR2 v => .hostWrite 0x144 v
  | .setParamRg1 v => .hostWrite 0x148 v
  | .setParamRg0 v => .hostWrite 0x14C v
  | .setParamRf v => .hostWrite 0x150 v
  | .setParamRin v => .hostWrite 0x154 v
  | .setParamInvPol v => .hostWrite 0x158 v
  | .setParamShMode v => .hostWrite 0x15C v
  | .setParamShK0 v => .hostWrite 0x160 v
  | .setParamShK1 v => .hostWrite 0x164 v
  | .setParamShT v => .hostWrite 0x168 v
  | .setParamPcFc v => .hostWrite 0x16C v
  | .setParamPcQ v => .hostWrite 0x170 v
  | .setParamTnFmin v => .hostWrite 0x174 v
  | .setParamTnFmax v => .hostWrite 0x178 v
  | .setParamTnQ v => .hostWrite 0x17C v
  | .setParamPtR v => .hostWrite 0x180 v
  | .setParamPtC v => .hostWrite 0x184 v
  | .writeBuf c n v => .hostWrite (BitVec.ofNat 16 (Machine.bufAddr c n.toNat)) v
  | .read off => .hostRead off
  | .stageFoHp c st x => .stageKind 0x01 c st x
  | .stageBqLp c st x => .stageKind 0x02 c st x
  | .stageBqPeak c st x => .stageKind 0x03 c st x
  | .stageBqNotch c st x => .stageKind 0x04 c st x
  | .stageGainNi c st x => .stageKind 0x05 c st x
  | .stageGainInv c st x => .stageKind 0x06 c st x
  | .stageShaper c st x => .stageKind 0x07 c st x
  | .stageFoLp c st x => .stageKind 0x08 c st x
  | .stageGainVol c st x => .stageKind 0x09 c st x
  | .shaperModeAtanSym x => .shaperMode 0x00000000 x
  | .shaperModeAtanDoc x => .shaperMode 0x00000001 x
  | .shaperModeCubic x => .shaperMode 0x00000002 x

/-- The bytes of an opcode-table row's bits, the lowest offset first (20 R90). -/
def rowBytes (k w : Nat) : List Byte := (List.range k).map (fun i => BitVec.ofNat 8 (w / 256 ^ i))

/-- The first stage of the kind a code names, or stage 0 for a reserved code. -/
def stageOfCode (code : Byte) : Stage := (Stage.all.find? (fun st => st.kind.code == code)).getD .hpf

/-- The encoding an opcode-table row's bytes stand for, every bit above the row's being 0 (log 4): one byte is a
stage-kind code on channel 0 with the sample +0.0; two bytes are an offset, written with 0 where a write operation
stands there and read otherwise; four bytes are a command word. -/
def codeOfRow : List Byte → Except DecodeError Code
  | [b] => .ok (.stageKind b .ch0 (stageOfCode b) 0)
  | [b0, b1] =>
    let off := Machine.offsetOf b0 b1
    match decodeWrite off 0 with
    | .ok _ => .ok (.hostWrite off 0)
    | .error _ => .ok (.hostRead off)
  | [b0, b1, b2, b3] => .ok (.command (Machine.wordOf b0 b1 b2 b3))
  | bs => .error (.noSuchWidth bs.length)

/-- The instruction the decoder reads from an opcode-table row's bits (log 4). -/
def decodeTableWord (nbits w : Nat) : Option Instr :=
  match codeOfRow (rowBytes (nbits / 8) w) with
  | .ok code => (decode code).toOption
  | .error _ => none

end Sys2Proof
end

