-- ==== Sys2Proof/Machine/Memory.lean ====
section
/-! DEFINITION. The sample buffer's bytes (20 R97, R98) as a list of cells (window offset, byte) with the offsets strictly
rising. An unlisted offset holds no value here: nothing has written it since power-on (20 R99, log 7). -/

namespace Sys2Proof.Machine

/-- The cells of the buffer, in rising order of offset. -/
abbrev Mem := List Host.Cell

/-- The byte at offset `a`, if anything has written it since power-on. -/
def Mem.lookup : Mem → Nat → Option Byte
  | [], _ => none
  | (b, v) :: m, a => if a = b then some v else Mem.lookup m a

/-- `m` with the byte at offset `a` replaced or inserted in order. -/
def Mem.store : Mem → Nat → Byte → Mem
  | [], a, v => [(a, v)]
  | (b, u) :: m, a, v =>
    if a < b then (a, v) :: (b, u) :: m
    else if a = b then (a, v) :: m
    else (b, u) :: Mem.store m a v

/-- Whether every offset of `m` is above `lo` and the offsets strictly rise. -/
def Mem.risesAbove : Nat → Mem → Bool
  | _, [] => true
  | lo, (a, _) :: m => decide (lo < a) && Mem.risesAbove a m

/-- The canonical form: the offsets strictly rise and all lie in the buffer, 0x8000 to 0xFFFF (20 R97). No cell equals
what an unlisted offset holds, because an unlisted offset holds no value. -/
def Mem.wf (m : Mem) : Bool := Mem.risesAbove 0x7FFF m && m.all (fun c => decide (c.1 < 0x10000))

/-- The four bytes of a word stored at offset `a` (20 R90). -/
def Mem.storeWord (m : Mem) (a : Nat) (w : Word) : Mem :=
  (((m.store a (byteOf w 0)).store (a + 1) (byteOf w 1)).store (a + 2) (byteOf w 2)).store (a + 3) (byteOf w 3)

end Sys2Proof.Machine
end

