-- ==== Sys2Proof/Machine/Regs.lean ====
section
/-! DEFINITION. The register files as plain records, with their reset values: parameter registers (10 R53), coefficient
rows (10 R60), filter-state words (10 R66) and the status fields (10 R38). -/

namespace Sys2Proof.Machine

/-- One value for each of the eleven stages (10 R59). -/
structure PerStage (α : Type) where
  hpf : α
  aaf : α
  peak : α
  notch : α
  gainNi : α
  gainInv : α
  shaper : α
  pclp : α
  tone : α
  ptlp : α
  vol : α
deriving DecidableEq, Repr

/-- The value of stage `st`. -/
def PerStage.get {α : Type} (p : PerStage α) : Stage → α
  | .hpf => p.hpf | .aaf => p.aaf | .peak => p.peak | .notch => p.notch | .gainNi => p.gainNi
  | .gainInv => p.gainInv | .shaper => p.shaper | .pclp => p.pclp | .tone => p.tone
  | .ptlp => p.ptlp | .vol => p.vol

/-- `p` with the value of stage `st` replaced. -/
def PerStage.set {α : Type} (p : PerStage α) (st : Stage) (v : α) : PerStage α :=
  match st with
  | .hpf => { p with hpf := v } | .aaf => { p with aaf := v } | .peak => { p with peak := v }
  | .notch => { p with notch := v } | .gainNi => { p with gainNi := v }
  | .gainInv => { p with gainInv := v } | .shaper => { p with shaper := v }
  | .pclp => { p with pclp := v } | .tone => { p with tone := v }
  | .ptlp => { p with ptlp := v } | .vol => { p with vol := v }

/-- The same value for every stage. -/
def PerStage.const {α : Type} (v : α) : PerStage α := ⟨v, v, v, v, v, v, v, v, v, v, v⟩

/-- One row of the coefficient file: words 0 to 7 of a stage (10 R60). -/
structure Row where
  w0 : Word
  w1 : Word
  w2 : Word
  w3 : Word
  w4 : Word
  w5 : Word
  w6 : Word
  w7 : Word
deriving DecidableEq, Repr

/-- Word `i` of a row; a row has no word above 7, and the register map names none (10 R60). -/
def Row.get (r : Row) : Nat → Word
  | 0 => r.w0 | 1 => r.w1 | 2 => r.w2 | 3 => r.w3 | 4 => r.w4 | 5 => r.w5 | 6 => r.w6
  | _ => r.w7

/-- A row of `+0.0` words, the reset value (10 R60). -/
def Row.zero : Row := ⟨0, 0, 0, 0, 0, 0, 0, 0⟩

/-- The two state words of a stage for one channel: `State[c][s][0]` and `State[c][s][1]` (10 R66, R67). -/
structure Pair where
  s1 : Word
  s2 : Word
deriving DecidableEq, Repr

/-- Both state words `+0.0`, the reset value (10 R66). -/
def Pair.zero : Pair := ⟨0, 0⟩

/-- The filter-state words of one channel (10 R66). -/
abbrev FilterFile := PerStage Pair

/-- The coefficient file (10 R60). -/
abbrev CoefFile := PerStage Row

/-- Every filter-state word of a channel `+0.0` (10 R66, R68). -/
def zeroFilter : FilterFile := PerStage.const Pair.zero

/-- Every coefficient word `+0.0` (10 R60). -/
def zeroCoef : CoefFile := PerStage.const Row.zero

/-- The parameter registers P_* (10 R53). P_INV_POL holds one bit (10 R55) and P_SH_MODE one of three modes (10 R56);
every other one holds a 32-bit word (10 R54). -/
structure Params where
  hpFc : Word
  aaMargin : Word
  aaQ : Word
  pkFa : Word
  pkFb : Word
  pkFc : Word
  pkGa : Word
  pkGb : Word
  pkGc : Word
  pkQa : Word
  pkQb : Word
  ntFa : Word
  ntFb : Word
  ntFc : Word
  ntQa : Word
  ntQb : Word
  r1 : Word
  r2 : Word
  rg1 : Word
  rg0 : Word
  rf : Word
  rin : Word
  invPol : Bool
  shMode : ShaperMode
  shK0 : Word
  shK1 : Word
  shT : Word
  pcFc : Word
  pcQ : Word
  tnFmin : Word
  tnFmax : Word
  tnQ : Word
  ptR : Word
  ptC : Word
deriving DecidableEq, Repr

/-- The reset values of the parameter registers (10 R53). -/
def Params.reset : Params where
  hpFc := 0x41A00000
  aaMargin := 0x44FA0000
  aaQ := 0x3F3504F3
  pkFa := 0x43480000
  pkFb := 0x43960000
  pkFc := 0x43FA0000
  pkGa := 0x00000000
  pkGb := 0x3F800000
  pkGc := 0x3F800000
  pkQa := 0x3F000000
  pkQb := 0x3F400000
  ntFa := 0x00000000
  ntFb := 0x44FA0000
  ntFc := 0x453B8000
  ntQa := 0x3F800000
  ntQb := 0x3F800000
  r1 := 0x461C4000
  r2 := 0x461C4000
  rg1 := 0x47AFC800
  rg0 := 0x00000000
  rf := 0x461C4000
  rin := 0x461C4000
  invPol := false
  shMode := .atanSym
  shK0 := 0x3F800000
  shK1 := 0x00000000
  shT := 0x3F000000
  pcFc := 0x45FA0000
  pcQ := 0x3F3504F3
  tnFmin := 0x44480000
  tnFmax := 0x45FA0000
  tnQ := 0x3F3504F3
  ptR := 0x461C4000
  ptC := 0x322BCC77

/-- What a read of a parameter register returns (10 R54, R55, R56). -/
def Params.get (p : Params) : ParamId → Word
  | .hpFc => p.hpFc
  | .aaMargin => p.aaMargin
  | .aaQ => p.aaQ
  | .pkFa => p.pkFa
  | .pkFb => p.pkFb
  | .pkFc => p.pkFc
  | .pkGa => p.pkGa
  | .pkGb => p.pkGb
  | .pkGc => p.pkGc
  | .pkQa => p.pkQa
  | .pkQb => p.pkQb
  | .ntFa => p.ntFa
  | .ntFb => p.ntFb
  | .ntFc => p.ntFc
  | .ntQa => p.ntQa
  | .ntQb => p.ntQb
  | .r1 => p.r1
  | .r2 => p.r2
  | .rg1 => p.rg1
  | .rg0 => p.rg0
  | .rf => p.rf
  | .rin => p.rin
  | .invPol => boolWord p.invPol
  | .shMode => p.shMode.code
  | .shK0 => p.shK0
  | .shK1 => p.shK1
  | .shT => p.shT
  | .pcFc => p.pcFc
  | .pcQ => p.pcQ
  | .tnFmin => p.tnFmin
  | .tnFmax => p.tnFmax
  | .tnQ => p.tnQ
  | .ptR => p.ptR
  | .ptC => p.ptC

/-- What a write of `v` to a parameter register stores: a binary32 register the word itself (10 R54), P_INV_POL its
bit 0 (10 R55), P_SH_MODE a mode 0, 1 or 2 and nothing for any other value (10 R56). -/
def Params.set (p : Params) (id : ParamId) (v : Word) : Params :=
  match id with
  | .hpFc => { p with hpFc := v }
  | .aaMargin => { p with aaMargin := v }
  | .aaQ => { p with aaQ := v }
  | .pkFa => { p with pkFa := v }
  | .pkFb => { p with pkFb := v }
  | .pkFc => { p with pkFc := v }
  | .pkGa => { p with pkGa := v }
  | .pkGb => { p with pkGb := v }
  | .pkGc => { p with pkGc := v }
  | .pkQa => { p with pkQa := v }
  | .pkQb => { p with pkQb := v }
  | .ntFa => { p with ntFa := v }
  | .ntFb => { p with ntFb := v }
  | .ntFc => { p with ntFc := v }
  | .ntQa => { p with ntQa := v }
  | .ntQb => { p with ntQb := v }
  | .r1 => { p with r1 := v }
  | .r2 => { p with r2 := v }
  | .rg1 => { p with rg1 := v }
  | .rg0 => { p with rg0 := v }
  | .rf => { p with rf := v }
  | .rin => { p with rin := v }
  | .invPol => { p with invPol := v.getLsbD 0 }
  | .shMode => { p with shMode := (ShaperMode.ofCode? v).getD p.shMode }
  | .shK0 => { p with shK0 := v }
  | .shK1 => { p with shK1 := v }
  | .shT => { p with shT := v }
  | .pcFc => { p with pcFc := v }
  | .pcQ => { p with pcQ := v }
  | .tnFmin => { p with tnFmin := v }
  | .tnFmax => { p with tnFmax := v }
  | .tnQ => { p with tnQ := v }
  | .ptR => { p with ptR := v }
  | .ptC => { p with ptC := v }

/-- The STATUS fields but BUSY, which is `pending` not none (10 R32, R38). -/
structure Status where
  prepared : Bool
  fatal : Bool
  done : Bool
  err : Bool
  overrun : Bool
  accErr : Bool
  bypassed : Bool
  result : ResultCode
deriving DecidableEq, Repr

/-- STATUS after reset: every field 0 (10 R38). -/
def Status.reset : Status := ⟨false, false, false, false, false, false, false, .ok⟩

/-- A set of buffer words `Buf[c][n]` with `c < nch` and `n < len` (70 R343). -/
structure Range where
  nch : Nat
  len : Nat
deriving DecidableEq, Repr

/-- The empty set of buffer words (70 R343). -/
def Range.empty : Range := ⟨0, 0⟩

end Sys2Proof.Machine
end

