-- ==== Sys2Proof/Machine/State.lean ====
section
/-! DEFINITION. The machine's state: everything the spec gives BBCHAIN (10, 20 R97, 70 R340), and beside it the model's
own environment (field env). -/

namespace Sys2Proof.Machine

/-- Why a step stops. No host access and no command stops the block (70 R361); only a stage call does, a request the
model's environment places (log 3). -/
inductive Fault where
  /-- The stage-kind or shaper-mode code placed to be run is reserved, or is not the kind of its stage. Raised by the
  fetch of a stage call. Safe: the spec says such a code never occurs and needs no behaviour (30 R131, R136). -/
  | noSuchStageCode (e : DecodeError)
deriving DecidableEq, Repr

/-- Why an instruction is turned away. -/
inductive Refusal where
  /-- An instruction without a meaning, by its mnemonic. Raised by no arm: every instruction has its meaning. -/
  | notModelled (mnemonic : String)
deriving DecidableEq, Repr

/-- The direction of a host access (20 R91). -/
inductive Dir where
  | read | write
deriving DecidableEq, Repr

/-- The width of a host access (20 R91, R92). -/
inductive Width where
  | w8 | w16 | w32 | w64
deriving DecidableEq, Repr

/-- How many bytes a read of a width delivers. -/
def Width.bytes : Width → Nat
  | .w8 => 1 | .w16 => 2 | .w32 => 4 | .w64 => 8

/-- A host access but for its address. `value` is the 32-bit operand of a write (30 R127); a read ignores it, and so
does a write of another width, which is rejected (20 R92). -/
structure Access where
  dir : Dir
  width : Width
  value : Word
deriving DecidableEq, Repr

/-- The events from outside the sequencer, one for each step (20 R103, log 1). -/
inductive Event where
  /-- A host access at a byte offset of the window (20 R91). -/
  | window (off : Offset) (a : Access)
  /-- A host access at a physical address, which reaches the block inside `BASE` to `BASE + 0xFFFF` (20 R94). -/
  | physical (addr : Nat) (a : Access)
  /-- The command in flight completes now (20 R103, 70 R360). -/
  | complete
  /-- One block clock cycle passes (70 R360, log 9). -/
  | clock
  /-- A power-on reset (70 R340). -/
  | powerOn
deriving DecidableEq, Repr

/-- A stage-kind or shaper-mode code to be run as one step, with its operands (log 3). -/
inductive StageCall where
  | kind (code : Byte) (c : Chan) (st : Stage) (x : Word)
  | mode (code : Word) (x : Word)
deriving DecidableEq, Repr

/-- Values of the seven SNAP_* and NORM_* registers (10 R50, R51). -/
structure Snapshot where
  gain : Word
  tone : Word
  volume : Word
  bypass : Bool
  normG : Word
  normT : Word
  normV : Word
deriving DecidableEq, Repr

/-- Every value +0.0 or 0, the reset values of SNAP_* and NORM_* (70 R340). -/
def Snapshot.reset : Snapshot := ⟨0, 0, 0, false, 0, 0, 0⟩

/-- The model's own fields, none of them the spec's (log 1, 3, 7, 8, 9, 12, 15). -/
structure Env where
  /-- The events still to come, the next one first. -/
  inbox : List Event
  /-- The stage operation to run at the next step, if any. -/
  stageCall : Option StageCall
  /-- The sample the last stage or shaper operation handed on (10 R59). -/
  sample : Word
  /-- The bytes delivered to the last host read, the lowest offset first. -/
  reply : List Byte
  /-- Block clock cycles since the command in flight was accepted. -/
  elapsed : Nat
  /-- How many power-on resets have happened. -/
  powerOns : Nat
  /-- How many soft resets have happened. -/
  aborts : Nat
deriving DecidableEq, Repr

/-- The state of BBCHAIN. STATUS.BUSY is `pending` not none (10 R32); constant registers have no field. -/
structure State where
  /-- The command word accepted and not yet completed (10 R32). -/
  pending : Option Word
  /-- The buffer words a PROCESS in flight may have written (70 R343). -/
  abortRange : Range
  /-- CTRL.IRQ_EN (10 R37). -/
  irqEn : Bool
  /-- STATUS but BUSY (10 R38). -/
  status : Status
  /-- LAST_CMD (10 R40). -/
  lastCmd : Word
  /-- FAULT_INFO (10 R41). -/
  faultInfo : Word
  /-- BLOCK_CNT (10 R45). -/
  blockCnt : Word
  /-- SPEC_FS (10 R42). -/
  specFs : Word
  /-- SPEC_MAXB (10 R43). -/
  specMaxb : Word
  /-- SPEC_NCH (10 R44). -/
  specNch : Word
  /-- ACTIVE_FS (10 R46). -/
  activeFs : Word
  /-- ACTIVE_MAXB (10 R46). -/
  activeMaxb : Word
  /-- ACTIVE_NCH (10 R46). -/
  activeNch : Word
  /-- GAIN (10 R47, R48). -/
  gain : Word
  /-- TONE (10 R47, R48). -/
  tone : Word
  /-- VOLUME (10 R47, R48). -/
  volume : Word
  /-- BYPASS bit 0 (10 R49). -/
  bypass : Bool
  /-- SNAP_GAIN (10 R50). -/
  snapGain : Word
  /-- SNAP_TONE (10 R50). -/
  snapTone : Word
  /-- SNAP_VOLUME (10 R50). -/
  snapVolume : Word
  /-- SNAP_BYPASS bit 0 (10 R50). -/
  snapBypass : Bool
  /-- NORM_G (10 R51). -/
  normG : Word
  /-- NORM_T (10 R51). -/
  normT : Word
  /-- NORM_V (10 R51). -/
  normV : Word
  /-- What SNAP_* and NORM_* held before the last command was accepted: what a read of them returns while BUSY (20 R95,
  log 20). -/
  snapBefore : Snapshot
  /-- P_* (10 R53). -/
  params : Params
  /-- COEF (10 R60). -/
  coef : CoefFile
  /-- STATE of channel 0 (10 R66). -/
  filter0 : FilterFile
  /-- STATE of channel 1 (10 R66). -/
  filter1 : FilterFile
  /-- The sample buffer (20 R97). -/
  mem : Mem
  /-- The model's own, and no step changes it: whether the machine's Sin32 also stays at most 1.0 up to W_MAX, or is any
  function 00 R12 allows (log 6). -/
  sineBounded : Bool
  /-- The model's own fields. -/
  env : Env
deriving DecidableEq, Repr

/-- The environment at the start: nothing queued, nothing delivered (DESIGN CHOICE, log 15). -/
def Env.initial : Env := ⟨[], none, 0, [], 0, 0, 0⟩

/-- The machine right after a power-on reset (70 R340), each register at the value its rule gives; its Sin32 is any
function 00 R12 allows (DESIGN CHOICE, log 6). -/
def State.reset : State where
  pending := none
  abortRange := Range.empty
  irqEn := false
  status := Status.reset
  lastCmd := 0x00000000
  faultInfo := 0x00000000
  blockCnt := 0x00000000
  specFs := 0x00000000
  specMaxb := 0x00000000
  specNch := 0x00000000
  activeFs := 0x00000000
  activeMaxb := 0x00000000
  activeNch := 0x00000000
  gain := 0x40A00000
  tone := 0x40A00000
  volume := 0x40A00000
  bypass := false
  snapGain := 0x00000000
  snapTone := 0x00000000
  snapVolume := 0x00000000
  snapBypass := false
  normG := 0x00000000
  normT := 0x00000000
  normV := 0x00000000
  snapBefore := Snapshot.reset
  params := Params.reset
  coef := zeroCoef
  filter0 := zeroFilter
  filter1 := zeroFilter
  mem := []
  sineBounded := false
  env := Env.initial

end Sys2Proof.Machine
end

