-- ==== Sys2Proof/Machine/Flags.lean ====
section
/-! DEFINITION. STATUS and CTRL: the word a read returns, the W1C write, and the interrupt output (10 R37, R38, 60 R320). -/

namespace Sys2Proof.Machine

/-- STATUS.BUSY is 1 exactly when `pending` is not none (10 R32). -/
def State.busy (s : State) : Bool := s.pending.isSome

/-- A one-bit field at bit `n` of a word. -/
def bitAt (b : Bool) (n : Nat) : Word := if b then 1#32 <<< n else 0#32

/-- What a read of STATUS returns (10 R38). -/
def State.statusWord (s : State) : Word :=
  bitAt s.busy 0 ||| bitAt s.status.prepared 1 ||| bitAt s.status.fatal 2 ||| bitAt s.status.done 3 |||
  bitAt s.status.err 4 ||| bitAt s.status.overrun 5 ||| bitAt s.status.accErr 6 |||
  bitAt s.status.bypassed 7 ||| (s.status.result.code.setWidth 32 <<< 8)

/-- What a read of CTRL returns: SOFT_RESET and the reserved bits read 0 (10 R37). -/
def State.ctrlWord (s : State) : Word := bitAt s.irqEn 1

/-- A host write of `v` to STATUS clears bits 3 to 6 where `v` has a 1, and nothing else (10 R38, 40 R187). -/
def Status.clear (t : Status) (v : Word) : Status :=
  { t with
    done := t.done && !v.getLsbD 3
    err := t.err && !v.getLsbD 4
    overrun := t.overrun && !v.getLsbD 5
    accErr := t.accErr && !v.getLsbD 6 }

/-- STATUS after a completion with `code`: RESULT, DONE, and ERR for an error (40 R154). -/
def Status.completed (t : Status) (code : ResultCode) : Status :=
  { t with result := code, done := true, err := t.err || code.isError }

/-- The interrupt output: `irq = CTRL.IRQ_EN ∧ STATUS.DONE` (60 R320). -/
def State.irq (s : State) : Bool := s.irqEn && s.status.done

/-- FAULT_INFO for a fault at stage `st`, coefficient word `i` (10 R41, 60 R310). -/
def faultRecord (st : Stage) (i : Nat) : Word :=
  0x80000000#32 ||| (BitVec.ofNat 32 i <<< 8) ||| BitVec.ofNat 32 st.idx

end Sys2Proof.Machine
end

