-- ==== Sys2Proof/Config.lean ====
section
/-! DEFINITION. What the spec leaves open: the OPEN parameters of 00 R5 and the values 93_implementation_defined.md
lists as `any value`. Each is an opaque constant with no body, so nothing can be proved of its value. -/

namespace Sys2Proof

/-- The operations whose IEEE 754 result can be NaN (00 R11). -/
inductive FpOp where
  | add | sub | mul | div | sqrt | sin | cos | tan | atan
deriving DecidableEq, Repr

/-- The sign (bit 22) and payload (bits 21:0) of the quiet NaN an operation delivers for two operands
(00 R5 "NaN payload", R11). DESIGN CHOICE: a function of the operation and its operands (log 5). Safe where no claim
compares the bits of two NaNs; see the log. -/
opaque Config.nanBits : FpOp → Word → Word → BitVec 23

/-- The raw implementation of Sin32 (00 R12 OPEN); Machine/Transcendental.lean holds it to the named properties (log 6). -/
opaque Config.sinRaw : Word → Word

/-- The raw implementation of Cos32 (00 R12 OPEN, log 6). -/
opaque Config.cosRaw : Word → Word

/-- The raw implementation of Tan32 (00 R12 OPEN, log 6). -/
opaque Config.tanRaw : Word → Word

/-- The raw implementation of Atan32 for a positive argument (00 R12 OPEN, log 6). -/
opaque Config.atanRaw : Word → Word

/-- The byte at a window offset of the sample buffer after the n-th power-on reset (20 R99 `any value`, log 7). -/
opaque Config.powerOnByte : Nat → Nat → Byte

/-- The word at a window offset that the n-th soft reset left there when it abandoned a PROCESS
(70 R343 `any value`, log 8). -/
opaque Config.abortWord : Nat → Nat → Word

/-- L_FIXED, in block clock cycles (70 R360 OPEN, log 9). -/
opaque Config.lFixed : Nat

/-- L_SAMPLE, in block clock cycles for each sample of each channel (70 R360 OPEN, log 9). -/
opaque Config.lSample : Nat

/-- BASE, the physical address of offset 0 of the window (00 R5 OPEN, log 10). -/
opaque Config.base : Nat

/-- What a shaper would return in a reserved mode (30 R136: the mode never occurs; log 11). Arguments: the mode word
and the sample. -/
opaque Config.reservedShape : Word → Word → Word

end Sys2Proof
end

