-- ==== Sys2Proof/Machine/Float32.lean ====
section
/-! DEFINITION. IEEE 754 binary32 arithmetic (00 R6 to R11, R13, R14, R16): each operation is computed exactly and
rounded once, to nearest with ties to even. A finite value is a whole number of units of 2^-149. -/

namespace Sys2Proof.Machine.F32

/-- Bit 31, the sign (00 R6). -/
def sign (x : Word) : Bool := x.msb

/-- Bits 30:0 as a number: exponent field and fraction together (00 R6). Of two non-negative values the greater has
the greater magnitude. -/
def mag (x : Word) : Nat := x.toNat % 0x80000000

/-- The magnitude of an infinity. -/
def infMag : Nat := 0x7F800000

/-- `isNaN` (00 R14). -/
def isNaN (x : Word) : Bool := infMag < mag x

/-- Whether a value is +Inf or -Inf. -/
def isInf (x : Word) : Bool := mag x == infMag

/-- `isFinite` (00 R14). -/
def isFinite (x : Word) : Bool := mag x < infMag

/-- Whether a value is +0.0 or -0.0. -/
def isZero (x : Word) : Bool := mag x == 0

/-- Negation flips the sign bit, also of NaN (00 R7). -/
def neg (x : Word) : Word := x ^^^ 0x80000000#32

/-- `abs` clears bit 31 (00 R16). -/
def abs (x : Word) : Word := x &&& 0x7FFFFFFF#32

/-- `copysign(m, x)`: `m` with bit 31 of `x` (00 R16). -/
def copysign (m x : Word) : Word := (m &&& 0x7FFFFFFF#32) ||| (x &&& 0x80000000#32)

/-- The word with a given sign and magnitude bits; an overflowing magnitude is that of an infinity (00 R10). -/
def pack (sg : Bool) (m : Nat) : Word :=
  BitVec.ofNat 32 ((if sg then 0x80000000 else 0) + min m infMag)

/-- `+0.0` or `-0.0`. -/
def zeroOf (sg : Bool) : Word := pack sg 0

/-- `+Inf` or `-Inf`. -/
def infOf (sg : Bool) : Word := pack sg infMag

/-- The quiet NaN an operation delivers: exponent all ones, bit 22 set, sign and payload free (00 R11, log 5). -/
def quietNaN (op : FpOp) (x y : Word) : Word :=
  let p := Config.nanBits op x y
  p.extractLsb' 22 1 ++ (0x1FF#9 ++ p.extractLsb' 0 22)

/-- The magnitude of a finite value in units of 2^-149, subnormals included (00 R6, R8). -/
def units (x : Word) : Nat :=
  let e := mag x / 0x800000
  if e = 0 then mag x else (0x800000 + mag x % 0x800000) * 2 ^ (e - 1)

/-- A finite value in units of 2^-149. -/
def toInt (x : Word) : Int := if sign x then -(units x : Int) else (units x : Int)

/-- `n / d` rounded to a whole number, to nearest with ties to even (00 R7). -/
def roundHalfEven (n d : Nat) : Nat :=
  let q := n / d
  let r := n % d
  if 2 * r < d then q else if d < 2 * r then q + 1 else q + q % 2

/-- The magnitude bits of the exact value `n / d` units, rounded once (00 R7, R8): the quantum is one unit below 2^24
units, and doubles with each binade above. -/
def roundMag (n d : Nat) : Nat :=
  let e := Nat.log2 (n / d) - 23
  e * 0x800000 + roundHalfEven n (d * 2 ^ e)

/-- The exact value `n / d` units with a sign, rounded once (00 R7, R10). -/
def ofRatio (sg : Bool) (n d : Nat) : Word := pack sg (roundMag n d)

/-- The exact sum of two finite values, rounded once; an exact zero is `-0.0` only for two negative zeros (00 R9). -/
def addFinite (x y : Word) : Word :=
  let v := toInt x + toInt y
  if v = 0 then zeroOf (sign x && sign y) else ofRatio (decide (v < 0)) v.natAbs 1

/-- Addition with infinities and NaN (00 R10, R11); `nan` is the NaN to deliver. -/
def sumOf (nan x y : Word) : Word :=
  if isNaN x || isNaN y then nan
  else if isInf x then (if isInf y && sign x != sign y then nan else x)
  else if isInf y then y
  else addFinite x y

/-- `a ⊕ b` (00 R7). -/
def add (x y : Word) : Word := sumOf (quietNaN .add x y) x y

/-- `a ⊖ b` (00 R7). -/
def sub (x y : Word) : Word := sumOf (quietNaN .sub x y) x (neg y)

/-- `a ⊗ b` (00 R7, R9, R10, R11). -/
def mul (x y : Word) : Word :=
  let sg := sign x != sign y
  if isNaN x || isNaN y then quietNaN .mul x y
  else if isInf x || isInf y then
    (if isZero x || isZero y then quietNaN .mul x y else infOf sg)
  else ofRatio sg (units x * units y) (2 ^ 149)

/-- `a ⊘ b` (00 R7, R9, R10, R11). -/
def div (x y : Word) : Word :=
  let sg := sign x != sign y
  if isNaN x || isNaN y then quietNaN .div x y
  else if isInf x then (if isInf y then quietNaN .div x y else infOf sg)
  else if isInf y then zeroOf sg
  else if isZero y then (if isZero x then quietNaN .div x y else infOf sg)
  else ofRatio sg (units x * 2 ^ 149) (units y)

/-- The integer square root built bit by bit: the greatest `r + k` with `k < 2^b` whose square is at most `n`. -/
def isqrtBits (n : Nat) : Nat → Nat → Nat
  | 0, r => r
  | b + 1, r =>
    let r' := r + 2 ^ b
    isqrtBits n b (if r' * r' ≤ n then r' else r)

/-- The integer square root of a number below 2^428. -/
def isqrt (n : Nat) : Nat := isqrtBits n 214 0

/-- `sqrt n` in units of `2^e`, rounded to nearest with ties to even. -/
def roundSqrt (n e : Nat) : Nat :=
  let q := isqrt (n / 4 ^ e)
  let h := (2 * q + 1) * (2 * q + 1) * 4 ^ e
  if 4 * n < h then q else if h < 4 * n then q + 1 else q + q % 2

/-- `Sqrt32`, correctly rounded (00 R13). -/
def sqrt (x : Word) : Word :=
  if isNaN x then quietNaN .sqrt x x
  else if isZero x then x
  else if sign x then quietNaN .sqrt x x
  else if isInf x then x
  else
    let n := units x * 2 ^ 149
    let e := Nat.log2 (isqrt n) - 23
    pack false (e * 0x800000 + roundSqrt n e)

/-- The place of a non-NaN value in the order of the reals and the infinities; both zeros stand at 0 (00 R14). -/
def key (x : Word) : Int := if sign x then -(mag x : Int) else (mag x : Int)

/-- `x < y`, false for a NaN (00 R14). -/
def lt (x y : Word) : Bool := !isNaN x && !isNaN y && decide (key x < key y)

/-- `x ≤ y`, false for a NaN (00 R14). -/
def le (x y : Word) : Bool := !isNaN x && !isNaN y && decide (key x ≤ key y)

/-- `x = y`, false for a NaN, true for zeros of both signs (00 R14). -/
def eq (x y : Word) : Bool := !isNaN x && !isNaN y && decide (key x = key y)

/-- `clamp(x, lo, hi)`: NaN passes, and `hi` wins when `lo > hi` (00 R15). -/
def clamp (x lo hi : Word) : Word :=
  if isNaN x then x
  else
    let m := if lt x lo then lo else x
    if lt hi m then hi else m

/-- `clampNN(x)`: a value below zero becomes `+0.0`; NaN and `-0.0` pass (00 R15). -/
def clampNN (x : Word) : Word :=
  if isNaN x then x else if lt x 0#32 then 0#32 else x

/-! The named constants (00 R17), and 1.0, 2.0, 3.0, -1.0 and -2.0 of the formulas. -/

def PI32 : Word := 0x40490FDB
def TWO_PI32 : Word := 0x40C90FDB
def HALF : Word := 0x3F000000
def TEN : Word := 0x41200000
def NYQ49 : Word := 0x3EFAE148
def F_LO : Word := 0x3F800000
def Q_LO : Word := 0x3D800000
def Q_HI : Word := 0x42800000
def PG_LO : Word := 0x3A800000
def PG_HI : Word := 0x44800000
def T_HI : Word := 0x3F700000
def ONE : Word := 0x3F800000
def TWO : Word := 0x40000000
def THREE : Word := 0x40400000
def NEG_ONE : Word := 0xBF800000
def NEG_TWO : Word := 0xC0000000

/-- W_MAX, the largest angle of a biquad when the sample rate is at least 1.0 (00 R12 `P_SIN_POS`). -/
def W_MAX : Word := 0x40450A6C

/-- A_MAX, the largest angle of a first-order section when the sample rate is at least 1.0 (00 R12 `P_TAN_POS`). -/
def A_MAX : Word := 0x3FC50A6C

/-- The bound of Atan32 (00 R12 `P_ATAN_BOUND`). -/
def ATAN_MAX : Word := 0x3FC90FDB

end Sys2Proof.Machine.F32
end

