-- ==== Sys2Proof/Machine/Operands.lean ====
section
/-! DEFINITION. Reading the window's words and the legal value a control write stores (10, 20 R89 to R98, 40 R189). -/

namespace Sys2Proof.Machine

/-- `ctlclamp(w)`: a NaN stores +0.0, any other value is clamped to 0.0 to 10.0 (10 R48). -/
def ctlClamp (w : Word) : Word := if F32.isNaN w then 0#32 else F32.clamp w 0#32 F32.TEN

/-- The filter-state words of a channel (10 R66). -/
def State.filter (s : State) : Chan → FilterFile
  | .ch0 => s.filter0
  | .ch1 => s.filter1

/-- `s` with the filter-state words of a channel replaced (10 R66). -/
def State.setFilter (s : State) (c : Chan) (f : FilterFile) : State :=
  match c with
  | .ch0 => { s with filter0 := f }
  | .ch1 => { s with filter1 := f }

/-- `State[c][st][j]` for j = 0, 1 (10 R66). -/
def Pair.get (p : Pair) : Nat → Word
  | 0 => p.s1
  | _ => p.s2

/-- The byte at window offset `a` of the sample buffer: what was last written there, or a free value (20 R98, R99, log 7). -/
def State.bufByte (s : State) (a : Nat) : Byte :=
  (s.mem.lookup a).getD (Config.powerOnByte s.env.powerOns a)

/-- The word at window offset `a` of the sample buffer, little-endian (20 R90). -/
def State.bufWordAt (s : State) (a : Nat) : Word :=
  wordOf (s.bufByte a) (s.bufByte (a + 1)) (s.bufByte (a + 2)) (s.bufByte (a + 3))

/-- `Buf[c][n]` (20 R97). -/
def State.bufWord (s : State) (c : Chan) (n : Nat) : Word := s.bufWordAt (bufAddr c n)

/-- `Buf[c][n] <- w` (20 R97, R98). -/
def State.setBuf (s : State) (c : Chan) (n : Nat) (w : Word) : State :=
  { s with mem := s.mem.storeWord (bufAddr c n) w }

/-- What SNAP_* and NORM_* hold (10 R50, R51). -/
def State.snapNow (s : State) : Snapshot :=
  ⟨s.snapGain, s.snapTone, s.snapVolume, s.snapBypass, s.normG, s.normT, s.normV⟩

/-- What a read of SNAP_* and NORM_* returns: what they hold, and while BUSY what they held before the command in flight
was accepted (20 R95; DEDUCED, unsafe for a claim about such a read, log 20). -/
def State.snapRead (s : State) : Snapshot := if s.busy then s.snapBefore else s.snapNow

/-- What a read of a register or buffer word returns; write-only and reserved offsets return 0 (10 section 2.1,
40 R189). -/
def State.readReg (s : State) : Reg → Word
  | .id => 0x42424348
  | .version => 0x00010007
  | .ctrl => s.ctrlWord
  | .status => s.statusWord
  | .cmd => 0
  | .lastCmd => s.lastCmd
  | .faultInfo => s.faultInfo
  | .blockCnt => s.blockCnt
  | .specFs => s.specFs
  | .specMaxb => s.specMaxb
  | .specNch => s.specNch
  | .activeFs => s.activeFs
  | .activeMaxb => s.activeMaxb
  | .activeNch => s.activeNch
  | .caps => 0x00B21000
  | .gain => s.gain
  | .tone => s.tone
  | .volume => s.volume
  | .bypass => boolWord s.bypass
  | .snapGain => s.snapRead.gain
  | .snapTone => s.snapRead.tone
  | .snapVolume => s.snapRead.volume
  | .snapBypass => boolWord s.snapRead.bypass
  | .normG => s.snapRead.normG
  | .normT => s.snapRead.normT
  | .normV => s.snapRead.normV
  | .param p => s.params.get p
  | .stageKind st => st.kind.code.setWidth 32
  | .coef st i => (s.coef.get st).get i
  | .state c st j => ((s.filter c).get st).get j
  | .buf c n => s.bufWord c n.toNat
  | .reserved => 0

/-- Whether an offset lies in the sample buffer (20 R97). -/
def inBuffer (off : Offset) : Bool := off.getLsbD 15

/-- The persisted control state: the GAIN, TONE, VOLUME and BYPASS registers, 16 bytes little-endian (10 R52). -/
def State.persisted (s : State) : List Byte :=
  bytesOf s.gain ++ bytesOf s.tone ++ bytesOf s.volume ++ bytesOf (boolWord s.bypass)

end Sys2Proof.Machine
end

