-- ==== Sys2Proof/Machine/Transcendental.lean ====
section
/-! DEFINITION. Sin32, Cos32, Tan32 and Atan32 (00 R12). Each is the opaque function of Config where that function
meets the named property, and a lawful value where it does not, so that every function 00 R12 allows is one of these
and the named properties are theorems (log 6). -/

namespace Sys2Proof.Machine.F32

/-- `Sin32`: NaN for NaN and the infinities (`P_NAN`), positive up to W_MAX (`P_SIN_POS`). With `bounded` false it is any
function 00 R12 allows; with `bounded` true, any of those that also stays at most 1.0 up to W_MAX (State.sineBounded,
log 6). -/
def sin32 (bounded : Bool) (x : Word) : Word :=
  if isFinite x then
    let r := Config.sinRaw x
    if lt 0#32 x && le x W_MAX && !(lt 0#32 r && (!bounded || le r ONE)) then 1#32 else r
  else quietNaN .sin x x

/-- `Cos32`: NaN for NaN and the infinities (`P_NAN`), within -1 and 1 otherwise (`P_COS_RANGE`). -/
def cos32 (x : Word) : Word :=
  if isFinite x then
    let r := Config.cosRaw x
    if le NEG_ONE r && le r ONE then r else ONE
  else quietNaN .cos x x

/-- `Tan32`: NaN for NaN and the infinities (`P_NAN`), finite and positive up to A_MAX (`P_TAN_POS`). -/
def tan32 (x : Word) : Word :=
  if isFinite x then
    let r := Config.tanRaw x
    if lt 0#32 x && le x A_MAX && !(isFinite r && lt 0#32 r) then ONE else r
  else quietNaN .tan x x

/-- Whether the opaque arctangent is, on positive arguments, non-NaN, non-negative, at most ATAN_MAX and
non-decreasing (00 R12 `P_ATAN_BOUND`). The first conjunct is an instance of the second. -/
def atanLawful : Bool :=
  le 0#32 (Config.atanRaw ONE) &&
  decide (∀ a : Word, 0 < a.toNat → a.toNat ≤ infMag →
    le 0#32 (Config.atanRaw a) ∧ le (Config.atanRaw a) ATAN_MAX ∧
    ∀ b : Word, a.toNat ≤ b.toNat → b.toNat ≤ infMag → le (Config.atanRaw a) (Config.atanRaw b))

/-- Atan32 of a positive value. -/
def atanPos (x : Word) : Word := if atanLawful then Config.atanRaw x else 0#32

/-- `Atan32`: odd bit for bit (`P_ATAN_ODD`), bounded and non-decreasing (`P_ATAN_BOUND`), NaN for NaN (`P_NAN`). -/
def atan32 (x : Word) : Word :=
  if isNaN x then quietNaN .atan x x
  else if isZero x then x
  else if sign x then neg (atanPos (abs x))
  else atanPos x

end Sys2Proof.Machine.F32
end

