-- ==== Sys2Proof/Machine/Chain.lean ====
section
/-! DEFINITION. The per-sample operations of the stages (42, 43, 44) and the chain that PROCESS runs over a block
(40 R172, R173). -/

namespace Sys2Proof.Machine

open F32

/-- The biquad step (42 R250): output and new state words. -/
def biquadStep (r : Row) (p : Pair) (x : Word) : Word × Pair :=
  let y := add (mul r.w0 x) p.s1
  (y, ⟨add (sub (mul r.w1 x) (mul r.w3 y)) p.s2, sub (mul r.w2 x) (mul r.w4 y)⟩)

/-- The first-order step (42 R255): output and new state words. -/
def firstOrderStep (r : Row) (p : Pair) (x : Word) : Word × Pair :=
  let y := add (mul r.w0 x) p.s1
  (y, ⟨sub (mul r.w1 x) (mul r.w3 y), 0#32⟩)

/-- A gain step `M ⊗ x` (43 R270, R272, R274). -/
def gainStep (r : Row) (x : Word) : Word := mul r.w1 x

/-- ATAN_SYM (44 R287). -/
def shapeAtanSym (r : Row) (x : Word) : Word := mul r.w0 (atan32 x)

/-- ATAN_DOC (44 R288). -/
def shapeAtanDoc (r : Row) (x : Word) : Word :=
  if le 0#32 x then sub x (mul r.w0 (atan32 x)) else neg (mul r.w0 (atan32 (neg x)))

/-- CUBIC (44 R289). -/
def shapeCubic (r : Row) (x : Word) : Word :=
  if isNaN x then x
  else
    let ax := abs x
    if le ax r.w1 then x
    else if lt ax r.w2 then
      let d := sub ax r.w1
      copysign (sub ax (mul (mul (mul d d) d) r.w3)) x
    else copysign ONE x

/-- `shape_MODE(x)` (44 R285). A reserved mode never stands in the row (30 R136); its result would be a free value
(log 11). -/
def shape (r : Row) (x : Word) : Word :=
  match ShaperMode.ofCode? r.w4 with
  | some .atanSym => shapeAtanSym r x
  | some .atanDoc => shapeAtanDoc r x
  | some .cubic => shapeCubic r x
  | none => Config.reservedShape r.w4 x

/-- `step(kind, row, state, x)`: output and new state words (40 R173). -/
def stageStep (k : StageKind) (r : Row) (p : Pair) (x : Word) : Word × Pair :=
  match k with
  | .foHp => firstOrderStep r p x
  | .foLp => firstOrderStep r p x
  | .bqLp => biquadStep r p x
  | .bqPeak => biquadStep r p x
  | .bqNotch => biquadStep r p x
  | .gainNi => (gainStep r x, p)
  | .gainInv => (gainStep r x, p)
  | .gainVol => (gainStep r x, p)
  | .shaper => (shape r x, p)

/-- One sample through the given stages in order (40 R173). -/
def chainOver (coef : CoefFile) : List Stage → FilterFile → Word → Word × FilterFile
  | [], f, x => (x, f)
  | st :: rest, f, x =>
    let r := stageStep st.kind (coef.get st) (f.get st) x
    chainOver coef rest (f.set st r.2) r.1

/-- `chain(c, x)` for the filter-state words of a channel (40 R173). -/
def chain (coef : CoefFile) (f : FilterFile) (x : Word) : Word × FilterFile :=
  chainOver coef Stage.all f x

/-- `Buf[c][n] <- chain(c, Buf[c][n])`, with the channel's filter state (40 R172). -/
def processSample (coef : CoefFile) (c : Chan) (s : State) (n : Nat) : State :=
  let r := chain coef (s.filter c) (s.bufWord c n)
  (s.setFilter c r.2).setBuf c n r.1

/-- The samples `0` to `len - 1` of a channel in order (40 R172). -/
def processChan (coef : CoefFile) (len : Nat) (s : State) (c : Chan) : State :=
  (List.range len).foldl (processSample coef c) s

/-- How many samples of a channel a PROCESS reaches: LEN, and never past the buffer (30 R123, log 13). -/
def blockLen (len : BitVec 16) : Nat := min len.toNat 4096

/-- The channels `0` to `nch - 1`; the buffer has two (20 R97, log 13). -/
def activeChans (nch : Word) : List Chan := Chan.all.filter (fun c => decide (c.idx < nch.toNat))

/-- The loops of the transform path (40 R172). -/
def processBlock (coef : CoefFile) (nch : Word) (len : BitVec 16) (s : State) : State :=
  (activeChans nch).foldl (processChan coef (blockLen len)) s

/-! The same work on a list of samples, sample by sample and stage by stage (40 R174). -/

/-- Every sample through the whole chain before the next one (40 R172). -/
def sampleMajor (coef : CoefFile) : List Word → FilterFile → List Word × FilterFile
  | [], f => ([], f)
  | x :: xs, f =>
    let r := chain coef f x
    let rest := sampleMajor coef xs r.2
    (r.1 :: rest.1, rest.2)

/-- Every sample through one stage (40 R174). -/
def stageBlock (k : StageKind) (r : Row) : List Word → Pair → List Word × Pair
  | [], p => ([], p)
  | x :: xs, p =>
    let y := stageStep k r p x
    let rest := stageBlock k r xs y.2
    (y.1 :: rest.1, rest.2)

/-- The whole block through each stage before the next stage (40 R174). -/
def stageMajorOver (coef : CoefFile) : List Stage → List Word → FilterFile → List Word × FilterFile
  | [], xs, f => (xs, f)
  | st :: rest, xs, f =>
    let r := stageBlock st.kind (coef.get st) xs (f.get st)
    stageMajorOver coef rest r.1 (f.set st r.2)

/-- The block processed stage by stage (40 R174). -/
def stageMajor (coef : CoefFile) (xs : List Word) (f : FilterFile) : List Word × FilterFile :=
  stageMajorOver coef Stage.all xs f

end Sys2Proof.Machine
end

