-- ==== Sys2Proof/Machine/Resolver.lean ====
section
/-! DEFINITION. The Parameter Resolver (41): from the parameter registers, the normalised controls and a sample rate to
the eleven coefficient rows, and the non-finite check. Operations stand in the order of the rules' parentheses. -/

namespace Sys2Proof.Machine

open F32

/-- `F_HI = fs ⊗ NYQ49` (41 R200). -/
def fHi (fs : Word) : Word := mul fs NYQ49

/-- `clampF` (41 R200). -/
def clampF (fs x : Word) : Word := clamp x F_LO (fHi fs)

/-- `clampQ` (41 R203). -/
def clampQ (x : Word) : Word := clamp x Q_LO Q_HI

/-- `clampPG` (41 R203). -/
def clampPG (x : Word) : Word := clamp x PG_LO PG_HI

/-- `((a ⊗ g) ⊗ g ⊕ b ⊗ g) ⊕ c` (41 R217). -/
def quadratic (a b c g : Word) : Word := add (add (mul (mul a g) g) (mul b g)) c

/-- `(a ⊗ g) ⊕ b` (41 R217, R218, R225, R230). -/
def linear (a b g : Word) : Word := add (mul a g) b

/-- `w0`, the angle of a biquad (41 R201). -/
def angle (fs f : Word) : Word := mul TWO_PI32 (div f fs)

/-- `cw` (41 R201). -/
def cosW (fs f : Word) : Word := cos32 (angle fs f)

/-- `alpha` (41 R201); `sb` says which functions Sin32 may be (log 6). -/
def alphaOf (sb : Bool) (fs f q : Word) : Word := div (sin32 sb (angle fs f)) (mul TWO q)

/-- `normalise(b0n, b1n, b2n, a0, a1n, a2n) ++ [f, q, pg]` (41 R207, 10 R61). -/
def normalise (b0n b1n b2n a0 a1n a2n f q pg : Word) : Row :=
  ⟨div b0n a0, div b1n a0, div b2n a0, div a1n a0, div a2n a0, f, q, pg⟩

/-- The biquad low-pass row (41 R204). -/
def lowPassRow (cw alpha f q : Word) : Row :=
  let t1 := sub ONE cw
  let b0n := div t1 TWO
  normalise b0n t1 b0n (add ONE alpha) (mul NEG_TWO cw) (sub ONE alpha) f q 0#32

/-- The biquad notch row (41 R205). -/
def notchRow (cw alpha f q : Word) : Row :=
  normalise ONE (mul NEG_TWO cw) ONE (add ONE alpha) (mul NEG_TWO cw) (sub ONE alpha) f q 0#32

/-- The biquad peaking row (41 R206). -/
def peakRow (cw alpha f q pg : Word) : Row :=
  let a := sqrt pg
  let aA := mul alpha a
  let aoA := div alpha a
  normalise (add ONE aA) (mul NEG_TWO cw) (sub ONE aA) (add ONE aoA) (mul NEG_TWO cw) (sub ONE aoA) f q pg

/-- `K`, the prewarped constant of a first-order section (41 R202). -/
def warp (fs f : Word) : Word := tan32 (mul PI32 (div f fs))

/-- The first-order high-pass row (41 R210). -/
def highPass1Row (k f : Word) : Row :=
  let den := add k ONE
  let b0 := div ONE den
  ⟨b0, neg b0, 0#32, div (sub k ONE) den, 0#32, f, 0#32, 0#32⟩

/-- The first-order low-pass row (41 R211). -/
def lowPass1Row (k f : Word) : Row :=
  let den := add k ONE
  let b0 := div k den
  ⟨b0, b0, 0#32, div (sub k ONE) den, 0#32, f, 0#32, 0#32⟩

/-- A gain row: magnitude `G` and multiplier `M` (10 R63). -/
def gainRow (g m : Word) : Row := ⟨g, m, 0#32, 0#32, 0#32, 0#32, 0#32, 0#32⟩

/-- Stage 0 HPF (41 R215). -/
def rowHpf (p : Params) (fs : Word) : Row :=
  let f := clampF fs p.hpFc
  highPass1Row (warp fs f) f

/-- Stage 1 AAF (41 R216). -/
def rowAaf (sb : Bool) (p : Params) (fs : Word) : Row :=
  let f := clampF fs (sub (mul fs HALF) p.aaMargin)
  let q := clampQ p.aaQ
  lowPassRow (cosW fs f) (alphaOf sb fs f q) f q

/-- Stage 2 PEAK (41 R217). -/
def rowPeak (sb : Bool) (p : Params) (fs g : Word) : Row :=
  let f := clampF fs (quadratic p.pkFa p.pkFb p.pkFc g)
  let q := clampQ (linear p.pkQa p.pkQb g)
  let pg := clampPG (quadratic p.pkGa p.pkGb p.pkGc g)
  peakRow (cosW fs f) (alphaOf sb fs f q) f q pg

/-- Stage 3 NOTCH (41 R218). -/
def rowNotch (sb : Bool) (p : Params) (fs g : Word) : Row :=
  let f := clampF fs (quadratic p.ntFa p.ntFb p.ntFc g)
  let q := clampQ (linear p.ntQa p.ntQb g)
  notchRow (cosW fs f) (alphaOf sb fs f q) f q

/-- Stage 4 GAIN_NI (41 R225). -/
def rowGainNi (p : Params) (g : Word) : Row :=
  let rg := linear p.rg1 p.rg0 g
  let gain := clampNN (add ONE (div (add p.r1 rg) p.r2))
  gainRow gain gain

/-- Stage 5 GAIN_INV (41 R226). -/
def rowGainInv (p : Params) : Row :=
  let gain := clampNN (div p.rf p.rin)
  gainRow gain (if p.invPol then neg gain else gain)

/-- Stage 6 SHAPER (41 R230). -/
def rowShaper (p : Params) (g : Word) : Row :=
  let k := clampNN (linear p.shK1 p.shK0 g)
  let tc := clamp p.shT 0#32 T_HI
  let b := div (sub THREE tc) TWO
  let h := sub b tc
  ⟨k, tc, b, div ONE (mul (mul THREE h) h), p.shMode.code, 0#32, 0#32, 0#32⟩

/-- Stage 7 PCLP (41 R219). -/
def rowPclp (sb : Bool) (p : Params) (fs : Word) : Row :=
  let f := clampF fs p.pcFc
  let q := clampQ p.pcQ
  lowPassRow (cosW fs f) (alphaOf sb fs f q) f q

/-- The cutoff of stage 8 TONE (41 R220). -/
def toneCutoff (p : Params) (fs t : Word) : Word :=
  clampF fs (add p.tnFmin (mul (sub p.tnFmax p.tnFmin) t))

/-- Stage 8 TONE (41 R220). -/
def rowTone (sb : Bool) (p : Params) (fs t : Word) : Row :=
  let f := toneCutoff p fs t
  let q := clampQ p.tnQ
  lowPassRow (cosW fs f) (alphaOf sb fs f q) f q

/-- Stage 9 PTLP (41 R221). -/
def rowPtlp (p : Params) (fs : Word) : Row :=
  let f := clampF fs (div ONE (mul (mul TWO_PI32 p.ptR) p.ptC))
  lowPass1Row (warp fs f) f

/-- Stage 10 VOL (41 R227). -/
def rowVol (v : Word) : Row :=
  let gain := clampNN v
  gainRow gain gain

/-- The eleven rows of a resolve (41 R245), from the parameter registers, NORM_G, NORM_T, NORM_V and `fs` (41 R248). -/
def resolveRows (sb : Bool) (p : Params) (g t v fs : Word) : CoefFile where
  hpf := rowHpf p fs
  aaf := rowAaf sb p fs
  peak := rowPeak sb p fs g
  notch := rowNotch sb p fs g
  gainNi := rowGainNi p g
  gainInv := rowGainInv p
  shaper := rowShaper p g
  pclp := rowPclp sb p fs
  tone := rowTone sb p fs t
  ptlp := rowPtlp p fs
  vol := rowVol v

/-- The word indices of a kind that the non-finite check reads, ascending (41 R246). -/
def checkedIndices : StageKind → List Nat
  | .foHp => [0, 1, 3]
  | .foLp => [0, 1, 3]
  | .bqLp => [0, 1, 2, 3, 4]
  | .bqPeak => [0, 1, 2, 3, 4]
  | .bqNotch => [0, 1, 2, 3, 4]
  | .gainNi => [0, 1]
  | .gainInv => [0, 1]
  | .gainVol => [0, 1]
  | .shaper => [0, 1, 2, 3]

/-- Every checked word, in increasing stage and then word index (41 R245, R246). -/
def checkedWords : List (Stage × Nat) :=
  Stage.all.flatMap (fun st => (checkedIndices st.kind).map (fun i => (st, i)))

/-- The first checked word that is not finite (41 R246). -/
def firstNonfinite (rows : CoefFile) : Option (Stage × Nat) :=
  checkedWords.find? (fun w => !isFinite ((rows.get w.1).get w.2))

/-- `resolve(fs)`: the rows, or the fault of the first non-finite checked word (41 R245). -/
def resolve (sb : Bool) (p : Params) (g t v fs : Word) : Except (Stage × Nat) CoefFile :=
  let rows := resolveRows sb p g t v fs
  match firstNonfinite rows with
  | some f => .error f
  | none => .ok rows

/-- `fsValid(fs)`: finite and above zero (40 R161). -/
def fsValid (fs : Word) : Bool := isFinite fs && lt 0#32 fs

end Sys2Proof.Machine
end

