-- ==== Sys2Proof/Machine/Ops.lean ====
section
/-! DEFINITION. The shared operations: acceptance (40 R151), completion, the only exception entry BBCHAIN has (40 R154,
60 R305), rejected accesses (20 R92, R93, R95) and the resets (70 R340, R341). There is no return operation (60 R315). -/

namespace Sys2Proof.Machine

/-! Completion. -/

/-- FATAL and FAULT_INFO after a completion: NONFINITE_COEF latches FATAL and writes the record of `info`; any other
result changes neither (60 R310, 40 R154). -/
def recordFault (code : ResultCode) (info : Option (Stage × Nat)) (s : State) : State :=
  match code, info with
  | .nonfiniteCoef, some (st, i) =>
    { s with status := { s.status with fatal := true }, faultInfo := faultRecord st i }
  | _, _ => s

/-- `complete(code, info)` (40 R154): RESULT, DONE and ERR; LAST_CMD takes the word of the command in flight; nothing is
in flight any more, so BUSY is 0 and `abortRange` is empty (70 R343); NONFINITE_COEF leaves the fault record
(60 R310). -/
def complete (code : ResultCode) (info : Option (Stage × Nat)) (s : State) : State :=
  let s := recordFault code info s
  { s with
    status := s.status.completed code
    lastCmd := s.pending.getD s.lastCmd
    pending := none
    abortRange := Range.empty }

/-- Step 1 of `execute` (40 R152): with FATAL set every command completes with FAULTED and does nothing else (60 R310). -/
def unlessFatal (s : State) (done : State) : State :=
  if s.status.fatal then complete .faulted none s else done

/-- `execute` for a word that is not legal (40 R152 steps 1 and 2, 30 R125). -/
def executeIllegal (s : State) : State := unlessFatal s (complete .illegalCmd none s)

/-- `resolve(fs)` with the state's parameter registers and normalised controls (41 R245). -/
def State.resolve (s : State) (fs : Word) : Except (Stage × Nat) CoefFile :=
  Machine.resolve s.sineBounded s.params s.normG s.normT s.normV fs

/-! Acceptance. -/

/-- Whether a command word takes the control snapshot when FATAL is 0: it is legal and its OP is PREPARE, PROCESS or
RESOLVE (40 R151). -/
def snapshots (w : Word) : Bool :=
  legalCmd w && (cmdOp w == 1#4 || cmdOp w == 2#4 || cmdOp w == 3#4)

/-- The control snapshot and the normalised controls (10 R50, R51). -/
def takeSnapshot (s : State) : State :=
  { s with
    snapGain := s.gain
    snapTone := s.tone
    snapVolume := s.volume
    snapBypass := s.bypass
    normG := F32.div s.gain F32.TEN
    normT := F32.div s.tone F32.TEN
    normV := F32.div s.volume F32.TEN }

/-- Whether a command word, in a state whose snapshot is taken, is a PROCESS on the transform path: legal, prepared, not
faulted, LEN within ACTIVE_MAXB and not bypassed (70 R343, R360). -/
def transforms (w : Word) (s : State) : Bool :=
  legalCmd w && cmdOp w == 2#4 && !s.status.fatal && s.status.prepared &&
  decide ((cmdLen w).toNat ≤ s.activeMaxb.toNat) && !s.snapBypass

/-- The set `abortRange` is given at acceptance (70 R343). -/
def rangeAt (w : Word) (s : State) : Range :=
  if transforms w s then ⟨s.activeNch.toNat, (cmdLen w).toNat⟩ else Range.empty

/-- Acceptance of a command word (40 R151): it is pending, the snapshot is taken if it is to be, and `abortRange` is
set (70 R343). What SNAP_* and NORM_* held before is kept for the reads while BUSY (20 R95, log 20). The cycle count of
the command starts (log 9). -/
def accept (w : Word) (s : State) : State :=
  let t := if !s.status.fatal && snapshots w then takeSnapshot s else s
  { t with
    pending := some w
    abortRange := rangeAt w t
    snapBefore := s.snapNow
    env := { s.env with elapsed := 0 } }

/-- A host write to CMD: accepted when idle (40 R151), discarded with OVERRUN while BUSY (40 R153). -/
def writeCmd (w : Word) (s : State) : State :=
  if s.busy then { s with status := { s.status with overrun := true } } else accept w s

/-! Host accesses. -/

/-- A read delivers these bytes to the host (20 R90, log 12). -/
def deliver (bytes : List Byte) (s : State) : State := { s with env := { s.env with reply := bytes } }

/-- ACCERR is set (10 R38, 60 R302). -/
def setAccErr (s : State) : State := { s with status := { s.status with accErr := true } }

/-- A rejected access: a write changes nothing, a read delivers zero in every byte, ACCERR is set (20 R92, R93, R95). -/
def rejectAccess (d : Dir) (wd : Width) (s : State) : State :=
  match d with
  | .read => deliver (List.replicate wd.bytes 0#8) (setAccErr s)
  | .write => setAccErr s

/-- A host write that is rejected while BUSY (20 R95), and otherwise leaves `t`. -/
def unlessBusy (s : State) (t : State) : State := if s.busy then setAccErr s else t

/-- A write to a parameter register (40 R185). -/
def writeParam (id : ParamId) (v : Word) (s : State) : State :=
  unlessBusy s { s with params := s.params.set id v }

/-! Resets. -/

/-- Every word of a range made a free value, the `k`-th soft reset's (70 R343, log 8). -/
def scramble (k : Nat) (r : Range) (m : Mem) : Mem :=
  (Chan.all.filter (fun c => decide (c.idx < r.nch))).foldl
    (fun m c => (List.range (min r.len 4096)).foldl
      (fun m n => m.storeWord (bufAddr c n) (Config.abortWord k (bufAddr c n))) m) m

/-- The soft reset (70 R341): the power-on values everywhere but in the buffer, which loses only the words of
`abortRange` (70 R343). The environment goes on. -/
def softReset (s : State) : State :=
  { State.reset with
    mem := scramble s.env.aborts s.abortRange s.mem
    sineBounded := s.sineBounded
    env := { s.env with elapsed := 0, aborts := s.env.aborts + 1 } }

/-- The power-on reset (70 R340): every register at its reset value, every buffer word a new free value (20 R99). -/
def powerOnReset (s : State) : State :=
  { State.reset with
    sineBounded := s.sineBounded
    env := { s.env with elapsed := 0, powerOns := s.env.powerOns + 1 } }

/-! Timing. -/

/-- The bound on the latency of the command in flight, in block clock cycles (70 R360). `abortRange` holds ACTIVE_NCH
and LEN of a PROCESS on the transform path and is empty for every other command (70 R343); a PROCESS whose resolve fails
is an error completion, which has the bound of the other commands. -/
def latencyBound (s : State) : Nat :=
  match s.resolve s.activeFs with
  | .ok _ => Config.lFixed + Config.lSample * (s.abortRange.len * s.abortRange.nch)
  | .error _ => Config.lFixed

/-! Stage operations. -/

/-- A stage hands the sample `y` on to the next (10 R59, log 3). -/
def handOn (y : Word) (s : State) : State := { s with env := { s.env with sample := y } }

/-- A stage operation on channel `c` at stage `st`: its state words and its output are written (40 R173). -/
def runStage (c : Chan) (st : Stage) (r : Word × Pair) (s : State) : State :=
  handOn r.1 (s.setFilter c ((s.filter c).set st r.2))

end Sys2Proof.Machine
end

