-- ==== Sys2Proof/Machine/Commands.lean ====
section
/-! DEFINITION. The command words (40 section 2): what each does at its completion (40 R152). -/

namespace Sys2Proof.Machine

/-- NOP (40 R155). -/
def execNop (s : State) : Host.Outcome State Fault Refusal :=
  .next (unlessFatal s (complete .ok none s))

/-- A PREPARE that fails a configuration check clears PREPARED and completes with the check's code (40 R160). -/
def failPrepare (code : ResultCode) (s : State) : State :=
  complete code none { s with status := { s.status with prepared := false } }

/-- A PREPARE whose resolve gave `rows` (40 R160, R164): the SPEC registers become the ACTIVE ones, the coefficient file is
replaced, every filter-state word is +0.0 and PREPARED is set. -/
def commitPrepare (rows : CoefFile) (s : State) : State :=
  { s with
    activeFs := s.specFs
    activeMaxb := s.specMaxb
    activeNch := s.specNch
    coef := rows
    filter0 := zeroFilter
    filter1 := zeroFilter
    status := { s.status with prepared := true } }

/-- SPEC_MAXB is valid from 1 to 4096 (40 R162). -/
def maxbValid (mb : Word) : Bool := decide (1 ≤ mb.toNat) && decide (mb.toNat ≤ 4096)

/-- SPEC_NCH is valid when it is 1 or 2 (40 R163). -/
def nchValid (nc : Word) : Bool := nc == 1#32 || nc == 2#32

/-- The body of PREPARE (40 R160). -/
def prepare (s : State) : State :=
  if !fsValid s.specFs then failPrepare .badFs s
  else if !maxbValid s.specMaxb then failPrepare .badMaxb s
  else if !nchValid s.specNch then failPrepare .badNch s
  else match s.resolve s.specFs with
    | .error f => complete .nonfiniteCoef (some f) s
    | .ok rows => complete .ok none (commitPrepare rows s)

/-- PREPARE (40 R160). -/
def execPrepare (s : State) : Host.Outcome State Fault Refusal :=
  .next (unlessFatal s (prepare s))

/-- BYPASSED and BLOCK_CNT after a PROCESS that completes with OK or OK_BYPASSED (10 R38, R45). -/
def countBlock (byp : Bool) (s : State) : State :=
  { s with status := { s.status with bypassed := byp }, blockCnt := s.blockCnt + 1#32 }

/-- The transform path of PROCESS (40 R172). -/
def transformBlock (len : BitVec 16) (s : State) : State :=
  match s.resolve s.activeFs with
  | .error f => complete .nonfiniteCoef (some f) s
  | .ok rows =>
    complete .ok none (countBlock false (processBlock rows s.activeNch len { s with coef := rows }))

/-- The body of PROCESS (40 R170): the bypass test comes before the resolve (60 R304). -/
def processBody (len : BitVec 16) (s : State) : State :=
  if !s.status.prepared then complete .notPrepared none s
  else if s.activeMaxb.toNat < len.toNat then complete .badLen none s
  else if s.snapBypass then complete .okBypassed none (countBlock true s)
  else transformBlock len s

/-- PROCESS (40 R170). -/
def execProcess (len : BitVec 16) (s : State) : Host.Outcome State Fault Refusal :=
  .next (unlessFatal s (processBody len s))

/-- The body of RESOLVE (40 R178). -/
def resolveBody (s : State) : State :=
  if !s.status.prepared then complete .notPrepared none s
  else match s.resolve s.activeFs with
    | .error f => complete .nonfiniteCoef (some f) s
    | .ok rows => complete .ok none { s with coef := rows }

/-- RESOLVE (40 R178). -/
def execResolve (s : State) : Host.Outcome State Fault Refusal :=
  .next (unlessFatal s (resolveBody s))

/-- CLEAR_STATE (40 R179). -/
def execClearState (s : State) : Host.Outcome State Fault Refusal :=
  .next (unlessFatal s (complete .ok none { s with filter0 := zeroFilter, filter1 := zeroFilter }))

end Sys2Proof.Machine
end

