-- ==== Sys2Proof/Machine/Controls.lean ====
section
/-! DEFINITION. The control and SPEC writes (40 R180 to R184). -/

namespace Sys2Proof.Machine

/-- SET_GAIN (40 R180). -/
def execSetGain (v : Word) (s : State) : Host.Outcome State Fault Refusal :=
  .next { s with gain := ctlClamp v }

/-- SET_TONE (40 R181). -/
def execSetTone (v : Word) (s : State) : Host.Outcome State Fault Refusal :=
  .next { s with tone := ctlClamp v }

/-- SET_VOLUME (40 R182). -/
def execSetVolume (v : Word) (s : State) : Host.Outcome State Fault Refusal :=
  .next { s with volume := ctlClamp v }

/-- SET_BYPASS (40 R183). -/
def execSetBypass (v : Word) (s : State) : Host.Outcome State Fault Refusal :=
  .next { s with bypass := v.getLsbD 0 }

/-- SET_SPEC_FS (40 R184). -/
def execSetSpecFs (v : Word) (s : State) : Host.Outcome State Fault Refusal :=
  .next (unlessBusy s { s with specFs := v })

/-- SET_SPEC_MAXB (40 R184). -/
def execSetSpecMaxb (v : Word) (s : State) : Host.Outcome State Fault Refusal :=
  .next (unlessBusy s { s with specMaxb := v })

/-- SET_SPEC_NCH (40 R184). -/
def execSetSpecNch (v : Word) (s : State) : Host.Outcome State Fault Refusal :=
  .next (unlessBusy s { s with specNch := v })

end Sys2Proof.Machine
end

