-- ==== Sys2Proof/Machine/SetParams.lean ====
section
/-! DEFINITION. The parameter writes SET_PARAM (40 R185, 10 R54 to R56). -/

namespace Sys2Proof.Machine

/-- SET_PARAM P_HP_FC (40 R185). -/
def execSetParamHpFc (v : Word) (s : State) : Host.Outcome State Fault Refusal :=
  .next (writeParam .hpFc v s)

/-- SET_PARAM P_AA_MARGIN (40 R185). -/
def execSetParamAaMargin (v : Word) (s : State) : Host.Outcome State Fault Refusal :=
  .next (writeParam .aaMargin v s)

/-- SET_PARAM P_AA_Q (40 R185). -/
def execSetParamAaQ (v : Word) (s : State) : Host.Outcome State Fault Refusal :=
  .next (writeParam .aaQ v s)

/-- SET_PARAM P_PK_FA (40 R185). -/
def execSetParamPkFa (v : Word) (s : State) : Host.Outcome State Fault Refusal :=
  .next (writeParam .pkFa v s)

/-- SET_PARAM P_PK_FB (40 R185). -/
def execSetParamPkFb (v : Word) (s : State) : Host.Outcome State Fault Refusal :=
  .next (writeParam .pkFb v s)

/-- SET_PARAM P_PK_FC (40 R185). -/
def execSetParamPkFc (v : Word) (s : State) : Host.Outcome State Fault Refusal :=
  .next (writeParam .pkFc v s)

/-- SET_PARAM P_PK_GA (40 R185). -/
def execSetParamPkGa (v : Word) (s : State) : Host.Outcome State Fault Refusal :=
  .next (writeParam .pkGa v s)

/-- SET_PARAM P_PK_GB (40 R185). -/
def execSetParamPkGb (v : Word) (s : State) : Host.Outcome State Fault Refusal :=
  .next (writeParam .pkGb v s)

/-- SET_PARAM P_PK_GC (40 R185). -/
def execSetParamPkGc (v : Word) (s : State) : Host.Outcome State Fault Refusal :=
  .next (writeParam .pkGc v s)

/-- SET_PARAM P_PK_QA (40 R185). -/
def execSetParamPkQa (v : Word) (s : State) : Host.Outcome State Fault Refusal :=
  .next (writeParam .pkQa v s)

/-- SET_PARAM P_PK_QB (40 R185). -/
def execSetParamPkQb (v : Word) (s : State) : Host.Outcome State Fault Refusal :=
  .next (writeParam .pkQb v s)

/-- SET_PARAM P_NT_FA (40 R185). -/
def execSetParamNtFa (v : Word) (s : State) : Host.Outcome State Fault Refusal :=
  .next (writeParam .ntFa v s)

/-- SET_PARAM P_NT_FB (40 R185). -/
def execSetParamNtFb (v : Word) (s : State) : Host.Outcome State Fault Refusal :=
  .next (writeParam .ntFb v s)

/-- SET_PARAM P_NT_FC (40 R185). -/
def execSetParamNtFc (v : Word) (s : State) : Host.Outcome State Fault Refusal :=
  .next (writeParam .ntFc v s)

/-- SET_PARAM P_NT_QA (40 R185). -/
def execSetParamNtQa (v : Word) (s : State) : Host.Outcome State Fault Refusal :=
  .next (writeParam .ntQa v s)

/-- SET_PARAM P_NT_QB (40 R185). -/
def execSetParamNtQb (v : Word) (s : State) : Host.Outcome State Fault Refusal :=
  .next (writeParam .ntQb v s)

/-- SET_PARAM P_R1 (40 R185). -/
def execSetParamR1 (v : Word) (s : State) : Host.Outcome State Fault Refusal :=
  .next (writeParam .r1 v s)

/-- SET_PARAM P_R2 (40 R185). -/
def execSetParamR2 (v : Word) (s : State) : Host.Outcome State Fault Refusal :=
  .next (writeParam .r2 v s)

/-- SET_PARAM P_RG1 (40 R185). -/
def execSetParamRg1 (v : Word) (s : State) : Host.Outcome State Fault Refusal :=
  .next (writeParam .rg1 v s)

/-- SET_PARAM P_RG0 (40 R185). -/
def execSetParamRg0 (v : Word) (s : State) : Host.Outcome State Fault Refusal :=
  .next (writeParam .rg0 v s)

/-- SET_PARAM P_RF (40 R185). -/
def execSetParamRf (v : Word) (s : State) : Host.Outcome State Fault Refusal :=
  .next (writeParam .rf v s)

/-- SET_PARAM P_RIN (40 R185). -/
def execSetParamRin (v : Word) (s : State) : Host.Outcome State Fault Refusal :=
  .next (writeParam .rin v s)

/-- SET_PARAM P_INV_POL (40 R185): bit 0 only (10 R55). -/
def execSetParamInvPol (v : Word) (s : State) : Host.Outcome State Fault Refusal :=
  .next (writeParam .invPol v s)

/-- SET_PARAM P_SH_MODE (40 R185): a mode 0, 1 or 2, any other value ignored (10 R56). -/
def execSetParamShMode (v : Word) (s : State) : Host.Outcome State Fault Refusal :=
  .next (writeParam .shMode v s)

/-- SET_PARAM P_SH_K0 (40 R185). -/
def execSetParamShK0 (v : Word) (s : State) : Host.Outcome State Fault Refusal :=
  .next (writeParam .shK0 v s)

/-- SET_PARAM P_SH_K1 (40 R185). -/
def execSetParamShK1 (v : Word) (s : State) : Host.Outcome State Fault Refusal :=
  .next (writeParam .shK1 v s)

/-- SET_PARAM P_SH_T (40 R185). -/
def execSetParamShT (v : Word) (s : State) : Host.Outcome State Fault Refusal :=
  .next (writeParam .shT v s)

/-- SET_PARAM P_PC_FC (40 R185). -/
def execSetParamPcFc (v : Word) (s : State) : Host.Outcome State Fault Refusal :=
  .next (writeParam .pcFc v s)

/-- SET_PARAM P_PC_Q (40 R185). -/
def execSetParamPcQ (v : Word) (s : State) : Host.Outcome State Fault Refusal :=
  .next (writeParam .pcQ v s)

/-- SET_PARAM P_TN_FMIN (40 R185). -/
def execSetParamTnFmin (v : Word) (s : State) : Host.Outcome State Fault Refusal :=
  .next (writeParam .tnFmin v s)

/-- SET_PARAM P_TN_FMAX (40 R185). -/
def execSetParamTnFmax (v : Word) (s : State) : Host.Outcome State Fault Refusal :=
  .next (writeParam .tnFmax v s)

/-- SET_PARAM P_TN_Q (40 R185). -/
def execSetParamTnQ (v : Word) (s : State) : Host.Outcome State Fault Refusal :=
  .next (writeParam .tnQ v s)

/-- SET_PARAM P_PT_R (40 R185). -/
def execSetParamPtR (v : Word) (s : State) : Host.Outcome State Fault Refusal :=
  .next (writeParam .ptR v s)

/-- SET_PARAM P_PT_C (40 R185). -/
def execSetParamPtC (v : Word) (s : State) : Host.Outcome State Fault Refusal :=
  .next (writeParam .ptC v s)

end Sys2Proof.Machine
end

