-- ==== Sys2Proof/Machine/Shaper.lean ====
section
/-! DEFINITION. The shaper modes as instructions (44 R287, R288, R289), on the row of stage 6. -/

namespace Sys2Proof.Machine

/-- SHAPER_MODE ATAN_SYM (44 R287). -/
def execShaperModeAtanSym (x : Word) (s : State) : Host.Outcome State Fault Refusal :=
  .next (handOn (shapeAtanSym s.coef.shaper x) s)

/-- SHAPER_MODE ATAN_DOC (44 R288). -/
def execShaperModeAtanDoc (x : Word) (s : State) : Host.Outcome State Fault Refusal :=
  .next (handOn (shapeAtanDoc s.coef.shaper x) s)

/-- SHAPER_MODE CUBIC (44 R289). -/
def execShaperModeCubic (x : Word) (s : State) : Host.Outcome State Fault Refusal :=
  .next (handOn (shapeCubic s.coef.shaper x) s)

end Sys2Proof.Machine
end

