-- ==== Sys2Proof/Machine/Stages.lean ====
section
/-! DEFINITION. The stage operations as instructions (42 R250, R255; 43 R270, R272, R274; 44 R285): one sample `x` of
channel `c` through stage `st`, with the row of the coefficient file and the channel's state words; the output is handed
on (log 3). -/

namespace Sys2Proof.Machine

/-- STAGE FO_HP (42 R255). -/
def execStageFoHp (c : Chan) (st : Stage) (x : Word) (s : State) : Host.Outcome State Fault Refusal :=
  .next (runStage c st (firstOrderStep (s.coef.get st) ((s.filter c).get st) x) s)

/-- STAGE BQ_LP (42 R250). -/
def execStageBqLp (c : Chan) (st : Stage) (x : Word) (s : State) : Host.Outcome State Fault Refusal :=
  .next (runStage c st (biquadStep (s.coef.get st) ((s.filter c).get st) x) s)

/-- STAGE BQ_PEAK (42 R250). -/
def execStageBqPeak (c : Chan) (st : Stage) (x : Word) (s : State) : Host.Outcome State Fault Refusal :=
  .next (runStage c st (biquadStep (s.coef.get st) ((s.filter c).get st) x) s)

/-- STAGE BQ_NOTCH (42 R250). -/
def execStageBqNotch (c : Chan) (st : Stage) (x : Word) (s : State) : Host.Outcome State Fault Refusal :=
  .next (runStage c st (biquadStep (s.coef.get st) ((s.filter c).get st) x) s)

/-- STAGE GAIN_NI (43 R270): no state word changes. -/
def execStageGainNi (_c : Chan) (st : Stage) (x : Word) (s : State) : Host.Outcome State Fault Refusal :=
  .next (handOn (gainStep (s.coef.get st) x) s)

/-- STAGE GAIN_INV (43 R272): no state word changes. -/
def execStageGainInv (_c : Chan) (st : Stage) (x : Word) (s : State) : Host.Outcome State Fault Refusal :=
  .next (handOn (gainStep (s.coef.get st) x) s)

/-- STAGE SHAPER (44 R285): the mode is word 4 of the row; no state word changes. -/
def execStageShaper (_c : Chan) (st : Stage) (x : Word) (s : State) : Host.Outcome State Fault Refusal :=
  .next (handOn (shape (s.coef.get st) x) s)

/-- STAGE FO_LP (42 R255). -/
def execStageFoLp (c : Chan) (st : Stage) (x : Word) (s : State) : Host.Outcome State Fault Refusal :=
  .next (runStage c st (firstOrderStep (s.coef.get st) ((s.filter c).get st) x) s)

/-- STAGE GAIN_VOL (43 R274): no state word changes. -/
def execStageGainVol (_c : Chan) (st : Stage) (x : Word) (s : State) : Host.Outcome State Fault Refusal :=
  .next (handOn (gainStep (s.coef.get st) x) s)

end Sys2Proof.Machine
end

