-- ==== Sys2Proof/Machine/Window.lean ====
section
/-! DEFINITION. WRITE_CTRL, CLEAR_STATUS, WRITE_BUF and READ (40 R186 to R189). -/

namespace Sys2Proof.Machine

/-- WRITE_CTRL (40 R186): bit 0 performs the soft reset, whatever bit 1 holds; otherwise bit 1 is IRQ_EN (10 R37). -/
def execWriteCtrl (v : Word) (s : State) : Host.Outcome State Fault Refusal :=
  .next (if v.getLsbD 0 then softReset s else { s with irqEn := v.getLsbD 1 })

/-- CLEAR_STATUS (40 R187). -/
def execClearStatus (v : Word) (s : State) : Host.Outcome State Fault Refusal :=
  .next { s with status := s.status.clear v }

/-- WRITE_BUF (40 R188). -/
def execWriteBuf (c : Chan) (n : BitVec 12) (v : Word) (s : State) : Host.Outcome State Fault Refusal :=
  .next (unlessBusy s (s.setBuf c n.toNat v))

/-- READ (40 R189): a buffer read while BUSY is rejected (20 R95), and so is an offset that is not a multiple of 4
(20 R93). -/
def execRead (off : Offset) (s : State) : Host.Outcome State Fault Refusal :=
  .next (if !aligned off || (inBuffer off && s.busy) then rejectAccess .read .w32 s
    else deliver (bytesOf (s.readReg (regAt off))) s)

end Sys2Proof.Machine
end

