-- ==== Sys2Proof/Machine/Dispatch.lean ====
section
/-! DEFINITION. The dispatch of an instruction to its meaning, one arm for each constructor. -/

namespace Sys2Proof.Machine

def exec (i : Instr) (s : State) : Host.Outcome State Fault Refusal :=
  match i with
  | .nop => Sys2Proof.Machine.execNop s
  | .prepare => Sys2Proof.Machine.execPrepare s
  | .process len => Sys2Proof.Machine.execProcess len s
  | .resolve => Sys2Proof.Machine.execResolve s
  | .clearState => Sys2Proof.Machine.execClearState s
  | .setGain v => Sys2Proof.Machine.execSetGain v s
  | .setTone v => Sys2Proof.Machine.execSetTone v s
  | .setVolume v => Sys2Proof.Machine.execSetVolume v s
  | .setBypass v => Sys2Proof.Machine.execSetBypass v s
  | .setSpecFs v => Sys2Proof.Machine.execSetSpecFs v s
  | .setSpecMaxb v => Sys2Proof.Machine.execSetSpecMaxb v s
  | .setSpecNch v => Sys2Proof.Machine.execSetSpecNch v s
  | .writeCtrl v => Sys2Proof.Machine.execWriteCtrl v s
  | .clearStatus v => Sys2Proof.Machine.execClearStatus v s
  | .setParamHpFc v => Sys2Proof.Machine.execSetParamHpFc v s
  | .setParamAaMargin v => Sys2Proof.Machine.execSetParamAaMargin v s
  | .setParamAaQ v => Sys2Proof.Machine.execSetParamAaQ v s
  | .setParamPkFa v => Sys2Proof.Machine.execSetParamPkFa v s
  | .setParamPkFb v => Sys2Proof.Machine.execSetParamPkFb v s
  | .setParamPkFc v => Sys2Proof.Machine.execSetParamPkFc v s
  | .setParamPkGa v => Sys2Proof.Machine.execSetParamPkGa v s
  | .setParamPkGb v => Sys2Proof.Machine.execSetParamPkGb v s
  | .setParamPkGc v => Sys2Proof.Machine.execSetParamPkGc v s
  | .setParamPkQa v => Sys2Proof.Machine.execSetParamPkQa v s
  | .setParamPkQb v => Sys2Proof.Machine.execSetParamPkQb v s
  | .setParamNtFa v => Sys2Proof.Machine.execSetParamNtFa v s
  | .setParamNtFb v => Sys2Proof.Machine.execSetParamNtFb v s
  | .setParamNtFc v => Sys2Proof.Machine.execSetParamNtFc v s
  | .setParamNtQa v => Sys2Proof.Machine.execSetParamNtQa v s
  | .setParamNtQb v => Sys2Proof.Machine.execSetParamNtQb v s
  | .setParamR1 v => Sys2Proof.Machine.execSetParamR1 v s
  | .setParamR2 v => Sys2Proof.Machine.execSetParamR2 v s
  | .setParamRg1 v => Sys2Proof.Machine.execSetParamRg1 v s
  | .setParamRg0 v => Sys2Proof.Machine.execSetParamRg0 v s
  | .setParamRf v => Sys2Proof.Machine.execSetParamRf v s
  | .setParamRin v => Sys2Proof.Machine.execSetParamRin v s
  | .setParamInvPol v => Sys2Proof.Machine.execSetParamInvPol v s
  | .setParamShMode v => Sys2Proof.Machine.execSetParamShMode v s
  | .setParamShK0 v => Sys2Proof.Machine.execSetParamShK0 v s
  | .setParamShK1 v => Sys2Proof.Machine.execSetParamShK1 v s
  | .setParamShT v => Sys2Proof.Machine.execSetParamShT v s
  | .setParamPcFc v => Sys2Proof.Machine.execSetParamPcFc v s
  | .setParamPcQ v => Sys2Proof.Machine.execSetParamPcQ v s
  | .setParamTnFmin v => Sys2Proof.Machine.execSetParamTnFmin v s
  | .setParamTnFmax v => Sys2Proof.Machine.execSetParamTnFmax v s
  | .setParamTnQ v => Sys2Proof.Machine.execSetParamTnQ v s
  | .setParamPtR v => Sys2Proof.Machine.execSetParamPtR v s
  | .setParamPtC v => Sys2Proof.Machine.execSetParamPtC v s
  | .writeBuf c n v => Sys2Proof.Machine.execWriteBuf c n v s
  | .read off => Sys2Proof.Machine.execRead off s
  | .stageFoHp c st x => Sys2Proof.Machine.execStageFoHp c st x s
  | .stageBqLp c st x => Sys2Proof.Machine.execStageBqLp c st x s
  | .stageBqPeak c st x => Sys2Proof.Machine.execStageBqPeak c st x s
  | .stageBqNotch c st x => Sys2Proof.Machine.execStageBqNotch c st x s
  | .stageGainNi c st x => Sys2Proof.Machine.execStageGainNi c st x s
  | .stageGainInv c st x => Sys2Proof.Machine.execStageGainInv c st x s
  | .stageShaper c st x => Sys2Proof.Machine.execStageShaper c st x s
  | .stageFoLp c st x => Sys2Proof.Machine.execStageFoLp c st x s
  | .stageGainVol c st x => Sys2Proof.Machine.execStageGainVol c st x s
  | .shaperModeAtanSym x => Sys2Proof.Machine.execShaperModeAtanSym x s
  | .shaperModeAtanDoc x => Sys2Proof.Machine.execShaperModeAtanDoc x s
  | .shaperModeCubic x => Sys2Proof.Machine.execShaperModeCubic x s

end Sys2Proof.Machine
end

