-- ==== Sys2Proof/Machine/Fetch.lean ====
section
/-! DEFINITION. What a step does next (20 R103): an instruction to run, or a change that is no instruction's. BBCHAIN has
no program counter (10 R31); a command is fetched from `pending` (40 R152), a host operation from the next event, a stage
operation from a stage call (log 1, 2, 3). -/

namespace Sys2Proof.Machine

/-- The next step's work. -/
inductive Work where
  /-- Run the instruction in the state. -/
  | run (i : Instr) (s : State)
  /-- No instruction: the step leaves this state. -/
  | settle (s : State)
  /-- The step stops. -/
  | stop (f : Fault)
deriving DecidableEq, Repr

/-- The completion step (40 R152): the command in flight is decoded and run; a word that is not legal completes with
ILLEGAL_CMD, or FAULTED (60 R304). An idle block has nothing to complete (60 R335). -/
def completion (s : State) : Work :=
  match s.pending with
  | none => .settle s
  | some w =>
    match decode (.command w) with
    | .ok i => .run i s
    | .error _ => .settle (executeIllegal s)

/-- A host access to the window (20 R91 to R95, 30 R127): another width or a misaligned offset is rejected; a write to CMD
is a command; a write to a read-only register or a reserved offset is ignored. -/
def access (off : Offset) (a : Access) (s : State) : Work :=
  if a.width ≠ .w32 || !aligned off then .settle (rejectAccess a.dir a.width s)
  else match a.dir with
    | .read =>
      match decode (.hostRead off) with
      | .ok i => .run i s
      | .error _ => .settle s
    | .write =>
      match decode (.hostWrite off a.value) with
      | .ok i => .run i s
      | .error (.commandRegister w) => .settle (writeCmd w s)
      | .error _ => .settle s

/-- The window offset of a physical address, if it lies in `BASE` to `BASE + 0xFFFF` (20 R94). -/
def windowOffset (addr : Nat) : Option Offset :=
  if Config.base ≤ addr ∧ addr < Config.base + 0x10000 then some (BitVec.ofNat 16 (addr - Config.base))
  else none

/-- A block clock cycle (70 R360, log 9): it counts while a command is in flight, which completes at the latest when the
bound is reached. The spec gives L_FIXED no lower limit: with a bound of 0 the command completes at the latest in the
first cycle after its acceptance, as with a bound of 1 (DESIGN CHOICE, safe, log 9). -/
def clockCycle (s : State) : Work :=
  if s.busy then
    let s' := { s with env := { s.env with elapsed := s.env.elapsed + 1 } }
    if latencyBound s ≤ s.env.elapsed + 1 then completion s' else .settle s'
  else .settle s

/-- What an event does. An access outside the window does not reach the block (20 R94, log 10). -/
def onEvent (e : Event) (s : State) : Work :=
  match e with
  | .window off a => access off a s
  | .physical addr a =>
    match windowOffset addr with
    | some off => access off a s
    | none => .settle s
  | .complete => completion s
  | .clock => clockCycle s
  | .powerOn => .settle (powerOnReset s)

/-- The encoding a stage call stands for. -/
def StageCall.toCode : StageCall → Code
  | .kind code c st x => .stageKind code c st x
  | .mode code x => .shaperMode code x

/-- The work of the next step: a stage call first, then the next event, and with no event left the command in flight
completes (70 R361). -/
def fetch (s : State) : Work :=
  match s.env.stageCall with
  | some call =>
    match decode call.toCode with
    | .ok i => .run i { s with env := { s.env with stageCall := none } }
    | .error e => .stop (.noSuchStageCode e)
  | none =>
    match s.env.inbox with
    | [] => completion s
    | e :: rest => onEvent e { s with env := { s.env with inbox := rest } }

/-- The state in which the next step runs the instruction an encoding names (log 1, 2, 3, 4): a host operation is the
next event; a command word is accepted and its completion is the next event; a stage or mode code is the stage call. -/
def place (code : Code) (s : State) : State :=
  match code with
  | .command w =>
    let s := accept w s
    { s with env := { s.env with stageCall := none, inbox := .complete :: s.env.inbox } }
  | .hostWrite off v =>
    { s with env := { s.env with stageCall := none, inbox := .window off ⟨.write, .w32, v⟩ :: s.env.inbox } }
  | .hostRead off =>
    { s with env := { s.env with stageCall := none, inbox := .window off ⟨.read, .w32, 0⟩ :: s.env.inbox } }
  | .stageKind code c st x => { s with env := { s.env with stageCall := some (.kind code c st x) } }
  | .shaperMode code x => { s with env := { s.env with stageCall := some (.mode code x) } }

/-- `place` for an opcode-table row's bits (log 4). -/
def placeRow (s : State) (nbits w : Nat) : State :=
  match codeOfRow (rowBytes (nbits / 8) w) with
  | .ok code => place code s
  | .error _ => s

end Sys2Proof.Machine
end

