-- ==== Sys2Proof/Machine/Step.lean ====
section
/-! DEFINITION. One step of the machine (20 R103). -/

namespace Sys2Proof.Machine

/-- One step: fetch the next work and run its instruction, if it has one. -/
def step (s : State) : Host.Outcome State Fault Refusal :=
  match fetch s with
  | .run i s' => exec i s'
  | .settle s' => .next s'
  | .stop f => .fault f

/-- `s` with the instruction of an opcode-table row placed so that the very next step runs it (log 4). -/
def State.withFetchWord (s : State) (nbits w : Nat) : State := placeRow s nbits w

end Sys2Proof.Machine
end

