-- ==== Sys2Proof/Machine/Script.lean ====
section
/-! DEFINITION. Host scripts (30 R140, R141): the operations of spec/95's programs as the events they perform. `wait_idle`
is the host's own loop; here it is the completion followed by the STATUS read that finds BUSY = 0 (log 1). -/

namespace Sys2Proof.Machine.Script

/-- `wr OFFSET, VALUE` (30 R140). -/
def wr (off : Offset) (v : Word) : List Event := [.window off ⟨.write, .w32, v⟩]

/-- `rd OFFSET` (30 R140). -/
def rd (off : Offset) : List Event := [.window off ⟨.read, .w32, 0⟩]

/-- `cmd` (30 R140): the command word of an instruction written to CMD; nothing for an instruction that is no command. -/
def cmd (i : Instr) : List Event :=
  match encode i with
  | .command w => wr 0x010 w
  | .hostWrite _ _ => []
  | .hostRead _ => []
  | .stageKind _ _ _ _ => []
  | .shaperMode _ _ => []

/-- `wait_idle` (30 R141). -/
def waitIdle : List Event := [.complete] ++ rd 0x00C

/-- `setctl Gain, V` (30 R141). -/
def setGain (v : Word) : List Event := wr 0x040 v

/-- `setctl Tone, V` (30 R141). -/
def setTone (v : Word) : List Event := wr 0x044 v

/-- `setctl Volume, V` (30 R141). -/
def setVolume (v : Word) : List Event := wr 0x048 v

/-- `setbypass B` (30 R141). -/
def setBypass (b : Bool) : List Event := wr 0x04C (boolWord b)

/-- `clear_status` (30 R141). -/
def clearStatus : List Event := wr 0x00C 0x00000078

/-- `prepare FS, MAXB, NCH` (30 R141). -/
def prepare (fs maxb nch : Word) : List Event :=
  wr 0x020 fs ++ wr 0x024 maxb ++ wr 0x028 nch ++ cmd .prepare ++ waitIdle

/-- `process LEN` (30 R141). -/
def process (len : BitVec 16) : List Event := cmd (.process len) ++ waitIdle

/-- `soft_reset` (30 R141). -/
def softReset : List Event := wr 0x008 0x00000001

/-- `buf C, N, V` (30 R141). -/
def buf (c : Chan) (n : BitVec 12) (v : Word) : List Event := wr (BitVec.ofNat 16 (bufAddr c n.toNat)) v

/-- The four writes that restore a persisted control state (10 R52). -/
def restore (g t v b : Word) : List Event := wr 0x040 g ++ wr 0x044 t ++ wr 0x048 v ++ wr 0x04C b

end Sys2Proof.Machine.Script
end

