-- ==== Sys2Proof/Safety.lean ====
section
/-! DEFINITION. What holds of every state a run reaches, and runs of several steps. -/

namespace Sys2Proof.Machine

/-- A value GAIN, TONE and VOLUME may hold: 0.0 to 10.0, or -0.0 (10 R47, R48). -/
def legalControl (w : Word) : Bool := F32.le 0#32 w && F32.le w F32.TEN

/-- The coefficient words that are always +0.0 (10 R61 word 7 of BQ_LP and BQ_NOTCH, R62, R63, R64). -/
def fixedIndices : StageKind → List Nat
  | .foHp => [2, 4, 6, 7]
  | .foLp => [2, 4, 6, 7]
  | .bqLp => [7]
  | .bqNotch => [7]
  | .bqPeak => []
  | .gainNi => [2, 3, 4, 5, 6, 7]
  | .gainInv => [2, 3, 4, 5, 6, 7]
  | .gainVol => [2, 3, 4, 5, 6, 7]
  | .shaper => [5, 6, 7]

/-- Every coefficient word that is always +0.0. -/
def fixedWords : List (Stage × Nat) :=
  Stage.all.flatMap (fun st => (fixedIndices st.kind).map (fun i => (st, i)))

/-- The state words of a stage that its kind leaves at +0.0: both for a gain or shaper stage, the second for a
first-order stage (10 R67). -/
def idleWordsZero (k : StageKind) (p : Pair) : Bool :=
  match k with
  | .foHp => p.s2 == 0#32
  | .foLp => p.s2 == 0#32
  | .bqLp => true
  | .bqPeak => true
  | .bqNotch => true
  | .gainNi => p == Pair.zero
  | .gainInv => p == Pair.zero
  | .gainVol => p == Pair.zero
  | .shaper => p == Pair.zero

/-- The set `abortRange` must be: the one its command was given at acceptance, or none (70 R343). -/
def State.rangeInFlight (s : State) : Range :=
  match s.pending with
  | none => Range.empty
  | some w => rangeAt w s

/-- What every reachable state satisfies. -/
structure State.Inv (s : State) : Prop where
  /-- The buffer's cells are in canonical form and inside the buffer (20 R97). -/
  memory : s.mem.wf = true
  /-- The controls lie in their declared range (10 R47). -/
  controls : legalControl s.gain ∧ legalControl s.tone ∧ legalControl s.volume
  /-- So do the snapshot's (10 R50). -/
  snapshot : legalControl s.snapGain ∧ legalControl s.snapTone ∧ legalControl s.snapVolume
  /-- The normalised controls are the snapshot's divided by ten (10 R51). -/
  normalised : s.normG = F32.div s.snapGain F32.TEN ∧ s.normT = F32.div s.snapTone F32.TEN ∧
    s.normV = F32.div s.snapVolume F32.TEN
  /-- A prepared block has a valid sample rate, block size and channel count (40 R161 to R164). -/
  active : s.status.prepared = true →
    fsValid s.activeFs ∧ maxbValid s.activeMaxb ∧ nchValid s.activeNch
  /-- FATAL is set exactly when FAULT_INFO is VALID (10 R41, 60 R310). -/
  latched : s.status.fatal = s.faultInfo.msb
  /-- FAULT_INFO is 0 or names a checked coefficient word (10 R41, 41 R246). -/
  record : s.faultInfo = 0#32 ∨ ∃ w ∈ checkedWords, s.faultInfo = faultRecord w.1 w.2
  /-- No checked coefficient word is ever non-finite (41 R247). -/
  finite : ∀ w ∈ checkedWords, F32.isFinite ((s.coef.get w.1).get w.2) = true
  /-- The mode word of the shaper row is 0, 1 or 2 (10 R64, 44 R285). -/
  mode : (ShaperMode.ofCode? s.coef.shaper.w4).isSome = true
  /-- The unused coefficient words are +0.0 (10 R61 to R64). -/
  unusedCoef : ∀ w ∈ fixedWords, (s.coef.get w.1).get w.2 = 0#32
  /-- The unused state words are +0.0 (10 R67). -/
  unusedState : ∀ c : Chan, ∀ st : Stage, idleWordsZero st.kind ((s.filter c).get st) = true
  /-- `abortRange` is what the command in flight may write, and empty when none is (70 R343). -/
  range : s.abortRange = s.rangeInFlight

/-- `k` steps, stopping at the first that does not answer a next state. -/
def runSteps (k : Nat) (s : State) : Host.Outcome State Fault Refusal := Host.Core.run core k s

/-- `s` with these events to come and no stage call. -/
def State.given (s : State) (es : List Event) : State := { s with env := { s.env with inbox := es, stageCall := none } }

/-- `s` with its next event taken. -/
def State.after (s : State) (rest : List Event) : State := { s with env := { s.env with inbox := rest } }

/-- Sin32 is at most 1.0 where P_SIN_POS speaks. 00 R12 does not name it; the bound on `alpha` in 41 R208 needs it (log
6). -/
def SineAtMostOne (sb : Bool) : Prop :=
  ∀ w : Word, F32.lt 0#32 w = true → F32.le w F32.W_MAX = true → F32.le (F32.sin32 sb w) F32.ONE = true

/-! The spec's own tables, written out apart from the machine, for the statements. -/

/-- The reset values of the parameter registers in the order of their offsets (10 R53). -/
def paramResets : List Word :=
  [0x41A00000, 0x44FA0000, 0x3F3504F3, 0x43480000, 0x43960000, 0x43FA0000,
   0x00000000, 0x3F800000, 0x3F800000, 0x3F000000, 0x3F400000, 0x00000000,
   0x44FA0000, 0x453B8000, 0x3F800000, 0x3F800000, 0x461C4000, 0x461C4000,
   0x47AFC800, 0x00000000, 0x461C4000, 0x461C4000, 0x00000000, 0x00000000,
   0x3F800000, 0x00000000, 0x3F000000, 0x45FA0000, 0x3F3504F3, 0x44480000,
   0x45FA0000, 0x3F3504F3, 0x461C4000, 0x322BCC77]

/-- STAGE_KIND[0] to STAGE_KIND[10] (10 R59). -/
def stageKinds : List Word := [1, 2, 3, 4, 5, 6, 7, 2, 2, 8, 9]

/-- What a register offset reads after reset (10 section 2.1, 70 R340); every offset not listed reads 0. -/
def resetWord (off : Nat) : Word :=
  if off = 0x000 then 0x42424348
  else if off = 0x004 then 0x00010007
  else if off = 0x038 then 0x00B21000
  else if off = 0x040 ∨ off = 0x044 ∨ off = 0x048 then 0x40A00000
  else if 0x100 ≤ off ∧ off ≤ 0x184 then paramResets.getD ((off - 0x100) / 4) 0
  else if 0x400 ≤ off ∧ off ≤ 0x428 then stageKinds.getD ((off - 0x400) / 4) 0
  else 0

/-- The constant registers: ID, VERSION, CAPS and STAGE_KIND[s] (10 R34, R35, R36, R58). -/
def constantRegisters : List (Offset × Word) :=
  [(0x000, 0x42424348), (0x004, 0x00010007), (0x038, 0x00B21000),
   (0x400, 1), (0x404, 2), (0x408, 3), (0x40C, 4), (0x410, 5), (0x414, 6), (0x418, 7), (0x41C, 2), (0x420, 2),
   (0x424, 8), (0x428, 9)]

/-- The reserved offsets of the register window (10 R33, R53, R58, R60, R66). -/
def reservedOffset (a : Nat) : Bool :=
  a == 0x03C || (decide (0x06C ≤ a) && decide (a ≤ 0x0FC)) || (decide (0x188 ≤ a) && decide (a ≤ 0x3FC)) ||
  (decide (0x42C ≤ a) && decide (a ≤ 0x7FC)) || (decide (0x960 ≤ a) && decide (a ≤ 0xBFC)) ||
  (decide (0xC58 ≤ a) && decide (a ≤ 0xCFC)) || (decide (0xD58 ≤ a) && decide (a ≤ 0x7FFC))

/-- The read-only registers (10 section 2.1: RO and const). -/
def readOnlyOffset (a : Nat) : Bool :=
  a == 0x000 || a == 0x004 || (decide (0x014 ≤ a) && decide (a ≤ 0x01C)) || (decide (0x02C ≤ a) && decide (a ≤ 0x038)) ||
  (decide (0x050 ≤ a) && decide (a ≤ 0x068)) || (decide (0x400 ≤ a) && decide (a ≤ 0x428)) ||
  (decide (0x800 ≤ a) && decide (a ≤ 0x95C)) || (decide (0xC00 ≤ a) && decide (a ≤ 0xC54)) ||
  (decide (0xD00 ≤ a) && decide (a ≤ 0xD54))

/-- The SPEC and P_* registers, whose writes are rejected while BUSY (20 R95). -/
def specOrParamOffset (a : Nat) : Bool :=
  a == 0x020 || a == 0x024 || a == 0x028 || (decide (0x100 ≤ a) && decide (a ≤ 0x184))

/-- The offsets of SNAP_*, NORM_*, COEF and STATE (10 section 2.1). -/
def readbackOffset (a : Nat) : Bool :=
  (decide (0x050 ≤ a) && decide (a < 0x06C)) || (decide (0x800 ≤ a) && decide (a < 0x8000))

/-- The entries of the stages in increasing index, HPF to VOL (10 R59). -/
def inStageOrder {α : Type} (x : PerStage α) : List α :=
  [x.hpf, x.aaf, x.peak, x.notch, x.gainNi, x.gainInv, x.shaper, x.pclp, x.tone, x.ptlp, x.vol]

/-- The words of a coefficient row in increasing index (10 R60). -/
def rowWords (r : Row) : List Word := [r.w0, r.w1, r.w2, r.w3, r.w4, r.w5, r.w6, r.w7]

/-- The word of a shaper mode (30 R135). -/
def modeWord : ShaperMode → Word
  | .atanSym => 0
  | .atanDoc => 1
  | .cubic => 2

/-- What the offsets of the parameter registers read (10 R53). -/
def paramMap (p : Params) : List (Offset × Word) :=
  [(0x100, p.hpFc), (0x104, p.aaMargin), (0x108, p.aaQ), (0x10C, p.pkFa), (0x110, p.pkFb), (0x114, p.pkFc),
   (0x118, p.pkGa), (0x11C, p.pkGb), (0x120, p.pkGc), (0x124, p.pkQa), (0x128, p.pkQb), (0x12C, p.ntFa),
   (0x130, p.ntFb), (0x134, p.ntFc), (0x138, p.ntQa), (0x13C, p.ntQb), (0x140, p.r1), (0x144, p.r2), (0x148, p.rg1),
   (0x14C, p.rg0), (0x150, p.rf), (0x154, p.rin), (0x158, boolWord p.invPol), (0x15C, modeWord p.shMode),
   (0x160, p.shK0), (0x164, p.shK1), (0x168, p.shT), (0x16C, p.pcFc), (0x170, p.pcQ), (0x174, p.tnFmin),
   (0x178, p.tnFmax), (0x17C, p.tnQ), (0x180, p.ptR), (0x184, p.ptC)]

/-- What the offsets below 0x100 read, the constants and CMD among them (10 section 2.1); SNAP_* and NORM_* while BUSY read
what they held before the command in flight (20 R95, log 20). -/
def registerMap (s : State) : List (Offset × Word) :=
  let now := s.pending.isNone
  [(0x000, 0x42424348), (0x004, 0x00010007), (0x008, if s.irqEn then 2 else 0), (0x00C, s.statusWord), (0x010, 0),
   (0x014, s.lastCmd), (0x018, s.faultInfo), (0x01C, s.blockCnt), (0x020, s.specFs), (0x024, s.specMaxb),
   (0x028, s.specNch), (0x02C, s.activeFs), (0x030, s.activeMaxb), (0x034, s.activeNch), (0x038, 0x00B21000),
   (0x040, s.gain), (0x044, s.tone), (0x048, s.volume), (0x04C, boolWord s.bypass),
   (0x050, if now then s.snapGain else s.snapBefore.gain), (0x054, if now then s.snapTone else s.snapBefore.tone),
   (0x058, if now then s.snapVolume else s.snapBefore.volume),
   (0x05C, boolWord (if now then s.snapBypass else s.snapBefore.bypass)),
   (0x060, if now then s.normG else s.snapBefore.normG), (0x064, if now then s.normT else s.snapBefore.normT),
   (0x068, if now then s.normV else s.snapBefore.normV)]

/-- The result codes (60 R300). -/
def resultCodes : List (ResultCode × Byte) :=
  [(.ok, 0x00), (.okBypassed, 0x01), (.illegalCmd, 0x10), (.notPrepared, 0x11), (.badFs, 0x12), (.badMaxb, 0x13),
   (.badNch, 0x14), (.badLen, 0x15), (.nonfiniteCoef, 0x20), (.faulted, 0x21)]

/-- The operation a host write of `v` is, by offset, but for the sample buffer (30 R127, 10 R53). -/
def hostWrites (v : Word) : List (Offset × Instr) :=
  [(0x008, .writeCtrl v), (0x00C, .clearStatus v), (0x020, .setSpecFs v), (0x024, .setSpecMaxb v), (0x028, .setSpecNch v),
   (0x040, .setGain v), (0x044, .setTone v), (0x048, .setVolume v), (0x04C, .setBypass v),
   (0x100, .setParamHpFc v), (0x104, .setParamAaMargin v), (0x108, .setParamAaQ v), (0x10C, .setParamPkFa v),
   (0x110, .setParamPkFb v), (0x114, .setParamPkFc v), (0x118, .setParamPkGa v), (0x11C, .setParamPkGb v),
   (0x120, .setParamPkGc v), (0x124, .setParamPkQa v), (0x128, .setParamPkQb v), (0x12C, .setParamNtFa v),
   (0x130, .setParamNtFb v), (0x134, .setParamNtFc v), (0x138, .setParamNtQa v), (0x13C, .setParamNtQb v),
   (0x140, .setParamR1 v), (0x144, .setParamR2 v), (0x148, .setParamRg1 v), (0x14C, .setParamRg0 v),
   (0x150, .setParamRf v), (0x154, .setParamRin v), (0x158, .setParamInvPol v), (0x15C, .setParamShMode v),
   (0x160, .setParamShK0 v), (0x164, .setParamShK1 v), (0x168, .setParamShT v), (0x16C, .setParamPcFc v),
   (0x170, .setParamPcQ v), (0x174, .setParamTnFmin v), (0x178, .setParamTnFmax v), (0x17C, .setParamTnQ v),
   (0x180, .setParamPtR v), (0x184, .setParamPtC v)]

/-- The code a command word completes with, in the order of 60 R304. -/
def resultOf (w : Word) (s : State) : ResultCode :=
  if s.status.fatal then .faulted
  else if !legalCmd w then .illegalCmd
  else if cmdOp w = 1#4 then
    if !fsValid s.specFs then .badFs
    else if !(decide (1 ≤ s.specMaxb.toNat) && decide (s.specMaxb.toNat ≤ 4096)) then .badMaxb
    else if !(s.specNch == 1#32 || s.specNch == 2#32) then .badNch
    else match s.resolve s.specFs with
      | .error _ => .nonfiniteCoef
      | .ok _ => .ok
  else if cmdOp w = 2#4 then
    if !s.status.prepared then .notPrepared
    else if s.activeMaxb.toNat < (cmdLen w).toNat then .badLen
    else if s.snapBypass then .okBypassed
    else match s.resolve s.activeFs with
      | .error _ => .nonfiniteCoef
      | .ok _ => .ok
  else if cmdOp w = 3#4 then
    if !s.status.prepared then .notPrepared
    else match s.resolve s.activeFs with
      | .error _ => .nonfiniteCoef
      | .ok _ => .ok
  else .ok

/-- Whether an access at a window offset is a soft reset: an aligned 32-bit write to CTRL with bit 0 set (70 R341). -/
def softResets (off : Offset) (a : Access) : Bool :=
  off == 0x008 && a.dir == .write && a.width == .w32 && a.value.getLsbD 0

/-- Whether the next step is a reset: a power-on reset, or a soft reset through either address. -/
def State.resetsNext (s : State) : Bool :=
  match s.env.stageCall, s.env.inbox with
  | none, .powerOn :: _ => true
  | none, .window off a :: _ => softResets off a
  | none, .physical addr a :: _ =>
    match windowOffset addr with
    | some off => softResets off a
    | none => false
  | _, _ => false

/-- The samples of the first `len` words of a channel (20 R97). -/
def State.block (s : State) (c : Chan) (len : Nat) : List Word := (List.range len).map (s.bufWord c)

/-- Whether a byte of the window lies in a word `Buf[c][n]` with `c < nch` and `n < len` (20 R98). -/
def inRange (nch len a : Nat) : Prop := ∃ c : Chan, ∃ n, c.idx < nch ∧ n < len ∧ bufAddr c n ≤ a ∧ a ≤ bufAddr c n + 3

end Sys2Proof.Machine
end

