-- ==== Sys2Proof/Certificates/Slice0/Obligations.lean ====
section
/-! DEFINITION. The statements for the provers. `s.given es` is `s` with the events `es` to come and no stage call; a
host access, a completion, a clock cycle and a power-on reset are each one event (log 1). -/

section

open Sys2Proof Sys2Proof.Machine

/-! Resets and the register map. -/

/-- 70 R340: a power-on reset, in one step and from any state, leaves every register offset at its reset value, nothing
pending, an empty `abortRange`, `irq` deasserted, and every byte of the buffer a value of its own that nothing fixes (the
model's form of the unspecified word, log 7). The state after reset reads the same values. -/
def Obligations.PowerOnResetLeavesResetValues : Prop :=
  (∀ (s : State) (rest : List Event), ∃ t, step (s.given (.powerOn :: rest)) = .next t ∧
    (∀ off : Offset, off.toNat < 0x8000 → aligned off = true → t.readReg (regAt off) = resetWord off.toNat) ∧
    t.pending = none ∧ t.abortRange = Range.empty ∧ t.irq = false ∧
    (∀ a, t.bufByte a = Config.powerOnByte (s.env.powerOns + 1) a) ∧ t.env.inbox = rest) ∧
  (∀ off : Offset, off.toNat < 0x8000 → aligned off = true →
    State.reset.readReg (regAt off) = resetWord off.toNat) ∧
  State.reset.pending = none ∧ State.reset.abortRange = Range.empty ∧ State.reset.irq = false ∧
  ∀ a, State.reset.bufByte a = Config.powerOnByte 0 a

/-- 70 R341, R342: WRITE_CTRL with bit 0 set resets every register, the parameter registers among them, abandons the
command in flight, and keeps every buffer word but those of `abortRange`, each of which becomes a value of its own (the
model's form of the unspecified word, log 8). -/
def Obligations.SoftResetKeepsTheBuffer : Prop :=
  ∀ (s : State) (v : Word), v.getLsbD 0 = true → ∃ t, exec (.writeCtrl v) s = .next t ∧
    (∀ off : Offset, off.toNat < 0x8000 → aligned off = true → t.readReg (regAt off) = resetWord off.toNat) ∧
    t.pending = none ∧ t.abortRange = Range.empty ∧ t.irq = false ∧
    (∀ (c : Chan) (n : Nat), n < 4096 →
      t.bufWord c n = if c.idx < s.abortRange.nch ∧ n < s.abortRange.len
        then Config.abortWord s.env.aborts (bufAddr c n) else s.bufWord c n)

/-- 10 R34, R35, R36: the constant registers ID, VERSION and CAPS, and the eleven STAGE_KIND words, read their constants and
ignore writes. -/
def Obligations.ConstantRegistersReadTheirConstants : Prop :=
  ∀ r ∈ constantRegisters, ∀ (s : State) (v : Word) (rest : List Event),
    step (s.given (.window r.1 ⟨.read, .w32, v⟩ :: rest)) = .next (deliver (bytesOf r.2) (s.given rest)) ∧
    step (s.given (.window r.1 ⟨.write, .w32, v⟩ :: rest)) = .next (s.given rest)

/-- 60 R303: the silent corrections leave the status as it is: a control write whatever its value, a write of a reserved
shaper mode (which leaves P_SH_MODE too), a write to a read-only register or to a reserved offset (which changes nothing). -/
def Obligations.SilentCorrectionsLeaveTheStatus : Prop :=
  (∀ (s : State) (v : Word), ∀ i ∈ [Instr.setGain v, .setTone v, .setVolume v],
    ∃ t, exec i s = .next t ∧ t.status = s.status) ∧
  (∀ (s : State) (v : Word), s.busy = false → v ≠ 0#32 → v ≠ 1#32 → v ≠ 2#32 →
    exec (.setParamShMode v) s = .next s) ∧
  (∀ (s : State) (off : Offset) (v : Word) (rest : List Event), aligned off = true →
    (readOnlyOffset off.toNat || reservedOffset off.toNat) = true →
    step (s.given (.window off ⟨.write, .w32, v⟩ :: rest)) = .next (s.given rest))

/-- 20 R94: an aligned 32-bit access to a reserved offset reads 0 and ignores writes without ACCERR; an access outside
`BASE` to `BASE + 0xFFFF` does not reach the block. -/
def Obligations.ReservedOffsetsReadZero : Prop :=
  (∀ (s : State) (off : Offset) (v : Word) (rest : List Event), aligned off = true → reservedOffset off.toNat = true →
    step (s.given (.window off ⟨.read, .w32, v⟩ :: rest)) = .next (deliver [0#8, 0#8, 0#8, 0#8] (s.given rest)) ∧
    step (s.given (.window off ⟨.write, .w32, v⟩ :: rest)) = .next (s.given rest)) ∧
  (∀ (s : State) (addr : Nat) (a : Access) (rest : List Event),
    (addr < Config.base ∨ Config.base + 0xFFFF < addr) →
    step (s.given (.physical addr a :: rest)) = .next (s.given rest))

/-- 20 R92, R93: an access of another width than 32 bits, at any offset, and a 32-bit access at an offset that is not a
multiple of 4 are rejected: ACCERR is set, a read delivers zero in every byte, and nothing else changes. -/
def Obligations.WrongAccessesAreRejected : Prop :=
  ∀ (s : State) (off : Offset) (a : Access) (rest : List Event), (a.width ≠ .w32 ∨ off.toNat % 4 ≠ 0) →
    step (s.given (.window off a :: rest)) =
      .next { s.given rest with
        status := { s.status with accErr := true }
        env := { (s.given rest).env with
          reply := if a.dir = .read then List.replicate a.width.bytes 0#8 else s.env.reply } }

/-- 20 R95: while BUSY a write to SPEC_*, to P_* or to the buffer and a read of the buffer are rejected with ACCERR; every
other read is accepted, writes to the controls, CTRL and STATUS have the effect they have when idle, and a write to CMD
sets OVERRUN. A read of SNAP_*, NORM_*, COEF or STATE gives the same in every step from before a command's acceptance until
its completion; when idle, SNAP_* and NORM_* read what they hold. That these reads give the value from before, although
10 R50 and 40 R151 write the registers at acceptance, is how the model reads the rules together (log 20). -/
def Obligations.BusyRejectsInputsAndBuffer : Prop :=
  (∀ (s : State) (off : Offset) (v : Word) (rest : List Event), s.busy = true → aligned off = true →
    ((specOrParamOffset off.toNat = true ∨ 0x8000 ≤ off.toNat) →
      step (s.given (.window off ⟨.write, .w32, v⟩ :: rest)) =
        .next { s.given rest with status := { s.status with accErr := true } }) ∧
    (0x8000 ≤ off.toNat →
      step (s.given (.window off ⟨.read, .w32, v⟩ :: rest)) =
        .next (deliver [0#8, 0#8, 0#8, 0#8] { s.given rest with status := { s.status with accErr := true } })) ∧
    (off.toNat < 0x8000 →
      step (s.given (.window off ⟨.read, .w32, v⟩ :: rest)) =
        .next (deliver (bytesOf (s.readReg (regAt off))) (s.given rest))) ∧
    (let writes := step (s.given (.window off ⟨.write, .w32, v⟩ :: rest))
    (off = 0x040 → writes = .next { s.given rest with gain := ctlClamp v }) ∧
    (off = 0x044 → writes = .next { s.given rest with tone := ctlClamp v }) ∧
    (off = 0x048 → writes = .next { s.given rest with volume := ctlClamp v }) ∧
    (off = 0x04C → writes = .next { s.given rest with bypass := v.getLsbD 0 }) ∧
    (off = 0x008 → v.getLsbD 0 = true → writes = .next (softReset (s.given rest))) ∧
    (off = 0x008 → v.getLsbD 0 = false → writes = .next { s.given rest with irqEn := v.getLsbD 1 }) ∧
    (off = 0x00C → writes = .next { s.given rest with status := s.status.clear v }) ∧
    (off = 0x010 → writes = .next { s.given rest with status := { s.status with overrun := true } }))) ∧
  (∀ (s : State) (w : Word) (rest : List Event), s.pending = none →
    ∃ t, step (s.given (.window 0x010 ⟨.write, .w32, w⟩ :: rest)) = .next t ∧ t.busy = true ∧
      ∀ off, readbackOffset off.toNat = true → t.readReg (regAt off) = s.readReg (regAt off)) ∧
  (∀ s t : State, s.busy = true → s.env.stageCall = none → step s = .next t → t.pending = s.pending →
    ∀ off, readbackOffset off.toNat = true → t.readReg (regAt off) = s.readReg (regAt off)) ∧
  (∀ s : State, s.busy = false →
    s.readReg .snapGain = s.snapGain ∧ s.readReg .snapTone = s.snapTone ∧ s.readReg .snapVolume = s.snapVolume ∧
    s.readReg .snapBypass = boolWord s.snapBypass ∧ s.readReg .normG = s.normG ∧ s.readReg .normT = s.normT ∧
    s.readReg .normV = s.normV)

/-- 20 R90: a word's bits 7:0 lie at its own offset and bits 31:24 three bytes above, for a read of any offset, for a
buffer word, and for the persisted control state (10 R52). -/
def Obligations.TheWindowIsLittleEndian : Prop :=
  (∀ (s : State) (off : Offset), aligned off = true → (s.busy = false ∨ off.toNat < 0x8000) →
    ∃ t, exec (.read off) s = .next t ∧
      t.env.reply = (List.range 4).map (fun i => (s.readReg (regAt off)).extractLsb' (8 * i) 8)) ∧
  (∀ (s : State) (c : Chan) (n : BitVec 12) (v : Word), s.busy = false → ∃ t, exec (.writeBuf c n v) s = .next t ∧
    ∀ i, i < 4 → t.bufByte (bufAddr c n.toNat + i) = v.extractLsb' (8 * i) 8) ∧
  (∀ (s : State) (i : Nat), i < 4 →
    s.persisted[i]? = some (s.gain.extractLsb' (8 * i) 8) ∧
    s.persisted[4 + i]? = some (s.tone.extractLsb' (8 * i) 8) ∧
    s.persisted[8 + i]? = some (s.volume.extractLsb' (8 * i) 8) ∧
    s.persisted[12 + i]? = some ((boolWord s.bypass).extractLsb' (8 * i) 8))

/-! Host operations. -/

/-- 40 R189: READ delivers the register or buffer word, changes nothing else, and is rejected for a buffer offset
while BUSY. 10 section 2.1, written out: the word at each register's offset, COEF[k][i] at 0x800 + 0x20·k + 4·i,
STATE[c][k][j] at 0xC00 + 0x100·c + 8·k + 4·j for the stages `k` in index order, and Buf[c][n] at 0x8000 + 4·(4096·c + n)
(20 R97). What SNAP_* and NORM_* read while BUSY is the model's reading of 20 R95 (log 20). -/
def Obligations.ReadDeliversTheWord : Prop :=
  (∀ (s : State) (off : Offset), aligned off = true →
    exec (.read off) s =
      if 0x8000 ≤ off.toNat ∧ s.busy = true
      then .next { s with
        status := { s.status with accErr := true }, env := { s.env with reply := [0#8, 0#8, 0#8, 0#8] } }
      else .next { s with env := { s.env with reply := bytesOf (s.readReg (regAt off)) } }) ∧
  ∀ s : State,
    let reads := fun (a : Nat) => s.readReg (regAt (BitVec.ofNat 16 a))
    (∀ r ∈ registerMap s, s.readReg (regAt r.1) = r.2) ∧
    (∀ r ∈ paramMap s.params, s.readReg (regAt r.1) = r.2) ∧
    (∀ (k : Nat) (row : Row), (inStageOrder s.coef)[k]? = some row →
      ∀ i, i < 8 → (rowWords row)[i]? = some (reads (0x800 + 0x20 * k + 4 * i))) ∧
    (∀ (k : Nat) (p : Pair), (inStageOrder s.filter0)[k]? = some p →
      reads (0xC00 + 8 * k) = p.s1 ∧ reads (0xC00 + 8 * k + 4) = p.s2) ∧
    (∀ (k : Nat) (p : Pair), (inStageOrder s.filter1)[k]? = some p →
      reads (0xD00 + 8 * k) = p.s1 ∧ reads (0xD00 + 8 * k + 4) = p.s2) ∧
    (∀ n, n < 4096 → reads (0x8000 + 4 * n) = s.bufWord .ch0 n ∧ reads (0x8000 + 4 * (4096 + n)) = s.bufWord .ch1 n)

/-- 40 R188, 20 R97, R98: WRITE_BUF on an idle block stores the word at `0x8000 + 4·(4096·c + n)` and changes nothing
else; while BUSY it only sets ACCERR. -/
def Obligations.WriteBufStoresOneWord : Prop :=
  ∀ (s : State) (c : Chan) (n : BitVec 12) (v : Word),
    (s.busy = true → exec (.writeBuf c n v) s = .next { s with status := { s.status with accErr := true } }) ∧
    (s.busy = false → ∃ t, exec (.writeBuf c n v) s = .next t ∧ t.bufWord c n.toNat = v ∧
      (∀ a, (a < 0x8000 + 4 * (4096 * c.idx + n.toNat) ∨ 0x8000 + 4 * (4096 * c.idx + n.toNat) + 3 < a) →
        t.bufByte a = s.bufByte a) ∧
      { t with mem := s.mem } = s)

/-- 40 R180, R181, R182, R183, 10 R48: SET_GAIN, SET_TONE and SET_VOLUME store +0.0 for a NaN, the nearer bound for a value
outside 0.0 to 10.0, and any other value unchanged; SET_BYPASS stores bit 0; nothing else changes. -/
def Obligations.SetControlsStoreTheClampedValue : Prop :=
  ∀ (s : State) (w : Word),
    let c := if F32.isNaN w then 0x00000000#32 else if F32.lt w 0x00000000#32 then 0x00000000#32
      else if F32.lt 0x41200000#32 w then 0x41200000#32 else w
    exec (.setGain w) s = .next { s with gain := c } ∧ exec (.setTone w) s = .next { s with tone := c } ∧
    exec (.setVolume w) s = .next { s with volume := c } ∧
    exec (.setBypass w) s = .next { s with bypass := w.getLsbD 0 } ∧
    { s with bypass := w.getLsbD 0 }.readReg .bypass = w &&& 1#32

/-- 40 R184: the SPEC writes store the value unchanged on an idle block and only set ACCERR while BUSY. -/
def Obligations.SetSpecStoresUnlessBusy : Prop :=
  ∀ (s : State) (w : Word),
    let r := { s with status := { s.status with accErr := true } }
    exec (.setSpecFs w) s = .next (if s.pending.isSome then r else { s with specFs := w }) ∧
    exec (.setSpecMaxb w) s = .next (if s.pending.isSome then r else { s with specMaxb := w }) ∧
    exec (.setSpecNch w) s = .next (if s.pending.isSome then r else { s with specNch := w })

/-- 40 R185, 10 R54, R55, R56: each of the 34 SET_PARAM operations, on an idle block, changes its own register only: a
binary32 register takes the word unchanged, P_INV_POL its bit 0, P_SH_MODE the modes 0, 1 and 2 and ignores any other
value; while BUSY it only sets ACCERR. -/
def Obligations.SetParamStoresItsRegister : Prop :=
  ∀ (s : State) (p : ParamId) (w : Word),
    (s.busy = true → exec (setParamInstr p w) s = .next { s with status := { s.status with accErr := true } }) ∧
    (s.busy = false → ∃ t, exec (setParamInstr p w) s = .next t ∧ { t with params := s.params } = s ∧
      (∀ q, q ≠ p → t.params.get q = s.params.get q) ∧
      t.params.get p =
        if p = .invPol then w &&& 1#32
        else if p = .shMode then (if w = 0#32 ∨ w = 1#32 ∨ w = 2#32 then w else s.params.get p)
        else w)

/-- 40 R186: WRITE_CTRL performs the soft reset when bit 0 is set, whatever bit 1 holds, and stores IRQ_EN from bit 1
otherwise; CTRL then reads 0 or 2. -/
def Obligations.WriteCtrlResetsOrSetsIrqEn : Prop :=
  ∀ (s : State) (w : Word),
    (w.getLsbD 0 = true → exec (.writeCtrl w) s = .next (softReset s) ∧ (softReset s).irqEn = false) ∧
    (w.getLsbD 0 = false → exec (.writeCtrl w) s = .next { s with irqEn := w.getLsbD 1 } ∧
      { s with irqEn := w.getLsbD 1 }.readReg .ctrl = w &&& 2#32)

/-- 40 R187: CLEAR_STATUS clears bits 3 to 6 of STATUS (DONE, ERR, OVERRUN and ACCERR) where the value has a 1, and nothing
else. The layout of the word that STATUS reads is that of 10 R38, with the result codes of 60 R300. -/
def Obligations.ClearStatusClearsBits3To6 : Prop :=
  (∀ (s : State) (w : Word), ∃ t, exec (.clearStatus w) s = .next t ∧ { t with status := s.status } = s ∧
    t.statusWord = s.statusWord &&& ~~~(w &&& 0x00000078#32) ∧
    t.status = { s.status with
      done := s.status.done && !w.getLsbD 3, err := s.status.err && !w.getLsbD 4
      overrun := s.status.overrun && !w.getLsbD 5, accErr := s.status.accErr && !w.getLsbD 6 }) ∧
  (∀ s : State,
    let word := s.readReg (regAt 0x00C)
    word.getLsbD 0 = s.pending.isSome ∧ word.getLsbD 1 = s.status.prepared ∧ word.getLsbD 2 = s.status.fatal ∧
    word.getLsbD 3 = s.status.done ∧ word.getLsbD 4 = s.status.err ∧ word.getLsbD 5 = s.status.overrun ∧
    word.getLsbD 6 = s.status.accErr ∧ word.getLsbD 7 = s.status.bypassed ∧
    word.extractLsb' 8 8 = s.status.result.code ∧ word.extractLsb' 16 16 = 0#16) ∧
  (∀ r ∈ resultCodes, r.1.code = r.2) ∧ ∀ c : ResultCode, ∃ b, (c, b) ∈ resultCodes

/-- 60 R320: `irq` is IRQ_EN and DONE: a completion raises it exactly when IRQ_EN is set, setting IRQ_EN raises it
exactly when DONE is set, and clearing DONE or IRQ_EN drops it, as both resets do. -/
def Obligations.IrqIsEnabledDone : Prop :=
  ∀ s : State, s.irq = (s.irqEn && s.status.done) ∧
    (∀ code info, (complete code info s).irq = s.irqEn) ∧
    (∀ t, exec (.writeCtrl 2#32) s = .next t → t.irq = s.status.done) ∧
    (∀ t, exec (.writeCtrl 0#32) s = .next t → t.irq = false) ∧
    (∀ w t, w.getLsbD 3 = true → exec (.clearStatus w) s = .next t → t.irq = false) ∧
    (softReset s).irq = false ∧ (powerOnReset s).irq = false

/-! The command sequencer. -/

/-- 40 R151: a write to CMD on an idle block makes the word pending, and takes the snapshot and the normalised controls
when FATAL is 0 and the word is PREPARE, RESOLVE or a PROCESS; 70 R343 gives `abortRange`. The values of the snapshot from
before are kept for the reads while BUSY (log 20). Nothing else changes. -/
def Obligations.AcceptanceTakesTheSnapshot : Prop :=
  ∀ (s : State) (w : Word) (rest : List Event), s.pending = none →
    let snap := !s.status.fatal && (w == 1#32 || w == 3#32 || w.setWidth 16 == 2#16)
    step (s.given (.window 0x010 ⟨.write, .w32, w⟩ :: rest)) = .next { s.given rest with
      pending := some w
      snapGain := if snap then s.gain else s.snapGain
      snapTone := if snap then s.tone else s.snapTone
      snapVolume := if snap then s.volume else s.snapVolume
      snapBypass := if snap then s.bypass else s.snapBypass
      normG := if snap then F32.div s.gain 0x41200000#32 else s.normG
      normT := if snap then F32.div s.tone 0x41200000#32 else s.normT
      normV := if snap then F32.div s.volume 0x41200000#32 else s.normV
      abortRange :=
        if w.setWidth 16 = 2#16 ∧ s.status.fatal = false ∧ s.status.prepared = true ∧
            (w >>> 16).toNat ≤ s.activeMaxb.toNat ∧ s.bypass = false
        then ⟨s.activeNch.toNat, (w >>> 16).toNat⟩ else ⟨0, 0⟩
      snapBefore := ⟨s.snapGain, s.snapTone, s.snapVolume, s.snapBypass, s.normG, s.normT, s.normV⟩
      env := { (s.given rest).env with elapsed := 0 } }

/-- 40 R153: a write to CMD while BUSY is discarded: it only sets OVERRUN. -/
def Obligations.OverrunDiscardsTheWord : Prop :=
  ∀ (s : State) (w : Word) (rest : List Event), s.busy = true →
    step (s.given (.window 0x010 ⟨.write, .w32, w⟩ :: rest)) =
      .next { s.given rest with status := { s.status with overrun := true } }

/-- 40 R154: what `complete` writes, and nothing else (`abortRange` is emptied by 70 R343). -/
def Obligations.CompleteWritesTheResult : Prop :=
  ∀ (s : State) (w : Word) (code : ResultCode) (info : Option (Stage × Nat)), s.pending = some w →
    (code ≠ .nonfiniteCoef → complete code info s = { s with
      status := { s.status with
        result := code, done := true
        err := if code = .ok ∨ code = .okBypassed then s.status.err else true }
      lastCmd := w, pending := none, abortRange := Range.empty }) ∧
    (∀ st i, complete .nonfiniteCoef (some (st, i)) s = { s with
      status := { s.status with result := .nonfiniteCoef, done := true, err := true, fatal := true }
      faultInfo := 0x80000000#32 ||| (BitVec.ofNat 32 i <<< 8) ||| BitVec.ofNat 32 st.idx
      lastCmd := w, pending := none, abortRange := Range.empty })

/-- 60 R304: a completion reports the first result of the priority list that applies, and a non-finite coefficient is
reported with the lowest stage and then the lowest word of the failing resolve. -/
def Obligations.ResultsFollowThePriority : Prop :=
  ∀ (s : State) (w : Word) (rest : List Event), s.pending = some w →
    ∃ t, step (s.given (.complete :: rest)) = .next t ∧ t.status.result = resultOf w s ∧
      (resultOf w s = .nonfiniteCoef → ∃ st i,
        s.resolve (if cmdOp w = 1#4 then s.specFs else s.activeFs) = .error (st, i) ∧
        t.faultInfo = 0x80000000#32 ||| (BitVec.ofNat 32 i <<< 8) ||| BitVec.ofNat 32 st.idx)

/-- 60 R301: a completion with an error code writes the status, LAST_CMD and the sequencer's state and nothing else:
PREPARED is cleared for BAD_FS, BAD_MAXB and BAD_NCH only, FATAL set and FAULT_INFO written for NONFINITE_COEF only. -/
def Obligations.ErrorsArePrecise : Prop :=
  ∀ (s t : State) (w : Word) (rest : List Event), s.pending = some w →
    step (s.given (.complete :: rest)) = .next t → t.status.result.isError = true →
    t = { s.given rest with
      status := { s.status with
        result := t.status.result, done := true, err := true
        prepared := if t.status.result = .badFs ∨ t.status.result = .badMaxb ∨ t.status.result = .badNch
          then false else s.status.prepared
        fatal := if t.status.result = .nonfiniteCoef then true else s.status.fatal }
      faultInfo := if t.status.result = .nonfiniteCoef then t.faultInfo else s.faultInfo
      lastCmd := w, pending := none, abortRange := Range.empty }

/-- 30 R125: an illegal command word is accepted and completes with ILLEGAL_CMD with no other effect on the block (the
model's own copy of the snapshot, which no idle read returns, is written at every acceptance, log 20). -/
def Obligations.IllegalWordsCompleteWithIllegalCmd : Prop :=
  ∀ (s : State) (w : Word) (rest : List Event), s.pending = none → s.status.fatal = false →
    (w ≠ 0#32 ∧ w ≠ 1#32 ∧ w.setWidth 16 ≠ 2#16 ∧ w ≠ 3#32 ∧ w ≠ 4#32) →
    ∃ t, step (s.given (.window 0x010 ⟨.write, .w32, w⟩ :: .complete :: rest)) = .next t ∧ t.busy = true ∧
      step t = .next { s.given rest with
        status := { s.status with result := .illegalCmd, done := true, err := true }
        lastCmd := w, pending := none, abortRange := Range.empty
        snapBefore := ⟨s.snapGain, s.snapTone, s.snapVolume, s.snapBypass, s.normG, s.normT, s.normV⟩
        env := { (s.given rest).env with elapsed := 0 } }

/-- 60 R310: while FATAL is set, FATAL, FAULT_INFO, PREPARED, BYPASSED, BLOCK_CNT, the ACTIVE, SNAP and NORM registers and
the coefficient and filter-state files outlive every step but a reset; a completion answers FAULTED and rewrites RESULT,
DONE, ERR and LAST_CMD. A stage call, which only the model has (log 3), is left out. -/
def Obligations.FatalIsClearedOnlyByReset : Prop :=
  ∀ s t : State, s.status.fatal = true → s.env.stageCall = none → s.resetsNext = false → step s = .next t →
    t.status.fatal = true ∧ t.faultInfo = s.faultInfo ∧ t.status.prepared = s.status.prepared ∧ t.coef = s.coef ∧
    t.filter0 = s.filter0 ∧ t.filter1 = s.filter1 ∧ t.blockCnt = s.blockCnt ∧ t.activeFs = s.activeFs ∧
    t.activeMaxb = s.activeMaxb ∧ t.activeNch = s.activeNch ∧ t.status.bypassed = s.status.bypassed ∧
    t.snapGain = s.snapGain ∧ t.snapTone = s.snapTone ∧ t.snapVolume = s.snapVolume ∧ t.snapBypass = s.snapBypass ∧
    t.normG = s.normG ∧ t.normT = s.normT ∧ t.normV = s.normV ∧
    (∀ w, s.pending = some w → t.pending = none →
      t.status.result = .faulted ∧ t.status.done = true ∧ t.status.err = true ∧ t.lastCmd = w)

/-- 10 R57, 40 R152: while the command in flight stays in flight, nothing it reads changes. -/
def Obligations.InputsAreFrozenWhileBusy : Prop :=
  ∀ s t : State, s.busy = true → s.env.stageCall = none → step s = .next t → t.pending = s.pending →
    t.specFs = s.specFs ∧ t.specMaxb = s.specMaxb ∧ t.specNch = s.specNch ∧ t.params = s.params ∧
    t.activeFs = s.activeFs ∧ t.activeMaxb = s.activeMaxb ∧ t.activeNch = s.activeNch ∧
    t.snapGain = s.snapGain ∧ t.snapTone = s.snapTone ∧ t.snapVolume = s.snapVolume ∧ t.snapBypass = s.snapBypass ∧
    t.normG = s.normG ∧ t.normT = s.normT ∧ t.normV = s.normV ∧ t.status.prepared = s.status.prepared ∧
    t.status.fatal = s.status.fatal ∧ t.mem = s.mem ∧ t.coef = s.coef ∧ t.filter0 = s.filter0 ∧ t.filter1 = s.filter1

/-- 10 R50, 70 R352: a command reads the snapshot and never the live controls. -/
def Obligations.CommandsIgnoreTheLiveControls : Prop :=
  ∀ (s t : State) (len : BitVec 16) (g tn v : Word) (b : Bool),
    ∀ i ∈ [Instr.nop, .prepare, .process len, .resolve, .clearState], exec i s = .next t →
      exec i { s with gain := g, tone := tn, volume := v, bypass := b } =
        .next { t with gain := g, tone := tn, volume := v, bypass := b }

/-- 70 R361, R360: no step of a block without a stage call stops; a completion, or running out of events, ends the
command in flight; and so do as many clock cycles as its latency bound leaves. A command accepted just now has the bound
`L_FIXED + L_SAMPLE · LEN · ACTIVE_NCH` if it is a PROCESS that will complete with OK, and `L_FIXED` if it is any other
command or will complete with OK_BYPASSED or an error. The clock event is the model's, and a bound of 0 acts as 1
(log 9). -/
def Obligations.EveryAcceptedCommandCompletes : Prop :=
  (∀ s : State, s.env.stageCall = none → ∃ t, step s = .next t) ∧
  (∀ (s : State) (rest : List Event), ∃ t, step (s.given (.complete :: rest)) = .next t ∧ t.busy = false) ∧
  (∀ s : State, ∃ t, step (s.given []) = .next t ∧ t.busy = false) ∧
  (∀ (s : State) (k : Nat), 1 ≤ k → latencyBound s ≤ s.env.elapsed + k →
    ∃ t, runSteps k (s.given (List.replicate k .clock)) = .next t ∧ t.busy = false) ∧
  (∀ (s : State) (w : Word) (rest : List Event), s.pending = none →
    ∃ t, step (s.given (.window 0x010 ⟨.write, .w32, w⟩ :: rest)) = .next t ∧ t.env.elapsed = 0 ∧
      latencyBound t =
        if w.setWidth 16 = 2#16 ∧ resultOf w t = .ok
        then Config.lFixed + Config.lSample * ((w >>> 16).toNat * s.activeNch.toNat) else Config.lFixed)

/-- 10 R45: BLOCK_CNT grows by one, modulo 2^32, in a step that completes a PROCESS with OK or OK_BYPASSED, and keeps its
value in every other step but a reset, after which it is 0. -/
def Obligations.BlockCntCountsProcessedBlocks : Prop :=
  (∀ s : State, (softReset s).blockCnt = 0#32 ∧ (powerOnReset s).blockCnt = 0#32) ∧
  ∀ s t : State, s.env.stageCall = none → s.resetsNext = false → step s = .next t →
    t.blockCnt =
      match s.pending with
      | none => s.blockCnt
      | some w =>
        if t.pending = none ∧ cmdOp w = 2#4 ∧ (t.status.result = .ok ∨ t.status.result = .okBypassed)
        then s.blockCnt + 1#32 else s.blockCnt

/-- 41 R247, 10 R60: outside a reset, a step that changes the coefficient file completes a PREPARE, PROCESS or RESOLVE
with OK, and the new file is what its resolve gave. -/
def Obligations.CoefficientsComeFromAResolve : Prop :=
  ∀ s t : State, s.env.stageCall = none → s.resetsNext = false → step s = .next t → t.coef ≠ s.coef →
    ∃ w, s.pending = some w ∧ t.pending = none ∧ t.status.result = .ok ∧
      (w = 1#32 ∨ w.setWidth 16 = 2#16 ∨ w = 3#32) ∧
      s.resolve (if w = 1#32 then s.specFs else s.activeFs) = .ok t.coef

/-- 10 R68: the filter-state file is written only by a PROCESS that completes with OK, on the active channels, by a
PREPARE that completes with OK and by CLEAR_STATE, which set every word to +0.0, and by a reset. -/
def Obligations.FilterStateHasFourWriters : Prop :=
  ∀ s t : State, s.env.stageCall = none → s.resetsNext = false → step s = .next t →
    (∀ c, t.filter c = s.filter c) ∨
    ∃ w, s.pending = some w ∧ t.pending = none ∧ t.status.result = .ok ∧
      ((w.setWidth 16 = 2#16 ∧ ∀ c : Chan, s.activeNch.toNat ≤ c.idx → t.filter c = s.filter c) ∨
       ((w = 1#32 ∨ w = 4#32) ∧ ∀ c st, (t.filter c).get st = ⟨0#32, 0#32⟩))

/-! The commands. -/

/-- 40 R164, R160: a PREPARE whose checks pass and whose resolve succeeds latches the SPEC registers, writes the
coefficient file, clears the filter state and sets PREPARED; nothing else changes. -/
def Obligations.PrepareLatchesTheSpec : Prop :=
  ∀ (s : State) (w : Word) (rows : CoefFile), s.pending = some w → s.status.fatal = false →
    F32.isFinite s.specFs = true → F32.lt 0#32 s.specFs = true → 1 ≤ s.specMaxb.toNat → s.specMaxb.toNat ≤ 4096 →
    (s.specNch = 1#32 ∨ s.specNch = 2#32) → s.resolve s.specFs = .ok rows →
    ∃ t, exec .prepare s = .next t ∧ (∀ c st, (t.filter c).get st = ⟨0#32, 0#32⟩) ∧
      { t with filter0 := s.filter0, filter1 := s.filter1 } = { s with
        activeFs := s.specFs, activeMaxb := s.specMaxb, activeNch := s.specNch, coef := rows
        status := { s.status with prepared := true, result := .ok, done := true }
        lastCmd := w, pending := none, abortRange := Range.empty }

/-- 40 R161, R162, R163: the configuration errors of PREPARE, checked in this order: each clears PREPARED and changes no
more than the completion does; valid SPEC registers meet none of them. -/
def Obligations.PrepareReportsConfigurationErrors : Prop :=
  ∀ (s : State) (w : Word), s.pending = some w → s.status.fatal = false →
    let bad := fun (code : ResultCode) => (Host.Outcome.next { s with
      status := { s.status with prepared := false, result := code, done := true, err := true }
      lastCmd := w, pending := none, abortRange := Range.empty } : Host.Outcome State Fault Refusal)
    (¬ (F32.isFinite s.specFs = true ∧ F32.lt 0#32 s.specFs = true) → exec .prepare s = bad .badFs) ∧
    (F32.isFinite s.specFs = true → F32.lt 0#32 s.specFs = true →
      (s.specMaxb.toNat = 0 ∨ 4096 < s.specMaxb.toNat) → exec .prepare s = bad .badMaxb) ∧
    (F32.isFinite s.specFs = true → F32.lt 0#32 s.specFs = true → 1 ≤ s.specMaxb.toNat → s.specMaxb.toNat ≤ 4096 →
      s.specNch ≠ 1#32 → s.specNch ≠ 2#32 → exec .prepare s = bad .badNch) ∧
    (F32.isFinite s.specFs = true → F32.lt 0#32 s.specFs = true → 1 ≤ s.specMaxb.toNat → s.specMaxb.toNat ≤ 4096 →
      (s.specNch = 1#32 ∨ s.specNch = 2#32) → ∃ t, exec .prepare s = .next t ∧
        (t.status.result = .ok ∨ t.status.result = .nonfiniteCoef))

/-- 60 R310, 41 R247: a PREPARE, PROCESS or RESOLVE whose resolve fails latches FATAL and the fault record, and changes no
coefficient, buffer or state word. -/
def Obligations.NonfiniteCoefficientLatchesFatal : Prop :=
  ∀ (s : State) (w : Word) (st : Stage) (i : Nat) (len : BitVec 16), s.pending = some w → s.status.fatal = false →
    let fault := (Host.Outcome.next { s with
      status := { s.status with result := .nonfiniteCoef, done := true, err := true, fatal := true }
      faultInfo := 0x80000000#32 ||| (BitVec.ofNat 32 i <<< 8) ||| BitVec.ofNat 32 st.idx
      lastCmd := w, pending := none, abortRange := Range.empty } : Host.Outcome State Fault Refusal)
    (fsValid s.specFs = true → maxbValid s.specMaxb = true → nchValid s.specNch = true →
      s.resolve s.specFs = .error (st, i) → exec .prepare s = fault) ∧
    (s.status.prepared = true → s.resolve s.activeFs = .error (st, i) → exec .resolve s = fault) ∧
    (s.status.prepared = true → len.toNat ≤ s.activeMaxb.toNat → s.snapBypass = false →
      s.resolve s.activeFs = .error (st, i) → exec (.process len) s = fault)

/-- 40 R171, R176, R177: an unprepared PROCESS completes with NOT_PREPARED and one longer than ACTIVE_MAXB with BAD_LEN,
neither with another effect; a bypassed one sets BYPASSED, counts the block and completes with OK_BYPASSED, and no buffer,
coefficient or state word changes. -/
def Obligations.ProcessWithoutTransformLeavesTheBlock : Prop :=
  ∀ (s : State) (w : Word) (len : BitVec 16), s.pending = some w → s.status.fatal = false →
    (s.status.prepared = false → exec (.process len) s = .next { s with
      status := { s.status with result := .notPrepared, done := true, err := true }
      lastCmd := w, pending := none, abortRange := Range.empty }) ∧
    (s.status.prepared = true → s.activeMaxb.toNat < len.toNat → exec (.process len) s = .next { s with
      status := { s.status with result := .badLen, done := true, err := true }
      lastCmd := w, pending := none, abortRange := Range.empty }) ∧
    (s.status.prepared = true → len.toNat ≤ s.activeMaxb.toNat → s.snapBypass = true →
      exec (.process len) s = .next { s with
        status := { s.status with bypassed := true, result := .okBypassed, done := true }
        blockCnt := s.blockCnt + 1#32, lastCmd := w, pending := none, abortRange := Range.empty })

/-- 40 R172: the transform path of PROCESS replaces each word `Buf[c][n]` with `c < ACTIVE_NCH` and `n < LEN` by the
chain's output, sample after sample with the channel's own state, writes the coefficient file, clears BYPASSED and
counts the block. No other byte of the buffer and no other register changes. 40 R173, 10 R59: the chain runs the stages
HPF, AAF, PEAK, NOTCH, GAIN_NI, GAIN_INV, SHAPER, PCLP, TONE, PTLP and VOL in this order, each on its own row and state
words and on the output of the one before, and the step of a stage is what its stage operation, run alone, hands on in
env.sample and writes. That a stage operation runs alone and hands its sample on there is the model's choice (log 3). -/
def Obligations.ProcessTransformsTheBlock : Prop :=
  (∀ (s : State) (w : Word) (len : BitVec 16) (rows : CoefFile), s.pending = some w → s.status.fatal = false →
    s.status.prepared = true → maxbValid s.activeMaxb = true → len.toNat ≤ s.activeMaxb.toNat → s.snapBypass = false →
    s.resolve s.activeFs = .ok rows →
    ∃ t, exec (.process len) s = .next t ∧
      (∀ c : Chan, c.idx < s.activeNch.toNat →
        sampleMajor rows (s.block c len.toNat) (s.filter c) = (t.block c len.toNat, t.filter c)) ∧
      (∀ c : Chan, s.activeNch.toNat ≤ c.idx → t.filter c = s.filter c) ∧
      (∀ a, ¬ inRange s.activeNch.toNat len.toNat a → t.bufByte a = s.bufByte a) ∧
      { t with filter0 := s.filter0, filter1 := s.filter1, mem := s.mem } = { s with
        coef := rows, status := { s.status with bypassed := false, result := .ok, done := true }
        blockCnt := s.blockCnt + 1#32, lastCmd := w, pending := none, abortRange := Range.empty }) ∧
  (∀ (coef : CoefFile) (f : FilterFile) (x : Word),
    let hpf := stageStep .foHp coef.hpf f.hpf x
    let aaf := stageStep .bqLp coef.aaf f.aaf hpf.1
    let peak := stageStep .bqPeak coef.peak f.peak aaf.1
    let notch := stageStep .bqNotch coef.notch f.notch peak.1
    let gainNi := stageStep .gainNi coef.gainNi f.gainNi notch.1
    let gainInv := stageStep .gainInv coef.gainInv f.gainInv gainNi.1
    let shaper := stageStep .shaper coef.shaper f.shaper gainInv.1
    let pclp := stageStep .bqLp coef.pclp f.pclp shaper.1
    let tone := stageStep .bqLp coef.tone f.tone pclp.1
    let ptlp := stageStep .foLp coef.ptlp f.ptlp tone.1
    let vol := stageStep .gainVol coef.vol f.vol ptlp.1
    chain coef f x = (vol.1, ⟨hpf.2, aaf.2, peak.2, notch.2, gainNi.2, gainInv.2, shaper.2, pclp.2, tone.2, ptlp.2, vol.2⟩)) ∧
  (∀ (s : State) (c : Chan) (st : Stage) (x : Word),
    let r := stageStep st.kind (s.coef.get st) ((s.filter c).get st) x
    ∃ i, decode (.stageKind st.kind.code c st x) = .ok i ∧
      exec i s = .next { s.setFilter c ((s.filter c).set st r.2) with env := { s.env with sample := r.1 } })

/-- 40 R178: RESOLVE on a prepared block writes the coefficient file and completes with OK, also with bypass engaged; an
unprepared block answers NOT_PREPARED. No buffer or state word, BLOCK_CNT or BYPASSED changes. -/
def Obligations.ResolveWritesTheCoefficients : Prop :=
  ∀ (s : State) (w : Word) (rows : CoefFile), s.pending = some w → s.status.fatal = false →
    (s.status.prepared = true → s.resolve s.activeFs = .ok rows → exec .resolve s = .next { s with
      coef := rows, status := { s.status with result := .ok, done := true }
      lastCmd := w, pending := none, abortRange := Range.empty }) ∧
    (s.status.prepared = false → exec .resolve s = .next { s with
      status := { s.status with result := .notPrepared, done := true, err := true }
      lastCmd := w, pending := none, abortRange := Range.empty })

/-- 40 R155, R179: NOP completes with OK and changes no more than the completion does; CLEAR_STATE, prepared or not, also
makes every filter-state word of both channels +0.0. With FATAL set each completes with FAULTED and no other effect. -/
def Obligations.NopAndClearStateCompleteWithOk : Prop :=
  ∀ (s : State) (w : Word), s.pending = some w →
    (s.status.fatal = false →
      let done := { s with
        status := { s.status with result := .ok, done := true }, lastCmd := w, pending := none
        abortRange := Range.empty }
      exec .nop s = .next done ∧
      ∃ t, exec .clearState s = .next t ∧ (∀ c st, (t.filter c).get st = ⟨0#32, 0#32⟩) ∧
        { t with filter0 := s.filter0, filter1 := s.filter1 } = done) ∧
    (s.status.fatal = true → ∀ i ∈ [Instr.nop, .clearState], exec i s = .next { s with
      status := { s.status with result := .faulted, done := true, err := true }, lastCmd := w, pending := none
      abortRange := Range.empty })

/-! The stages. -/

/-- 42 R250, R255: the biquad operations compute the output, then both state words, each operation rounded once, and the
first-order operations the output and the first state word, the second becoming +0.0; the sample is handed on (the model's
way to run one stage, log 3) and nothing else changes. -/
def Obligations.FilterStagesFollowTheirRules : Prop :=
  ∀ (s : State) (c : Chan) (st : Stage) (x : Word),
    let r := s.coef.get st
    let p := (s.filter c).get st
    let y := F32.add (F32.mul r.w0 x) p.s1
    let left := F32.sub (F32.mul r.w1 x) (F32.mul r.w3 y)
    let right := F32.sub (F32.mul r.w2 x) (F32.mul r.w4 y)
    let handsOn := fun (i : Instr) (p' : Pair) =>
      exec i s = .next { s.setFilter c ((s.filter c).set st p') with env := { s.env with sample := y } }
    (∀ i ∈ [Instr.stageBqLp c st x, .stageBqPeak c st x, .stageBqNotch c st x], handsOn i ⟨F32.add left p.s2, right⟩) ∧
    (∀ i ∈ [Instr.stageFoHp c st x, .stageFoLp c st x], handsOn i ⟨left, 0x00000000#32⟩)

/-- 43 R270, R272, R274: the gain operations multiply by word 1 of the row and write no state. -/
def Obligations.GainStagesMultiply : Prop :=
  ∀ (s : State) (c : Chan) (st : Stage) (x : Word),
    ∀ i ∈ [Instr.stageGainNi c st x, .stageGainInv c st x, .stageGainVol c st x],
      exec i s = .next { s with env := { s.env with sample := F32.mul (s.coef.get st).w1 x } }

/-- 44 R285, R287, R288, R289: the three shaper modes on the row of stage 6, and the SHAPER operation, which is the mode
that word 4 of its row holds. Each hands its sample on (the model's way to run one stage, log 3) and writes nothing else. -/
def Obligations.ShaperModesFollowTheirRules : Prop :=
  ∀ (s : State) (c : Chan) (x : Word),
    let k := s.coef.shaper.w0
    let tc := s.coef.shaper.w1
    let b := s.coef.shaper.w2
    let c3 := s.coef.shaper.w3
    let ax := F32.abs x
    let d := F32.sub ax tc
    let m := F32.sub ax (F32.mul (F32.mul (F32.mul d d) d) c3)
    let out := fun y => (Host.Outcome.next { s with env := { s.env with sample := y } } :
      Host.Outcome State Fault Refusal)
    exec (.shaperModeAtanSym x) s = out (F32.mul k (F32.atan32 x)) ∧
    exec (.shaperModeAtanDoc x) s =
      out (if F32.le 0#32 x then F32.sub x (F32.mul k (F32.atan32 x))
        else F32.neg (F32.mul k (F32.atan32 (F32.neg x)))) ∧
    exec (.shaperModeCubic x) s =
      out (if F32.isNaN x then x else if F32.le ax tc then x
        else if F32.lt ax b then F32.copysign m x else F32.copysign 0x3F800000#32 x) ∧
    (s.coef.shaper.w4 = 0#32 → exec (.stageShaper c .shaper x) s = exec (.shaperModeAtanSym x) s) ∧
    (s.coef.shaper.w4 = 1#32 → exec (.stageShaper c .shaper x) s = exec (.shaperModeAtanDoc x) s) ∧
    (s.coef.shaper.w4 = 2#32 → exec (.stageShaper c .shaper x) s = exec (.shaperModeCubic x) s) ∧
    ∃ y, exec (.stageShaper c .shaper x) s = out y

/-- 40 R174: neither the order of samples and stages nor the order of the channels shows: the block stage by stage gives
the samples and the state of the block sample by sample, and either channel may come first. That two NaNs of the two
orders are equal bit for bit leans on the model's NaN payload, a function of the operation and its operands (log 5). -/
def Obligations.LoopOrderIsNotObservable : Prop :=
  (∀ (coef : CoefFile) (xs : List Word) (f : FilterFile), sampleMajor coef xs f = stageMajor coef xs f) ∧
  (∀ (coef : CoefFile) (len : BitVec 16) (s : State),
    let a := processChan coef (blockLen len) (processChan coef (blockLen len) s .ch0) .ch1
    let b := processChan coef (blockLen len) (processChan coef (blockLen len) s .ch1) .ch0
    a.filter0 = b.filter0 ∧ a.filter1 = b.filter1 ∧ ∀ x, a.bufByte x = b.bufByte x)

/-- 42 R252: a peaking row of gain factor 1.0 has `b0 = 1.0`, `b1 = a1` and `b2 = a2`, and from zero state it passes every
sample but -0.0 whose products are finite through unchanged, leaving zero state. -/
def Obligations.FlatPeakIsTheIdentity : Prop :=
  ∀ (cw alpha f q x : Word), F32.isFinite alpha = true → F32.le 0#32 alpha = true →
    let row := peakRow cw alpha f q 0x3F800000#32
    row.w0 = 0x3F800000#32 ∧ row.w1 = row.w3 ∧ row.w2 = row.w4 ∧
    (x ≠ 0x80000000#32 → F32.isFinite (F32.mul row.w3 x) = true → F32.isFinite (F32.mul row.w4 x) = true →
      biquadStep row ⟨0#32, 0#32⟩ x = (x, ⟨0#32, 0#32⟩))

/-- 43 R276: a gain step is odd bit for bit and monotone, wherever its products are not NaN. -/
def Obligations.GainIsOddAndMonotone : Prop :=
  ∀ m x y : Word, F32.isNaN (F32.mul m x) = false → F32.isNaN (F32.mul m y) = false →
    F32.mul m (F32.neg x) = F32.neg (F32.mul m x) ∧
    (F32.le 0#32 m = true → F32.le x y = true → F32.le (F32.mul m x) (F32.mul m y) = true) ∧
    (F32.lt m 0#32 = true → F32.le x y = true → F32.le (F32.mul m y) (F32.mul m x) = true)

/-- 44 R292: ATAN_SYM with a finite drive and CUBIC are odd bit for bit on every value but NaN. -/
def Obligations.SymmetricShapesAreOdd : Prop :=
  ∀ (r : Row) (x : Word), F32.isNaN x = false →
    (F32.isFinite r.w0 = true → shapeAtanSym r (F32.neg x) = F32.neg (shapeAtanSym r x)) ∧
    shapeCubic r (F32.neg x) = F32.neg (shapeCubic r x)

/-- 44 R293: on every row the resolver forms from a threshold that is no NaN, CUBIC maps every value but NaN to a finite
one. -/
def Obligations.CubicOutputIsFinite : Prop :=
  ∀ (p : Params) (g x : Word), F32.isNaN p.shT = false → F32.isNaN x = false →
    F32.isFinite (shapeCubic (rowShaper p g) x) = true

/-- 00 R11: an operation or a function of 00 R12 on a NaN operand gives a quiet NaN; every NaN the arithmetic delivers is
quiet, and so is every NaN that Sin32, Cos32 and Tan32 deliver for an infinity (00 R12 P_NAN). -/
def Obligations.NansAreQuietAndPropagate : Prop :=
  ∀ (a b : Word) (sb : Bool),
    (F32.isNaN a = true ∨ F32.isNaN b = true →
      F32.isNaN (F32.add a b) = true ∧ F32.isNaN (F32.sub a b) = true ∧ F32.isNaN (F32.mul a b) = true ∧
      F32.isNaN (F32.div a b) = true) ∧
    (∀ r ∈ [F32.add a b, F32.sub a b, F32.mul a b, F32.div a b, F32.sqrt a],
      F32.isNaN r = true → r.getLsbD 22 = true) ∧
    (F32.isNaN a = true → ∀ r ∈ [F32.sin32 sb a, F32.cos32 a, F32.tan32 a, F32.atan32 a, F32.sqrt a],
      F32.isNaN r = true ∧ r.getLsbD 22 = true) ∧
    (F32.isFinite a = false → ∀ r ∈ [F32.sin32 sb a, F32.cos32 a, F32.tan32 a],
      F32.isNaN r = true ∧ r.getLsbD 22 = true)

/-- 00 R12: the named properties P_NAN, P_ATAN_ODD, P_ATAN_BOUND, P_SIN_POS, P_COS_RANGE and P_TAN_POS of the
transcendental functions. P_DET is that they are functions, and that no step changes which functions Sin32 may be, which
is a field of the model's own (log 6). -/
def Obligations.TranscendentalsMeetTheirProperties : Prop :=
  (∀ s t : State, step s = .next t → t.sineBounded = s.sineBounded) ∧
  (∀ sb x, F32.isNaN x = true → F32.isNaN (F32.sin32 sb x) = true ∧ F32.isNaN (F32.cos32 x) = true ∧
    F32.isNaN (F32.tan32 x) = true ∧ F32.isNaN (F32.atan32 x) = true) ∧
  (∀ sb, ∀ x ∈ [0x7F800000#32, 0xFF800000#32], F32.isNaN (F32.sin32 sb x) = true ∧ F32.isNaN (F32.cos32 x) = true ∧
    F32.isNaN (F32.tan32 x) = true) ∧
  (∀ x, F32.isNaN x = false → F32.atan32 (F32.neg x) = F32.neg (F32.atan32 x)) ∧
  F32.atan32 0x00000000#32 = 0x00000000#32 ∧ F32.atan32 0x80000000#32 = 0x80000000#32 ∧
  (∀ x, F32.isNaN x = false → F32.le (F32.abs (F32.atan32 x)) 0x3FC90FDB#32 = true) ∧
  (∀ x y, F32.le x y = true → F32.le (F32.atan32 x) (F32.atan32 y) = true) ∧
  (∀ sb x, F32.lt 0#32 x = true → F32.le x 0x40450A6C#32 = true → F32.lt 0#32 (F32.sin32 sb x) = true) ∧
  (∀ x, F32.isFinite x = true → F32.le 0xBF800000#32 (F32.cos32 x) = true ∧ F32.le (F32.cos32 x) 0x3F800000#32 = true) ∧
  (∀ x, F32.lt 0#32 x = true → F32.le x 0x3FC50A6C#32 = true →
    F32.isFinite (F32.tan32 x) = true ∧ F32.lt 0#32 (F32.tan32 x) = true)

/-! The resolver. -/

/-- 41 R215 to R221, R225 to R227 and R230, with the formulas of R200 to R207, R210 and R211 and the clamps of 00 R15: the
eleven rows of a resolve, written out over the parameter registers, the normalised controls and the sample rate. `sb` says
which functions Sin32 may be (log 6). -/
def Obligations.RowsFollowTheirFormulas : Prop :=
  ∀ (sb : Bool) (p : Params) (g t v fs : Word),
    let clamp := fun x lo hi => if F32.isNaN x then x else
      let m := if F32.lt x lo then lo else x
      if F32.lt hi m then hi else m
    let clampNN := fun x => if F32.isNaN x then x else if F32.lt x 0x00000000#32 then 0x00000000#32 else x
    let clampF := fun x => clamp x 0x3F800000#32 (F32.mul fs 0x3EFAE148#32)
    let clampQ := fun x => clamp x 0x3D800000#32 0x42800000#32
    let clampPG := fun x => clamp x 0x3A800000#32 0x44800000#32
    let one := 0x3F800000#32
    let two := 0x40000000#32
    let cw := fun f => F32.cos32 (F32.mul 0x40C90FDB#32 (F32.div f fs))
    let alpha := fun f q => F32.div (F32.sin32 sb (F32.mul 0x40C90FDB#32 (F32.div f fs))) (F32.mul two q)
    let a1n := fun f => F32.mul 0xC0000000#32 (cw f)
    let normalise := fun b0n b1n b2n a0 a1n a2n f q pg =>
      (⟨F32.div b0n a0, F32.div b1n a0, F32.div b2n a0, F32.div a1n a0, F32.div a2n a0, f, q, pg⟩ : Row)
    let lowPass := fun f q =>
      let t1 := F32.sub one (cw f)
      let b0n := F32.div t1 two
      normalise b0n t1 b0n (F32.add one (alpha f q)) (a1n f) (F32.sub one (alpha f q)) f q 0#32
    let notch := fun f q =>
      normalise one (a1n f) one (F32.add one (alpha f q)) (a1n f) (F32.sub one (alpha f q)) f q 0#32
    let peak := fun f q pg =>
      let aA := F32.mul (alpha f q) (F32.sqrt pg)
      let aoA := F32.div (alpha f q) (F32.sqrt pg)
      normalise (F32.add one aA) (a1n f) (F32.sub one aA) (F32.add one aoA) (a1n f) (F32.sub one aoA) f q pg
    let k := fun f => F32.tan32 (F32.mul 0x40490FDB#32 (F32.div f fs))
    let den := fun f => F32.add (k f) one
    let pole := fun f => F32.div (F32.sub (k f) one) (den f)
    let quadratic := fun a b c => F32.add (F32.add (F32.mul (F32.mul a g) g) (F32.mul b g)) c
    let linear := fun a b => F32.add (F32.mul a g) b
    let gain := fun m m' => (⟨m, m', 0#32, 0#32, 0#32, 0#32, 0#32, 0#32⟩ : Row)
    let rows := resolveRows sb p g t v fs
    (let f := clampF (p.get .hpFc)
    let b0 := F32.div one (den f)
    rows.hpf = ⟨b0, F32.neg b0, 0#32, pole f, 0#32, f, 0#32, 0#32⟩) ∧
    rows.aaf = lowPass (clampF (F32.sub (F32.mul fs 0x3F000000#32) (p.get .aaMargin))) (clampQ (p.get .aaQ)) ∧
    rows.peak = peak (clampF (quadratic (p.get .pkFa) (p.get .pkFb) (p.get .pkFc)))
      (clampQ (linear (p.get .pkQa) (p.get .pkQb)))
      (clampPG (quadratic (p.get .pkGa) (p.get .pkGb) (p.get .pkGc))) ∧
    rows.notch = notch (clampF (quadratic (p.get .ntFa) (p.get .ntFb) (p.get .ntFc)))
      (clampQ (linear (p.get .ntQa) (p.get .ntQb))) ∧
    (let m := clampNN (F32.add one (F32.div (F32.add (p.get .r1) (linear (p.get .rg1) (p.get .rg0))) (p.get .r2)))
    rows.gainNi = gain m m) ∧
    (let m := clampNN (F32.div (p.get .rf) (p.get .rin))
    rows.gainInv = gain m (if (p.get .invPol).getLsbD 0 then F32.neg m else m)) ∧
    (let tc := clamp (p.get .shT) 0x00000000#32 0x3F700000#32
    let b := F32.div (F32.sub 0x40400000#32 tc) two
    let h := F32.sub b tc
    rows.shaper = ⟨clampNN (linear (p.get .shK1) (p.get .shK0)), tc, b,
      F32.div one (F32.mul (F32.mul 0x40400000#32 h) h), p.get .shMode, 0#32, 0#32, 0#32⟩) ∧
    rows.pclp = lowPass (clampF (p.get .pcFc)) (clampQ (p.get .pcQ)) ∧
    rows.tone = lowPass
      (clampF (F32.add (p.get .tnFmin) (F32.mul (F32.sub (p.get .tnFmax) (p.get .tnFmin)) t))) (clampQ (p.get .tnQ)) ∧
    (let f := clampF (F32.div one (F32.mul (F32.mul 0x40C90FDB#32 (p.get .ptR)) (p.get .ptC)))
    let b0 := F32.div (k f) (den f)
    rows.ptlp = ⟨b0, b0, 0#32, pole f, 0#32, f, 0#32, 0#32⟩) ∧
    rows.vol = gain (clampNN v) (clampNN v)

/-- 41 R245, R246, R247: a resolve gives all rows when every checked word is finite, and otherwise the first checked word
that is not, in increasing stage and then word; which words of each kind are checked; and what a state's resolve takes. -/
def Obligations.ResolveReportsTheFirstBadWord : Prop :=
  (∀ (s : State) (fs : Word), s.resolve fs = resolve s.sineBounded s.params s.normG s.normT s.normV fs) ∧
  (∀ k ∈ [StageKind.bqLp, .bqPeak, .bqNotch], checkedIndices k = [0, 1, 2, 3, 4]) ∧
  (∀ k ∈ [StageKind.foHp, .foLp], checkedIndices k = [0, 1, 3]) ∧
  (∀ k ∈ [StageKind.gainNi, .gainInv, .gainVol], checkedIndices k = [0, 1]) ∧
  checkedIndices .shaper = [0, 1, 2, 3] ∧
  ∀ (sb : Bool) (p : Params) (g t v fs : Word) (st : Stage) (i : Nat),
    let rows := resolveRows sb p g t v fs
    (resolve sb p g t v fs = .ok rows ↔
      ∀ st' : Stage, ∀ j ∈ checkedIndices st'.kind, F32.isFinite ((rows.get st').get j) = true) ∧
    (resolve sb p g t v fs = .error (st, i) ↔
      i ∈ checkedIndices st.kind ∧ F32.isFinite ((rows.get st).get i) = false ∧
      ∀ st' : Stage, ∀ j ∈ checkedIndices st'.kind, (st'.idx < st.idx ∨ (st' = st ∧ j < i)) →
        F32.isFinite ((rows.get st').get j) = true)

/-- 60 R311's example: with the reset parameters but P_R2 = 0.0, a PREPARE at 48000.0 with the controls at 5.0 meets its
first non-finite coefficient at stage 4, word 0, and STATUS then reads 0x0000201C. That the stages before it are finite
needs Sin32 to be at most 1.0, which 00 R12 does not name: it is a premise (log 6). -/
def Obligations.ZeroResistorFaultsAtStageFour : Prop :=
  ∀ s : State, SineAtMostOne s.sineBounded → s.pending = some 1#32 → s.status = Status.reset → s.specFs = 0x473B8000#32 → s.specMaxb = 256#32 →
    s.specNch = 1#32 → s.params = { Params.reset with r2 := 0#32 } → s.normG = 0x3F000000#32 →
    ∃ t, exec .prepare s = .next t ∧ t.faultInfo = 0x80000004#32 ∧ t.statusWord = 0x0000201C#32 ∧ t.coef = s.coef

/-- 41 R208: at a sample rate of at least 1.0, every biquad row of clamped inputs that are no NaN is finite, and `alpha` at
most 8. The rule needs Sin32 of the row's angle to be at most 1.0, which 00 R12 does not name: it is a premise (log 6). -/
def Obligations.BiquadRowsAreFinite : Prop :=
  ∀ (sb : Bool) (fs x qx px : Word), F32.isFinite fs = true → F32.le 0x3F800000#32 fs = true →
    F32.isNaN x = false → F32.isNaN qx = false → F32.isNaN px = false →
    let f := clampF fs x
    let q := clampQ qx
    let pg := clampPG px
    F32.le (F32.sin32 sb (angle fs f)) 0x3F800000#32 = true →
    F32.le 0#32 (alphaOf sb fs f q) = true ∧ F32.le (alphaOf sb fs f q) 0x41000000#32 = true ∧
    ∀ i, i < 5 →
      F32.isFinite ((lowPassRow (cosW fs f) (alphaOf sb fs f q) f q).get i) = true ∧
      F32.isFinite ((notchRow (cosW fs f) (alphaOf sb fs f q) f q).get i) = true ∧
      F32.isFinite ((peakRow (cosW fs f) (alphaOf sb fs f q) f q pg).get i) = true

/-- 41 R212: at a sample rate of at least 1.0 the first-order rows of a cutoff that is no NaN are finite, with the pole word
at most 1.0 in magnitude; the high-pass words `b0` and `b1` cancel exactly and the low-pass ones are equal. -/
def Obligations.FirstOrderRowsAreFinite : Prop :=
  ∀ fs x : Word, F32.isFinite fs = true → F32.le 0x3F800000#32 fs = true → F32.isNaN x = false →
    let f := clampF fs x
    let hp := highPass1Row (warp fs f) f
    let lp := lowPass1Row (warp fs f) f
    (∀ i ∈ [0, 1, 3], F32.isFinite (hp.get i) = true ∧ F32.isFinite (lp.get i) = true) ∧
    F32.le (F32.abs hp.w3) 0x3F800000#32 = true ∧ F32.le (F32.abs lp.w3) 0x3F800000#32 = true ∧
    F32.add hp.w0 hp.w1 = 0#32 ∧ lp.w0 = lp.w1

/-- 41 R235: the TONE cutoff is a non-decreasing function of TONE when P_TN_FMAX ≥ P_TN_FMIN are finite and their
difference is (the rule leaves out the difference that overflows). -/
def Obligations.ToneCutoffIsMonotone : Prop :=
  ∀ (p : Params) (fs c c' : Word), F32.isFinite fs = true → F32.lt 0#32 fs = true →
    F32.isFinite p.tnFmin = true → F32.isFinite p.tnFmax = true → F32.le p.tnFmin p.tnFmax = true →
    F32.isFinite (F32.sub p.tnFmax p.tnFmin) = true →
    legalControl c = true → legalControl c' = true → F32.le c c' = true →
    F32.le (toneCutoff p fs (F32.div c 0x41200000#32)) (toneCutoff p fs (F32.div c' 0x41200000#32)) = true

/-- 10 R47, R48, 00 R20, 41 R227: a clamped control lies in 0.0 to 10.0 and is a fixed point of the clamp; its tenth lies in
0.0 to 1.0, and the volume clamp leaves it. -/
def Obligations.ControlsStayInTheirRange : Prop :=
  (∀ w, legalControl (ctlClamp w) = true) ∧
  (∀ w, legalControl w = true → ctlClamp w = w) ∧
  (∀ w, legalControl w = true →
    F32.le 0#32 (F32.div w 0x41200000#32) = true ∧ F32.le (F32.div w 0x41200000#32) 0x3F800000#32 = true ∧
    F32.clampNN (F32.div w 0x41200000#32) = F32.div w 0x41200000#32)

/-- 10 R52: writing back the four words read from GAIN, TONE, VOLUME and BYPASS, whose values are legal in every reachable
state (StepKeepsInv), restores them and changes nothing else. -/
def Obligations.PersistedControlsAreRestored : Prop :=
  ∀ s u : State, legalControl s.gain = true → legalControl s.tone = true → legalControl s.volume = true →
    runSteps 4 (u.given (Script.restore (s.readReg .gain) (s.readReg .tone) (s.readReg .volume) (s.readReg .bypass))) =
      .next { u.given [] with gain := s.gain, tone := s.tone, volume := s.volume, bypass := s.bypass }

/-! Encodings and steps. -/

/-- 30 R120 to R136: decoding the encoding of a well-formed instruction gives it back, for every instruction and operand. -/
def Obligations.DecodeOfEncode : Prop :=
  ∀ i : Instr, i.wf = true → decode (encode i) = .ok i

/-- 30 R120 to R136: an instruction has one encoding, and what decodes is well formed. -/
def Obligations.EncodeOfDecode : Prop :=
  ∀ (code : Code) (i : Instr), decode code = .ok i → encode i = code ∧ i.wf = true

/-- 30 R124, R127, R130, R135: some words, written out from their tables, and what they decode to; of the host writes, every
offset that has an operation (10 R53, 20 R97). -/
def Obligations.WordsDecodeAsTheTablesSay : Prop :=
  decode (.command 0x00040002#32) = .ok (.process 4#16) ∧
  decode (.command 0x00010001#32) = .error (.illegalCommand 0x00010001#32) ∧
  decode (.hostWrite 0x040#16 0x40F00000#32) = .ok (.setGain 0x40F00000#32) ∧
  decode (.hostWrite 0x184#16 0x322BCC77#32) = .ok (.setParamPtC 0x322BCC77#32) ∧
  decode (.hostWrite 0xC004#16 0x3F000000#32) = .ok (.writeBuf .ch1 1#12 0x3F000000#32) ∧
  decode (.hostWrite 0x038#16 0#32) = .error (.noWriteOperation 0x038#16) ∧
  decode (.hostRead 0x95C#16) = .ok (.read 0x95C#16) ∧
  decode (.stageKind 0x08#8 .ch1 .ptlp 0x3F800000#32) = .ok (.stageFoLp .ch1 .ptlp 0x3F800000#32) ∧
  decode (.stageKind 0x0A#8 .ch0 .vol 0#32) = .error (.reservedStageKind 0x0A#8) ∧
  decode (.shaperMode 2#32 0xBF800000#32) = .ok (.shaperModeCubic 0xBF800000#32) ∧
  (∀ v : Word, ∀ r ∈ hostWrites v, decode (.hostWrite r.1 v) = .ok r.2) ∧
  ∀ (n : BitVec 12) (v : Word),
    decode (.hostWrite (BitVec.ofNat 16 (0x8000 + 4 * n.toNat)) v) = .ok (.writeBuf .ch0 n v) ∧
    decode (.hostWrite (BitVec.ofNat 16 (0xC000 + 4 * n.toNat)) v) = .ok (.writeBuf .ch1 n v)

/-- A step runs the decoded instruction: the command in flight at its completion, a host operation when its access comes,
at a window offset or at the physical address of that offset, a stage operation when its call does. -/
def Obligations.StepRunsTheDecodedInstruction : Prop :=
  ∀ (s : State) (i : Instr) (rest : List Event),
    (∀ w, s.pending = some w → decode (.command w) = .ok i →
      step (s.given (.complete :: rest)) = exec i (s.given rest) ∧ step (s.given []) = exec i (s.given [])) ∧
    (∀ off v, decode (.hostWrite off v) = .ok i →
      step (s.given (.window off ⟨.write, .w32, v⟩ :: rest)) = exec i (s.given rest) ∧
      step (s.given (.physical (Config.base + off.toNat) ⟨.write, .w32, v⟩ :: rest)) = exec i (s.given rest)) ∧
    (∀ off v, decode (.hostRead off) = .ok i →
      step (s.given (.window off ⟨.read, .w32, v⟩ :: rest)) = exec i (s.given rest) ∧
      step (s.given (.physical (Config.base + off.toNat) ⟨.read, .w32, v⟩ :: rest)) = exec i (s.given rest)) ∧
    (∀ call : StageCall, decode call.toCode = .ok i →
      step { s with env := { s.env with stageCall := some call } } =
        exec i { s with env := { s.env with stageCall := none } })

/-- The invariant holds after reset. -/
def Obligations.InvHoldsAtReset : Prop := State.reset.Inv

/-- Every step keeps the invariant: the buffer's canonical form, the legal controls and snapshot, the normalised controls,
a prepared block's valid ACTIVE registers, FATAL with its record, finite checked coefficients, a legal shaper mode, the
words that stay +0.0, and `abortRange`. -/
def Obligations.StepKeepsInv : Prop :=
  ∀ s t : State, s.Inv → step s = .next t → t.Inv

end
end

