-- ==== Sys2Proof/Laws/Float.lean ====
section
/-! SUPPORT. The laws of binary32 arithmetic: how words are put together, and what rounding keeps. -/

namespace Sys2Proof.Machine.F32

/-! Words as sign and magnitude. -/

theorem toNat_eq (x : Word) : x.toNat = (if sign x then 0x80000000 else 0) + mag x := by
  have h := BitVec.msb_eq_decide x
  simp only [sign, mag, h, decide_eq_true_eq]
  have := x.isLt
  split <;> omega

theorem mag_lt (x : Word) : mag x < 0x80000000 := Nat.mod_lt _ (by decide)

/-- A word is its sign and its magnitude. -/
theorem eq_of_sign_mag {x y : Word} (h1 : sign x = sign y) (h2 : mag x = mag y) : x = y := by
  apply BitVec.eq_of_toNat_eq
  rw [toNat_eq x, toNat_eq y, h1, h2]

theorem toNat_pack (sg : Bool) (m : Nat) :
    (pack sg m).toNat = (if sg then 0x80000000 else 0) + min m infMag := by
  simp only [pack, infMag, BitVec.toNat_ofNat]
  cases sg <;> simp <;> omega

@[simp] theorem mag_pack (sg : Bool) (m : Nat) : mag (pack sg m) = min m infMag := by
  rw [mag, toNat_pack]
  simp only [infMag]
  cases sg <;> simp

@[simp] theorem sign_pack (sg : Bool) (m : Nat) : sign (pack sg m) = sg := by
  rw [sign, BitVec.msb_eq_decide, toNat_pack]
  simp only [infMag]
  cases sg <;> simp

theorem isNaN_pack (sg : Bool) (m : Nat) : isNaN (pack sg m) = false := by
  simp [isNaN]

/-- A value that is no NaN is the word of its sign and magnitude. -/
theorem pack_sign_mag {x : Word} (h : isNaN x = false) : pack (sign x) (mag x) = x := by
  apply eq_of_sign_mag
  · simp
  · simp only [isNaN, decide_eq_false_iff_not] at h
    simp only [mag_pack]; omega

theorem pack_inj {sg sg' : Bool} {m m' : Nat} (h : pack sg m = pack sg' m') :
    sg = sg' ∧ min m infMag = min m' infMag := by
  constructor
  · have := congrArg sign h; simpa using this
  · have := congrArg mag h; simpa using this

@[simp] theorem mag_neg (x : Word) : mag (neg x) = mag x := by
  have h : (neg x).toNat = x.toNat ^^^ 0x80000000 := by simp [neg]
  have hx := x.isLt
  simp only [mag, h]
  have e : (0x80000000 : Nat) = 2 ^ 31 := by decide
  rw [e, Nat.xor_mod_two_pow]; simp

@[simp] theorem sign_neg (x : Word) : sign (neg x) = !sign x := by
  have h : (0x80000000#32).msb = true := by decide
  simp only [sign, neg, BitVec.msb_xor, h, Bool.xor_true]

@[simp] theorem neg_neg (x : Word) : neg (neg x) = x := by
  apply eq_of_sign_mag <;> simp

@[simp] theorem isNaN_neg (x : Word) : isNaN (neg x) = isNaN x := by simp [isNaN]
@[simp] theorem isInf_neg (x : Word) : isInf (neg x) = isInf x := by simp [isInf]
@[simp] theorem isFinite_neg (x : Word) : isFinite (neg x) = isFinite x := by simp [isFinite]
@[simp] theorem isZero_neg (x : Word) : isZero (neg x) = isZero x := by simp [isZero]
@[simp] theorem units_neg (x : Word) : units (neg x) = units x := by simp [units]

@[simp] theorem neg_pack (sg : Bool) (m : Nat) : neg (pack sg m) = pack (!sg) m := by
  apply eq_of_sign_mag <;> simp

@[simp] theorem neg_zeroOf (sg : Bool) : neg (zeroOf sg) = zeroOf (!sg) := neg_pack _ _
@[simp] theorem neg_infOf (sg : Bool) : neg (infOf sg) = infOf (!sg) := neg_pack _ _
@[simp] theorem neg_ofRatio (sg : Bool) (n d : Nat) : neg (ofRatio sg n d) = ofRatio (!sg) n d := neg_pack _ _

theorem toNat_append' {m n : Nat} (a : BitVec m) (b : BitVec n) : (a ++ b).toNat = a.toNat * 2 ^ n + b.toNat := by
  rw [BitVec.toNat_append, ← Nat.shiftLeft_add_eq_or_of_lt b.isLt, Nat.shiftLeft_eq]

/-- An operation's NaN is a NaN, whatever the free bits (00 R11). -/
@[simp] theorem isNaN_quietNaN (op : FpOp) (x y : Word) : isNaN (quietNaN op x y) = true := by
  unfold quietNaN
  generalize Config.nanBits op x y = p
  have h1 : (p.extractLsb' 22 1).toNat < 2 := (p.extractLsb' 22 1).isLt
  have h2 : (p.extractLsb' 0 22).toNat < 2 ^ 22 := (p.extractLsb' 0 22).isLt
  unfold isNaN mag infMag
  rw [decide_eq_true_eq, toNat_append', toNat_append']
  have h3 : (0x1FF#9).toNat = 511 := by decide
  rw [h3]
  generalize (p.extractLsb' 22 1).toNat = a at *
  generalize (p.extractLsb' 0 22).toNat = b at *
  omega

/-- It is quiet: bit 22 is set (00 R11). -/
theorem quiet_quietNaN (op : FpOp) (x y : Word) : (quietNaN op x y).getLsbD 22 = true := by
  unfold quietNaN
  simp only [BitVec.getLsbD_append]
  rw [if_pos (by decide), if_neg (by decide)]
  decide

theorem isFinite_of_isNaN {x : Word} (h : isNaN x = true) : isFinite x = false := by
  simp only [isNaN, isFinite, decide_eq_true_eq, decide_eq_false_iff_not] at *
  omega

/-! Rounding. `unitsOf m` is the value of the magnitude `m` in units of 2^-149; it is also defined past the largest finite
magnitude, where it is the value a format with more exponents would have. -/

/-- The value of a magnitude in units of 2^-149 (00 R6). -/
@[irreducible] def unitsOf (m : Nat) : Nat :=
  if m / 0x800000 = 0 then m else (0x800000 + m % 0x800000) * 2 ^ (m / 0x800000 - 1)

theorem units_eq (x : Word) : units x = unitsOf (mag x) := by
  unfold units unitsOf
  rfl

theorem unitsOf_small {m : Nat} (h : m < 0x1000000) : unitsOf m = m := by
  unfold unitsOf
  split
  · rfl
  · have : m / 0x800000 = 1 := by omega
    rw [this]; omega

/-- A magnitude with exponent field `e + 1` and fraction `f`. -/
theorem unitsOf_normal (e f : Nat) (hf : f < 0x800000) :
    unitsOf ((e + 1) * 0x800000 + f) = (0x800000 + f) * 2 ^ e := by
  unfold unitsOf
  have h1 : ((e + 1) * 0x800000 + f) / 0x800000 = e + 1 := by omega
  have h2 : ((e + 1) * 0x800000 + f) % 0x800000 = f := by omega
  rw [h1, h2]; simp

/-- Every magnitude is below 2^24 or has an exponent field. -/
theorem mag_cases (m : Nat) : m < 0x1000000 ∨ ∃ e f, 1 ≤ e ∧ f < 0x800000 ∧ m = (e + 1) * 0x800000 + f := by
  rcases Nat.lt_or_ge m 0x1000000 with h | h
  · exact .inl h
  · exact .inr ⟨m / 0x800000 - 1, m % 0x800000, by omega, by omega, by omega⟩

theorem roundHalfEven_le {n d m : Nat} (hd : 0 < d) (h : n ≤ m * d) : roundHalfEven n d ≤ m := by
  have e := Nat.div_add_mod n d
  have hr := Nat.mod_lt n hd
  unfold roundHalfEven
  simp only
  generalize n / d = q at *
  generalize n % d = r at *
  have hq : q ≤ m := by
    by_contra hc
    have : (m + 1) * d ≤ q * d := Nat.mul_le_mul_right _ (by omega)
    nlinarith
  have hq' : 0 < r → q + 1 ≤ m := by
    intro h0
    by_contra hc
    have : q = m := by omega
    subst this
    nlinarith
  split
  · exact hq
  · split
    · exact hq' (by omega)
    · rcases Nat.eq_zero_or_pos r with h0 | h0
      · omega
      · have := hq' h0; omega

theorem le_roundHalfEven {n d m : Nat} (hd : 0 < d) (h : m * d ≤ n) : m ≤ roundHalfEven n d := by
  have hq : m ≤ n / d := (Nat.le_div_iff_mul_le hd).2 h
  unfold roundHalfEven
  simp only
  split
  · exact hq
  · split <;> omega

/-- Rounding to a whole number is monotone in the exact value. -/
theorem roundHalfEven_mono {n d n' d' : Nat} (hd : 0 < d) (hd' : 0 < d') (h : n * d' ≤ n' * d) :
    roundHalfEven n d ≤ roundHalfEven n' d' := by
  have e := Nat.div_add_mod n d
  have e' := Nat.div_add_mod n' d'
  have hr := Nat.mod_lt n hd
  have hr' := Nat.mod_lt n' hd'
  have hq : n / d ≤ n' / d' := by
    rw [Nat.le_div_iff_mul_le hd']
    have h1 : n / d * d ≤ n := Nat.div_mul_le_self n d
    have h2 : (n / d * d') * d ≤ n' * d := by nlinarith
    exact Nat.le_of_mul_le_mul_right h2 hd
  unfold roundHalfEven
  simp only
  generalize n / d = q at *
  generalize n' / d' = q' at *
  generalize n % d = r at *
  generalize n' % d' = r' at *
  rcases Nat.lt_or_ge q q' with hlt | hge
  · split <;> split <;> (try split) <;> (try split) <;> omega
  · have hqq : q = q' := by omega
    subst hqq
    have hrr : r * d' ≤ r' * d := by nlinarith
    have k1 : d < 2 * r → d' < 2 * r' := by intro k; by_contra hc; nlinarith
    have k2 : d = 2 * r → d' ≤ 2 * r' := by intro k; by_contra hc; nlinarith
    have k3 : ¬ 2 * r < d → ¬ 2 * r' < d' := by intro k; by_contra hc; nlinarith
    split <;> split <;> (try split) <;> (try split) <;> omega

/-- The exponent `roundMag` works with, and what it says of the exact value. -/
theorem roundMag_cases (n d : Nat) (hd : 0 < d) :
    (n < 0x1000000 * d ∧ roundMag n d = roundHalfEven n d) ∨
    ∃ e, 1 ≤ e ∧ 0x800000 * 2 ^ e * d ≤ n ∧ n < 0x1000000 * 2 ^ e * d ∧
      roundMag n d = e * 0x800000 + roundHalfEven n (d * 2 ^ e) := by
  unfold roundMag
  simp only
  generalize hL : Nat.log2 (n / d) = L
  have h1 : n / d < 2 ^ (L + 1) := hL ▸ Nat.lt_log2_self
  have hn : n < 2 ^ (L + 1) * d := (Nat.div_lt_iff_lt_mul hd).1 h1
  rcases Nat.lt_or_ge L 24 with h | h
  · left
    have e0 : L - 23 = 0 := by omega
    have : 2 ^ (L + 1) ≤ 2 ^ 24 := Nat.pow_le_pow_right (by decide) (by omega)
    constructor
    · have := Nat.mul_le_mul_right d this; omega
    · rw [e0]; simp
  · right
    obtain ⟨e, rfl⟩ : ∃ e, L = e + 23 := ⟨L - 23, by omega⟩
    have h0 : n / d ≠ 0 := by
      intro h0; rw [h0, Nat.log2_zero] at hL; omega
    have h2 : 2 ^ (e + 23) ≤ n / d := hL ▸ Nat.log2_self_le h0
    have h3 : 2 ^ (e + 23) * d ≤ n := (Nat.le_div_iff_mul_le hd).1 h2
    refine ⟨e, by omega, ?_, ?_, by simp⟩
    · rw [Nat.pow_add] at h3; nlinarith
    · rw [show e + 23 + 1 = e + 24 by omega, Nat.pow_add] at hn; nlinarith

/-- Rounding never passes a representable value: from above. -/
theorem roundMag_le {n d m : Nat} (hd : 0 < d) (h : n ≤ unitsOf m * d) : roundMag n d ≤ m := by
  rcases roundMag_cases n d hd with ⟨hn, he⟩ | ⟨e, h1, hlo, hhi, he⟩
  · rw [he]
    rcases Nat.lt_or_ge m 0x1000000 with hm | hm
    · rw [unitsOf_small hm] at h
      exact roundHalfEven_le hd h
    · exact Nat.le_trans (roundHalfEven_le hd (Nat.le_of_lt hn)) hm
  · rw [he]
    have hd' : 0 < d * 2 ^ e := Nat.mul_pos hd (Nat.two_pow_pos e)
    rcases mag_cases m with hm | ⟨E, f, hE, hf, rfl⟩
    · rw [unitsOf_small hm] at h
      exfalso
      have : 0x1000000 * d ≤ 0x800000 * 2 ^ e * d := by
        apply Nat.mul_le_mul_right
        have : 2 ^ 1 ≤ 2 ^ e := Nat.pow_le_pow_right (by decide) h1
        omega
      have : m * d < 0x1000000 * d := Nat.mul_lt_mul_of_pos_right hm hd
      omega
    · rw [unitsOf_normal E f hf] at h
      have hEe : e ≤ E := by
        by_contra hc
        have hp : 2 ^ E * 2 ≤ 2 ^ e := by
          rw [← Nat.pow_succ]; exact Nat.pow_le_pow_right (by decide) (by omega)
        have a1 : (0x800000 + f) * 2 ^ E < 0x800000 * 2 ^ e := by nlinarith [Nat.two_pow_pos E]
        have := Nat.mul_lt_mul_of_pos_right a1 hd
        omega
      rcases Nat.eq_or_lt_of_le hEe with rfl | hlt
      · have : roundHalfEven n (d * 2 ^ e) ≤ 0x800000 + f :=
          roundHalfEven_le hd' (by rw [show (0x800000 + f) * (d * 2 ^ e) = (0x800000 + f) * 2 ^ e * d by ring]; exact h)
        omega
      · have : roundHalfEven n (d * 2 ^ e) ≤ 0x1000000 :=
          roundHalfEven_le hd' (by rw [show 0x1000000 * (d * 2 ^ e) = 0x1000000 * 2 ^ e * d by ring]; omega)
        omega

/-- Rounding never passes a representable value: from below. -/
theorem le_roundMag {n d m : Nat} (hd : 0 < d) (h : unitsOf m * d ≤ n) : m ≤ roundMag n d := by
  rcases roundMag_cases n d hd with ⟨hn, he⟩ | ⟨e, h1, hlo, hhi, he⟩
  · rw [he]
    rcases mag_cases m with hm | ⟨E, f, hE, hf, rfl⟩
    · rw [unitsOf_small hm] at h
      exact le_roundHalfEven hd h
    · exfalso
      rw [unitsOf_normal E f hf] at h
      have hp : 2 ^ 1 ≤ 2 ^ E := Nat.pow_le_pow_right (by decide) hE
      have a1 : 0x1000000 ≤ (0x800000 + f) * 2 ^ E := by nlinarith
      have := Nat.mul_le_mul_right d a1
      omega
  · rw [he]
    have hd' : 0 < d * 2 ^ e := Nat.mul_pos hd (Nat.two_pow_pos e)
    have hlow : 0x800000 ≤ roundHalfEven n (d * 2 ^ e) :=
      le_roundHalfEven hd' (by rw [show 0x800000 * (d * 2 ^ e) = 0x800000 * 2 ^ e * d by ring]; exact hlo)
    rcases mag_cases m with hm | ⟨E, f, hE, hf, rfl⟩
    · omega
    · rw [unitsOf_normal E f hf] at h
      have hEe : E ≤ e := by
        by_contra hc
        have hp : 2 ^ e * 2 ≤ 2 ^ E := by
          rw [← Nat.pow_succ]; exact Nat.pow_le_pow_right (by decide) (by omega)
        have a1 : 0x1000000 * 2 ^ e ≤ (0x800000 + f) * 2 ^ E := by nlinarith [Nat.two_pow_pos e]
        have := Nat.mul_le_mul_right d a1
        omega
      rcases Nat.eq_or_lt_of_le hEe with rfl | hlt
      · have : 0x800000 + f ≤ roundHalfEven n (d * 2 ^ E) :=
          le_roundHalfEven hd' (by rw [show (0x800000 + f) * (d * 2 ^ E) = (0x800000 + f) * 2 ^ E * d by ring]; exact h)
        omega
      · omega

/-- A representable value rounds to itself. -/
theorem roundMag_exact (m d : Nat) (hd : 0 < d) : roundMag (unitsOf m * d) d = m :=
  Nat.le_antisymm (roundMag_le hd (Nat.le_refl _)) (le_roundMag hd (Nat.le_refl _))

/-- Rounding is monotone in the exact value (00 R7). -/
theorem roundMag_mono {n d n' d' : Nat} (hd : 0 < d) (hd' : 0 < d') (h : n * d' ≤ n' * d) :
    roundMag n d ≤ roundMag n' d' := by
  rcases roundMag_cases n d hd with ⟨hn, he⟩ | ⟨e, h1, hlo, hhi, he⟩
  · rcases roundMag_cases n' d' hd' with ⟨hn', he'⟩ | ⟨e', h1', hlo', hhi', he'⟩
    · rw [he, he']; exact roundHalfEven_mono hd hd' h
    · rw [he, he']
      have k1 : roundHalfEven n d ≤ 0x1000000 := roundHalfEven_le hd (Nat.le_of_lt hn)
      have k2 : 0x800000 ≤ roundHalfEven n' (d' * 2 ^ e') :=
        le_roundHalfEven (Nat.mul_pos hd' (Nat.two_pow_pos e')) (by
          rw [show 0x800000 * (d' * 2 ^ e') = 0x800000 * 2 ^ e' * d' by ring]; exact hlo')
      omega
  · have hde := Nat.mul_pos hd (Nat.two_pow_pos e)
    rcases roundMag_cases n' d' hd' with ⟨hn', he'⟩ | ⟨e', h1', hlo', hhi', he'⟩
    · exfalso
      have hp : 2 ^ 1 ≤ 2 ^ e := Nat.pow_le_pow_right (by decide) h1
      have a1 : 0x1000000 * d ≤ n := Nat.le_trans (Nat.mul_le_mul_right d (by omega)) hlo
      have a2 := Nat.mul_le_mul_right d' a1
      have a3 := Nat.mul_lt_mul_of_pos_right hn' hd
      have a4 : 0x1000000 * d * d' = 0x1000000 * d' * d := by ring
      omega
    · have hde' := Nat.mul_pos hd' (Nat.two_pow_pos e')
      rw [he, he']
      have hee : e ≤ e' := by
        by_contra hc
        have hp : 2 ^ e' * 2 ≤ 2 ^ e := by
          rw [← Nat.pow_succ]; exact Nat.pow_le_pow_right (by decide) (by omega)
        have a1 : 0x1000000 * 2 ^ e' * d ≤ n := Nat.le_trans (Nat.mul_le_mul_right d (by omega)) hlo
        have a2 := Nat.mul_le_mul_right d' a1
        have a3 := Nat.mul_lt_mul_of_pos_right hhi' hd
        have a4 : 0x1000000 * 2 ^ e' * d * d' = 0x1000000 * 2 ^ e' * d' * d := by ring
        omega
      rcases Nat.eq_or_lt_of_le hee with rfl | hlt
      · have : roundHalfEven n (d * 2 ^ e) ≤ roundHalfEven n' (d' * 2 ^ e) :=
          roundHalfEven_mono hde hde' (by
            rw [show n * (d' * 2 ^ e) = n * d' * 2 ^ e by ring, show n' * (d * 2 ^ e) = n' * d * 2 ^ e by ring]
            exact Nat.mul_le_mul_right _ h)
        omega
      · have k1 : roundHalfEven n (d * 2 ^ e) ≤ 0x1000000 :=
          roundHalfEven_le hde (by rw [show 0x1000000 * (d * 2 ^ e) = 0x1000000 * 2 ^ e * d by ring]; omega)
        have k2 : 0x800000 ≤ roundHalfEven n' (d' * 2 ^ e') :=
          le_roundHalfEven hde' (by
            rw [show 0x800000 * (d' * 2 ^ e') = 0x800000 * 2 ^ e' * d' by ring]; exact hlo')
        omega

/-- The greater magnitude has the greater value. -/
theorem unitsOf_le_iff {m m' : Nat} : unitsOf m ≤ unitsOf m' ↔ m ≤ m' := by
  constructor
  · intro h
    have := roundMag_le (n := unitsOf m) (d := 1) (m := m') (by decide) (by simpa using h)
    have e := roundMag_exact m 1 (by decide)
    rw [Nat.mul_one] at e
    omega
  · intro h
    by_contra hc
    have := roundMag_le (n := unitsOf m') (d := 1) (m := m) (by decide) (by simp; omega)
    have e := roundMag_exact m' 1 (by decide)
    rw [Nat.mul_one] at e
    have hm : m = m' := by omega
    subst hm
    exact hc (Nat.le_refl _)

theorem unitsOf_lt_iff {m m' : Nat} : unitsOf m < unitsOf m' ↔ m < m' := by
  have := @unitsOf_le_iff m' m
  omega

theorem unitsOf_pos {m : Nat} (h : 0 < m) : 0 < unitsOf m := by
  have := (@unitsOf_lt_iff 0 m).2 h
  omega

@[simp] theorem unitsOf_zero : unitsOf 0 = 0 := by decide +kernel

/-! What an operation's result lies between. -/

/-- The result of an exact value at most that of the finite magnitude `m` is at most it. -/
theorem mag_ofRatio_le (sg : Bool) {n d m : Nat} (hd : 0 < d) (h : n ≤ unitsOf m * d) : mag (ofRatio sg n d) ≤ m := by
  have := roundMag_le hd h
  simp only [ofRatio, mag_pack]; omega

/-- The result of an exact value at least that of the finite magnitude `m` is at least it. -/
theorem le_mag_ofRatio (sg : Bool) {n d m : Nat} (hd : 0 < d) (hm : m ≤ infMag) (h : unitsOf m * d ≤ n) :
    m ≤ mag (ofRatio sg n d) := by
  have := le_roundMag hd h
  simp only [ofRatio, mag_pack]; omega

theorem mag_ofRatio_mono (sg sg' : Bool) {n d n' d' : Nat} (hd : 0 < d) (hd' : 0 < d') (h : n * d' ≤ n' * d) :
    mag (ofRatio sg n d) ≤ mag (ofRatio sg' n' d') := by
  have := roundMag_mono hd hd' h
  simp only [ofRatio, mag_pack]; omega

/-- A finite value, recomputed exactly, is itself. -/
theorem ofRatio_exact (sg : Bool) {m d : Nat} (hd : 0 < d) : ofRatio sg (unitsOf m * d) d = pack sg m := by
  rw [ofRatio, roundMag_exact m d hd]

@[simp] theorem isNaN_ofRatio (sg : Bool) (n d : Nat) : isNaN (ofRatio sg n d) = false := isNaN_pack _ _
@[simp] theorem sign_ofRatio (sg : Bool) (n d : Nat) : sign (ofRatio sg n d) = sg := sign_pack _ _

theorem isFinite_iff {x : Word} : isFinite x = true ↔ mag x < infMag := by simp [isFinite]

theorem isNaN_of_isFinite {x : Word} (h : isFinite x = true) : isNaN x = false := by
  simp only [isFinite, isNaN, decide_eq_true_eq, decide_eq_false_iff_not] at *; omega

theorem isInf_of_isFinite {x : Word} (h : isFinite x = true) : isInf x = false := by
  simp only [isFinite, isInf, decide_eq_true_eq, beq_eq_false_iff_ne] at *; omega

/-! The operations on finite values. -/

theorem mul_finite {x y : Word} (hx : isFinite x = true) (hy : isFinite y = true) :
    mul x y = ofRatio (sign x != sign y) (units x * units y) (2 ^ 149) := by
  simp [mul, isNaN_of_isFinite hx, isNaN_of_isFinite hy, isInf_of_isFinite hx, isInf_of_isFinite hy]

theorem div_finite {x y : Word} (hx : isFinite x = true) (hy : isFinite y = true) (h0 : isZero y = false) :
    div x y = ofRatio (sign x != sign y) (units x * 2 ^ 149) (units y) := by
  simp [div, isNaN_of_isFinite hx, isNaN_of_isFinite hy, isInf_of_isFinite hx, isInf_of_isFinite hy, h0]

theorem add_finite {x y : Word} (hx : isFinite x = true) (hy : isFinite y = true) : add x y = addFinite x y := by
  simp [add, sumOf, isNaN_of_isFinite hx, isNaN_of_isFinite hy, isInf_of_isFinite hx, isInf_of_isFinite hy]

theorem sub_finite {x y : Word} (hx : isFinite x = true) (hy : isFinite y = true) : sub x y = addFinite x (neg y) := by
  simp [sub, sumOf, isNaN_of_isFinite hx, isNaN_of_isFinite hy, isInf_of_isFinite hx, isInf_of_isFinite hy]

/-- A sum's magnitude is the rounded magnitude of the exact sum. -/
theorem mag_addFinite (x y : Word) : mag (addFinite x y) = min (roundMag (toInt x + toInt y).natAbs 1) infMag := by
  unfold addFinite
  simp only
  split
  · rename_i h
    rw [h]
    simp only [zeroOf, mag_pack]
    decide
  · simp [ofRatio]

theorem isNaN_addFinite (x y : Word) : isNaN (addFinite x y) = false := by
  unfold addFinite
  simp only
  split
  · exact isNaN_pack _ _
  · simp

end Sys2Proof.Machine.F32
end

