-- ==== Sys2Proof/Laws/Bounds.lean ====
section
/-! SUPPORT. How great the results of the operations can be, and which rows of the resolver are finite. -/

namespace Sys2Proof.Machine.F32

theorem natAbs_toInt (x : Word) : (toInt x).natAbs = units x := by
  unfold toInt; split <;> simp

theorem toInt_nonneg {x : Word} (h : sign x = false) : toInt x = units x := by simp [toInt, h]

theorem toInt_neg (x : Word) : toInt (neg x) = - toInt x := by
  unfold toInt
  simp only [sign_neg, units_neg]
  cases sign x <;> simp

theorem units_le {x : Word} {a : Nat} (h : mag x ≤ a) : units x ≤ unitsOf a := by
  rw [units_eq]; exact unitsOf_le_iff.2 h

theorem le_units {x : Word} {a : Nat} (h : a ≤ mag x) : unitsOf a ≤ units x := by
  rw [units_eq]; exact unitsOf_le_iff.2 h

theorem natAbs_add_le {x y : Word} {a b : Nat} (ha : mag x ≤ a) (hb : mag y ≤ b) :
    (toInt x + toInt y).natAbs ≤ unitsOf a + unitsOf b := by
  refine Nat.le_trans (Int.natAbs_add_le _ _) ?_
  rw [natAbs_toInt, natAbs_toInt]
  exact Nat.add_le_add (units_le ha) (units_le hb)

/-- The magnitude of a sum of bounded values. -/
theorem mag_add_le {x y : Word} {a b c : Nat} (hx : isFinite x = true) (hy : isFinite y = true) (ha : mag x ≤ a)
    (hb : mag y ≤ b) (hc : roundMag (unitsOf a + unitsOf b) 1 ≤ c) : mag (add x y) ≤ c := by
  rw [add_finite hx hy, mag_addFinite]
  have h := roundMag_mono (d := 1) (d' := 1) Nat.one_pos Nat.one_pos (Nat.mul_le_mul_right 1 (natAbs_add_le ha hb))
  exact Nat.le_trans (Nat.min_le_left _ _) (Nat.le_trans h hc)

theorem mag_sub_le {x y : Word} {a b c : Nat} (hx : isFinite x = true) (hy : isFinite y = true) (ha : mag x ≤ a)
    (hb : mag y ≤ b) (hc : roundMag (unitsOf a + unitsOf b) 1 ≤ c) : mag (sub x y) ≤ c := by
  have hy' : isFinite (neg y) = true := by rw [isFinite_neg]; exact hy
  have hb' : mag (neg y) ≤ b := by rw [mag_neg]; exact hb
  have h := mag_add_le hx hy' ha hb' hc
  rw [add_finite hx hy'] at h
  rw [sub_finite hx hy]
  exact h

theorem le_natAbs_add {x y : Word} {b : Nat} (sx : sign x = false) (sy : sign y = false)
    (h : b ≤ mag x ∨ b ≤ mag y) : unitsOf b ≤ (toInt x + toInt y).natAbs := by
  rw [toInt_nonneg sx, toInt_nonneg sy, ← Int.natCast_add, Int.natAbs_natCast]
  rcases h with h | h
  · exact Nat.le_trans (le_units h) (Nat.le_add_right _ _)
  · exact Nat.le_trans (le_units h) (Nat.le_add_left _ _)

/-- A sum of two values that are not negative is at least each of them. -/
theorem le_mag_add {x y : Word} {b : Nat} (hx : isFinite x = true) (hy : isFinite y = true) (sx : sign x = false)
    (sy : sign y = false) (hb : b ≤ infMag) (h : b ≤ mag x ∨ b ≤ mag y) : b ≤ mag (add x y) := by
  rw [add_finite hx hy, mag_addFinite]
  have h1 := le_natAbs_add sx sy h
  have h2 := le_roundMag (d := 1) Nat.one_pos (Nat.le_trans (Nat.le_of_eq (Nat.mul_one _)) h1)
  exact Nat.le_min.2 ⟨h2, hb⟩

/-- The magnitude of a product of bounded values. -/
theorem mag_mul_le {x y : Word} {a b c : Nat} (hx : isFinite x = true) (hy : isFinite y = true) (ha : mag x ≤ a)
    (hb : mag y ≤ b) (hc : roundMag (unitsOf a * unitsOf b) (2 ^ 149) ≤ c) : mag (mul x y) ≤ c := by
  rw [mul_finite hx hy, ofRatio, mag_pack]
  have h1 : units x * units y ≤ unitsOf a * unitsOf b := Nat.mul_le_mul (units_le ha) (units_le hb)
  have h2 := roundMag_mono (Nat.two_pow_pos 149) (Nat.two_pow_pos 149) (Nat.mul_le_mul_right (2 ^ 149) h1)
  exact Nat.le_trans (Nat.min_le_left _ _) (Nat.le_trans h2 hc)

/-- The magnitude of a quotient of a bounded value by one that is bounded away from zero. -/
theorem mag_div_le {x y : Word} {a b c : Nat} (hx : isFinite x = true) (hy : isFinite y = true) (ha : mag x ≤ a)
    (h0 : 0 < b) (hb : b ≤ mag y) (hc : unitsOf a * 2 ^ 149 ≤ unitsOf c * unitsOf b) : mag (div x y) ≤ c := by
  have hz : isZero y = false := by
    rw [isZero, beq_eq_false_iff_ne]
    exact Nat.ne_of_gt (Nat.lt_of_lt_of_le h0 hb)
  rw [div_finite hx hy hz]
  have hu : unitsOf b ≤ units y := le_units hb
  apply mag_ofRatio_le
  · exact Nat.lt_of_lt_of_le (unitsOf_pos h0) hu
  · exact Nat.le_trans (Nat.mul_le_mul_right _ (units_le ha)) (Nat.le_trans hc (Nat.mul_le_mul_left _ hu))

theorem isFinite_of_mag_le {x : Word} {a : Nat} (h : mag x ≤ a) (ha : a < infMag) : isFinite x = true :=
  isFinite_iff.2 (Nat.lt_of_le_of_lt h ha)

/-- Not NaN, and between -1.0 and 1.0. -/
theorem mag_le_one_of_le {x : Word} (h1 : le NEG_ONE x = true) (h2 : le x ONE = true) : mag x ≤ 0x3F800000 := by
  simp only [le, Bool.and_eq_true, decide_eq_true_eq] at h1 h2
  have k1 : key NEG_ONE = -0x3F800000 := by decide +kernel
  have k2 : key ONE = 0x3F800000 := by decide +kernel
  rw [k1] at h1; rw [k2] at h2
  unfold key at h1 h2
  cases hs : sign x <;> simp [hs] at h1 h2 <;> omega

/-- Above +0.0 and at most a bound without sign. -/
theorem pos_of_lt {x : Word} (h : lt 0#32 x = true) : isNaN x = false ∧ sign x = false ∧ 0 < mag x := by
  simp only [lt, Bool.and_eq_true, decide_eq_true_eq, Bool.not_eq_true'] at h
  have k1 : key 0#32 = 0 := by decide +kernel
  rw [k1] at h
  unfold key at h
  cases hs : sign x <;> simp [hs] at h
  · exact ⟨h.1.2, rfl, by omega⟩
  · omega

theorem mag_le_of_le {x y : Word} (sy : sign y = false) (h : le x y = true) (hx : sign x = false) : mag x ≤ mag y := by
  simp only [le, Bool.and_eq_true, decide_eq_true_eq] at h
  unfold key at h
  simp [hx, sy] at h
  omega

/-- Cos32 of a finite value is at most 1.0 in magnitude (00 R12 `P_COS_RANGE`). -/
theorem mag_cos32_le {w : Word} (h : isFinite w = true) : mag (cos32 w) ≤ 0x3F800000 := by
  unfold cos32
  rw [if_pos h]
  simp only
  split
  · rename_i hc
    simp only [Bool.and_eq_true] at hc
    exact mag_le_one_of_le hc.1 hc.2
  · decide +kernel

/-- Sin32 of an angle up to W_MAX is positive (00 R12 `P_SIN_POS`), and at most 1.0 where it is bounded (log 6). -/
theorem sin32_cases (sb : Bool) {w : Word} (h0 : lt 0#32 w = true) (h1 : le w W_MAX = true) :
    lt 0#32 (sin32 sb w) = true ∧ (sb = true → le (sin32 sb w) ONE = true) := by
  have hp := pos_of_lt h0
  have hm := mag_le_of_le (y := W_MAX) (by decide +kernel) h1 hp.2.1
  have hW : mag W_MAX < infMag := by decide +kernel
  have hf : isFinite w = true := isFinite_iff.2 (by omega)
  unfold sin32
  rw [if_pos hf]
  simp only [h0, h1, Bool.true_and, Bool.not_eq_true']
  split
  · exact ⟨by decide +kernel, fun _ => by decide +kernel⟩
  · rename_i hc
    simp only [Bool.not_eq_false, Bool.and_eq_true, Bool.or_eq_true, Bool.not_eq_true'] at hc
    refine ⟨hc.1, fun hb => hc.2.resolve_left ?_⟩
    rw [hb]
    decide

/-- Every function Sin32 may be where it is bounded stays at most 1.0 (log 6). -/
theorem sineAtMostOne_true : SineAtMostOne true := fun _ h0 h1 => (sin32_cases true h0 h1).2 rfl

/-- The magnitude of a Sin32 that is at most 1.0. -/
theorem sin32_bounds (sb : Bool) {w : Word} (h0 : lt 0#32 w = true) (h1 : le w W_MAX = true)
    (hs : le (sin32 sb w) ONE = true) :
    sign (sin32 sb w) = false ∧ 0 < mag (sin32 sb w) ∧ mag (sin32 sb w) ≤ 0x3F800000 :=
  have h3 := pos_of_lt (sin32_cases sb h0 h1).1
  ⟨h3.2.1, h3.2.2, mag_le_of_le (y := ONE) (by decide +kernel) hs h3.2.1⟩

/-- Tan32 of an angle up to A_MAX is finite and positive (00 R12 `P_TAN_POS`). -/
theorem tan32_bounds {w : Word} (h0 : lt 0#32 w = true) (h1 : le w A_MAX = true) :
    sign (tan32 w) = false ∧ 0 < mag (tan32 w) ∧ isFinite (tan32 w) = true := by
  have hp := pos_of_lt h0
  have hm := mag_le_of_le (y := A_MAX) (by decide +kernel) h1 hp.2.1
  have hW : mag A_MAX < infMag := by decide +kernel
  have hf : isFinite w = true := isFinite_iff.2 (by omega)
  unfold tan32
  rw [if_pos hf]
  simp only [h0, h1, Bool.true_and, Bool.not_eq_true']
  split
  · decide +kernel
  · rename_i hc
    simp only [Bool.not_eq_false, Bool.and_eq_true] at hc
    have h3 := pos_of_lt hc.2
    exact ⟨h3.2.1, h3.2.2, hc.1⟩

end Sys2Proof.Machine.F32

namespace Sys2Proof.Machine

open F32

/-- `a0` of a biquad row: finite, and at least 1.0 (41 R208). -/
theorem one_add_bounds {x : Word} {c : Nat} (sx : sign x = false) (hx : mag x ≤ 0x43800000)
    (hc : roundMag (unitsOf 0x3F800000 + unitsOf 0x43800000) 1 ≤ c) (hi : c < infMag) :
    isFinite (add ONE x) = true ∧ 0x3F800000 ≤ mag (add ONE x) ∧ mag (add ONE x) ≤ c := by
  have fx : isFinite x = true := isFinite_of_mag_le hx (by decide +kernel)
  have f1 : isFinite ONE = true := by decide +kernel
  have h1 := mag_add_le f1 fx (Nat.le_refl _) hx hc
  exact ⟨isFinite_of_mag_le h1 hi, le_mag_add f1 fx (by decide +kernel) sx (by decide +kernel) (.inl (by decide +kernel)), h1⟩

/-- A low-pass row is finite where the cosine is at most 1.0 in magnitude and `alpha` lies between 0.0 and 8.0
(41 R204, R208). -/
theorem lowPassRow_finite {cw alpha : Word} (f q : Word) (hc : mag cw ≤ 0x3F800000) (sa : sign alpha = false)
    (ha : mag alpha ≤ 0x41000000) : ∀ i ∈ [0, 1, 2, 3, 4], isFinite ((lowPassRow cw alpha f q).get i) = true := by
  have f1 : isFinite ONE = true := by decide +kernel
  have f2 : isFinite TWO = true := by decide +kernel
  have fn2 : isFinite NEG_TWO = true := by decide +kernel
  have fc : isFinite cw = true := isFinite_of_mag_le hc (by decide +kernel)
  have fa : isFinite alpha = true := isFinite_of_mag_le ha (by decide +kernel)
  obtain ⟨fa0, la0, -⟩ := one_add_bounds (c := 0x43808000) sa (Nat.le_trans ha (by decide +kernel)) (by decide +kernel) (by decide +kernel)
  have t1 : mag (sub ONE cw) ≤ 0x40000000 := mag_sub_le f1 fc (Nat.le_refl _) hc (by decide +kernel)
  have ft1 := isFinite_of_mag_le t1 (by decide +kernel)
  have b0 : mag (div (sub ONE cw) TWO) ≤ 0x3F800000 := mag_div_le ft1 f2 t1 (by decide +kernel) (Nat.le_refl _) (by decide +kernel)
  have fb0 := isFinite_of_mag_le b0 (by decide +kernel)
  have a1 : mag (mul NEG_TWO cw) ≤ 0x40000000 := mag_mul_le fn2 fc (Nat.le_refl _) hc (by decide +kernel)
  have fa1 := isFinite_of_mag_le a1 (by decide +kernel)
  have a2 : mag (sub ONE alpha) ≤ 0x41100000 := mag_sub_le f1 fa (Nat.le_refl _) ha (by decide +kernel)
  have fa2 := isFinite_of_mag_le a2 (by decide +kernel)
  have key : ∀ x, isFinite x = true → mag x ≤ 0x41100000 → isFinite (div x (add ONE alpha)) = true :=
    fun x fx hx => isFinite_of_mag_le (mag_div_le fx fa0 hx (by decide +kernel) la0 (c := 0x41100000) (by decide +kernel)) (by decide +kernel)
  intro i hi
  simp only [List.mem_cons, List.not_mem_nil, or_false] at hi
  rcases hi with rfl | rfl | rfl | rfl | rfl
  · simp only [lowPassRow, normalise, Row.get]; exact key _ fb0 (Nat.le_trans b0 (by decide +kernel))
  · simp only [lowPassRow, normalise, Row.get]; exact key _ ft1 (Nat.le_trans t1 (by decide +kernel))
  · simp only [lowPassRow, normalise, Row.get]; exact key _ fb0 (Nat.le_trans b0 (by decide +kernel))
  · simp only [lowPassRow, normalise, Row.get]; exact key _ fa1 (Nat.le_trans a1 (by decide +kernel))
  · simp only [lowPassRow, normalise, Row.get]; exact key _ fa2 (Nat.le_trans a2 (by decide +kernel))

/-- A notch row is finite (41 R205, R208). -/
theorem notchRow_finite {cw alpha : Word} (f q : Word) (hc : mag cw ≤ 0x3F800000) (sa : sign alpha = false)
    (ha : mag alpha ≤ 0x41000000) : ∀ i ∈ [0, 1, 2, 3, 4], isFinite ((notchRow cw alpha f q).get i) = true := by
  have f1 : isFinite ONE = true := by decide +kernel
  have fn2 : isFinite NEG_TWO = true := by decide +kernel
  have fc : isFinite cw = true := isFinite_of_mag_le hc (by decide +kernel)
  have fa : isFinite alpha = true := isFinite_of_mag_le ha (by decide +kernel)
  obtain ⟨fa0, la0, -⟩ := one_add_bounds (c := 0x43808000) sa (Nat.le_trans ha (by decide +kernel)) (by decide +kernel) (by decide +kernel)
  have a1 : mag (mul NEG_TWO cw) ≤ 0x40000000 := mag_mul_le fn2 fc (Nat.le_refl _) hc (by decide +kernel)
  have fa1 := isFinite_of_mag_le a1 (by decide +kernel)
  have a2 : mag (sub ONE alpha) ≤ 0x41100000 := mag_sub_le f1 fa (Nat.le_refl _) ha (by decide +kernel)
  have fa2 := isFinite_of_mag_le a2 (by decide +kernel)
  have key : ∀ x, isFinite x = true → mag x ≤ 0x41100000 → isFinite (div x (add ONE alpha)) = true :=
    fun x fx hx => isFinite_of_mag_le (mag_div_le fx fa0 hx (by decide +kernel) la0 (c := 0x41100000) (by decide +kernel)) (by decide +kernel)
  have m1 : mag ONE ≤ 0x41100000 := by decide +kernel
  intro i hi
  simp only [List.mem_cons, List.not_mem_nil, or_false] at hi
  rcases hi with rfl | rfl | rfl | rfl | rfl
  · simp only [notchRow, normalise, Row.get]; exact key _ f1 m1
  · simp only [notchRow, normalise, Row.get]; exact key _ fa1 (Nat.le_trans a1 (by decide +kernel))
  · simp only [notchRow, normalise, Row.get]; exact key _ f1 m1
  · simp only [notchRow, normalise, Row.get]; exact key _ fa1 (Nat.le_trans a1 (by decide +kernel))
  · simp only [notchRow, normalise, Row.get]; exact key _ fa2 (Nat.le_trans a2 (by decide +kernel))

/-- A peaking row is finite where the root of its gain factor lies between 2^-5 and 32 (41 R206, R208). -/
theorem peakRow_finite {cw alpha pg : Word} (f q : Word) (hc : mag cw ≤ 0x3F800000) (sa : sign alpha = false)
    (ha : mag alpha ≤ 0x41000000) (sp : sign (sqrt pg) = false) (h1 : 0x3D000000 ≤ mag (sqrt pg))
    (h2 : mag (sqrt pg) ≤ 0x42000000) :
    ∀ i ∈ [0, 1, 2, 3, 4], isFinite ((peakRow cw alpha f q pg).get i) = true := by
  have f1 : isFinite ONE = true := by decide +kernel
  have fn2 : isFinite NEG_TWO = true := by decide +kernel
  have fc : isFinite cw = true := isFinite_of_mag_le hc (by decide +kernel)
  have fa : isFinite alpha = true := isFinite_of_mag_le ha (by decide +kernel)
  have fA : isFinite (sqrt pg) = true := isFinite_of_mag_le h2 (by decide +kernel)
  have aA : mag (mul alpha (sqrt pg)) ≤ 0x43800000 := mag_mul_le fa fA ha h2 (by decide +kernel)
  have faA := isFinite_of_mag_le aA (by decide +kernel)
  have aoA : mag (div alpha (sqrt pg)) ≤ 0x43800000 := mag_div_le fa fA ha (by decide +kernel) h1 (by decide +kernel)
  have faoA := isFinite_of_mag_le aoA (by decide +kernel)
  have hz : isZero (sqrt pg) = false := by
    rw [isZero, beq_eq_false_iff_ne]
    exact Nat.ne_of_gt (Nat.lt_of_lt_of_le (by decide +kernel) h1)
  have saA : sign (mul alpha (sqrt pg)) = false := by rw [mul_finite fa fA]; simp [sa, sp]
  have saoA : sign (div alpha (sqrt pg)) = false := by rw [div_finite fa fA hz]; simp [sa, sp]
  obtain ⟨fa0, la0, -⟩ := one_add_bounds (c := 0x43808000) saoA aoA (by decide +kernel) (by decide +kernel)
  obtain ⟨fb0, -, lb0⟩ := one_add_bounds (c := 0x43808000) saA aA (by decide +kernel) (by decide +kernel)
  have a1 : mag (mul NEG_TWO cw) ≤ 0x40000000 := mag_mul_le fn2 fc (Nat.le_refl _) hc (by decide +kernel)
  have fa1 := isFinite_of_mag_le a1 (by decide +kernel)
  have a2 : mag (sub ONE (div alpha (sqrt pg))) ≤ 0x43808000 := mag_sub_le f1 faoA (Nat.le_refl _) aoA (by decide +kernel)
  have fa2 := isFinite_of_mag_le a2 (by decide +kernel)
  have b2 : mag (sub ONE (mul alpha (sqrt pg))) ≤ 0x43808000 := mag_sub_le f1 faA (Nat.le_refl _) aA (by decide +kernel)
  have fb2 := isFinite_of_mag_le b2 (by decide +kernel)
  have key : ∀ x, isFinite x = true → mag x ≤ 0x43808000 →
      isFinite (div x (add ONE (div alpha (sqrt pg)))) = true :=
    fun x fx hx => isFinite_of_mag_le (mag_div_le fx fa0 hx (by decide +kernel) la0 (c := 0x43808000) (by decide +kernel)) (by decide +kernel)
  intro i hi
  simp only [List.mem_cons, List.not_mem_nil, or_false] at hi
  rcases hi with rfl | rfl | rfl | rfl | rfl
  · simp only [peakRow, normalise, Row.get]; exact key _ fb0 lb0
  · simp only [peakRow, normalise, Row.get]; exact key _ fa1 (Nat.le_trans a1 (by decide +kernel))
  · simp only [peakRow, normalise, Row.get]; exact key _ fb2 b2
  · simp only [peakRow, normalise, Row.get]; exact key _ fa1 (Nat.le_trans a1 (by decide +kernel))
  · simp only [peakRow, normalise, Row.get]; exact key _ fa2 a2

/-- `K + 1.0` and `K - 1.0` for a finite positive `K` (41 R202, R212). -/
theorem warp_bounds {k : Word} (fk : isFinite k = true) (sk : sign k = false) :
    isFinite (add k ONE) = true ∧ 0x3F800000 ≤ mag (add k ONE) ∧ mag k ≤ mag (add k ONE) ∧
    isFinite (sub k ONE) = true ∧ mag (sub k ONE) ≤ mag (add k ONE) := by
  have f1 : isFinite ONE = true := by decide +kernel
  have hk := isFinite_iff.1 fk
  have hm : mag k ≤ 0x7F7FFFFF := by unfold infMag at hk; omega
  have s1 := mag_add_le fk f1 hm (Nat.le_refl _) (c := 0x7F7FFFFF) (by decide +kernel)
  have fs := isFinite_of_mag_le s1 (by decide +kernel)
  have h1 := le_mag_add (b := 0x3F800000) fk f1 sk (by decide +kernel) (by decide +kernel) (.inr (by decide +kernel))
  have h2 := le_mag_add (b := mag k) fk f1 sk (by decide +kernel) (by omega) (.inl (Nat.le_refl _))
  have h3 : mag (sub k ONE) ≤ mag (add k ONE) := by
    rw [sub_finite fk f1, add_finite fk f1, mag_addFinite, mag_addFinite, toInt_neg, toInt_nonneg sk,
      toInt_nonneg (x := ONE) (by decide +kernel)]
    have := roundMag_mono (n := ((units k : Int) + -(units ONE : Int)).natAbs) (n' := ((units k : Int) + units ONE).natAbs)
      (d := 1) (d' := 1) (by decide +kernel) (by decide +kernel) (by omega)
    omega
  exact ⟨fs, h1, h2, isFinite_of_mag_le (Nat.le_trans h3 s1) (by decide +kernel), h3⟩

/-- A quotient by a value of at least the magnitude is at most 1.0. -/
theorem mag_div_le_one {x y : Word} (fx : isFinite x = true) (fy : isFinite y = true) (h0 : 0 < mag y)
    (h : mag x ≤ mag y) : mag (div x y) ≤ 0x3F800000 :=
  mag_div_le fx fy h h0 (Nat.le_refl _) (by
    rw [show unitsOf 0x3F800000 = 2 ^ 149 by decide +kernel, Nat.mul_comm])

/-- The first-order rows are finite for a finite positive `K` (41 R210, R211, R212). -/
theorem pass1Row_finite {k : Word} (f : Word) (fk : isFinite k = true) (sk : sign k = false) :
    ∀ i ∈ [0, 1, 3], isFinite ((highPass1Row k f).get i) = true ∧ isFinite ((lowPass1Row k f).get i) = true := by
  obtain ⟨fd, ld, lk, fs, ls⟩ := warp_bounds fk sk
  have f1 : isFinite ONE = true := by decide +kernel
  have p : 0 < mag (add k ONE) := by omega
  have m1 : mag ONE = 0x3F800000 := by decide +kernel
  have h1 := mag_div_le_one f1 fd p (by omega)
  have h2 := mag_div_le_one fk fd p lk
  have h3 := mag_div_le_one fs fd p ls
  have g1 : isFinite (div ONE (add k ONE)) = true := isFinite_of_mag_le h1 (by decide +kernel)
  have g2 : isFinite (div k (add k ONE)) = true := isFinite_of_mag_le h2 (by decide +kernel)
  have g3 : isFinite (div (sub k ONE) (add k ONE)) = true := isFinite_of_mag_le h3 (by decide +kernel)
  intro i hi
  simp only [List.mem_cons, List.not_mem_nil, or_false] at hi
  rcases hi with rfl | rfl | rfl
  · simp only [highPass1Row, lowPass1Row, Row.get]; exact ⟨g1, g2⟩
  · simp only [highPass1Row, lowPass1Row, Row.get, isFinite_neg]; exact ⟨g1, g2⟩
  · simp only [highPass1Row, lowPass1Row, Row.get]; exact ⟨g3, g3⟩

end Sys2Proof.Machine
end

