-- ==== Sys2Proof/Laws/Order.lean ====
section
/-! SUPPORT. The order of binary32 values (00 R14) and the clamps (00 R15), by the key of a value. -/

namespace Sys2Proof.Machine.F32

theorem lt_iff {x y : Word} : lt x y = true ↔ isNaN x = false ∧ isNaN y = false ∧ key x < key y := by
  simp [lt, and_assoc]

theorem le_iff {x y : Word} : le x y = true ↔ isNaN x = false ∧ isNaN y = false ∧ key x ≤ key y := by
  simp [le, and_assoc]

/-- The key of a clamped value, when the bounds are in order (00 R15). -/
theorem clamp_spec {x lo hi : Word} (hx : isNaN x = false) (hlo : isNaN lo = false) (hhi : isNaN hi = false)
    (h : key lo ≤ key hi) :
    isNaN (clamp x lo hi) = false ∧ key (clamp x lo hi) = max (key lo) (min (key x) (key hi)) := by
  unfold clamp
  rw [if_neg (by simp [hx])]
  simp only
  by_cases a : key x < key lo
  · have e : lt x lo = true := lt_iff.2 ⟨hx, hlo, a⟩
    have f : ¬ lt hi lo = true := fun k => by have := (lt_iff.1 k).2.2; omega
    rw [if_pos e, if_neg f]
    exact ⟨hlo, by omega⟩
  · have e : ¬ lt x lo = true := fun k => a (lt_iff.1 k).2.2
    rw [if_neg e]
    by_cases b : key hi < key x
    · rw [if_pos (lt_iff.2 ⟨hhi, hx, b⟩)]
      exact ⟨hhi, by omega⟩
    · rw [if_neg (fun k => b (lt_iff.1 k).2.2)]
      exact ⟨hx, by omega⟩

/-- A clamped value is one of the three. -/
theorem clamp_mem (x lo hi : Word) : clamp x lo hi = x ∨ clamp x lo hi = lo ∨ clamp x lo hi = hi := by
  unfold clamp
  simp only
  repeat' split
  all_goals simp

/-- A value inside the bounds is left alone (00 R15). -/
theorem clamp_eq {x lo hi : Word} (h1 : le lo x = true) (h2 : le x hi = true) : clamp x lo hi = x := by
  have k1 := le_iff.1 h1
  have k2 := le_iff.1 h2
  unfold clamp
  rw [if_neg (by simp [k1.2.1])]
  simp only
  rw [if_neg (c := lt x lo = true) (fun k => by have := (lt_iff.1 k).2.2; omega)]
  rw [if_neg (fun k => by have := (lt_iff.1 k).2.2; omega)]

/-- A NaN passes a clamp (00 R15). -/
theorem clamp_nan {x : Word} (lo hi : Word) (h : isNaN x = true) : clamp x lo hi = x := by simp [clamp, h]

/-- The key of a value without its sign. -/
theorem key_pos {x : Word} (h : sign x = false) : key x = mag x := by simp [key, h]

theorem key_neg {x : Word} (h : sign x = true) : key x = -(mag x : Int) := by simp [key, h]

theorem key_neg_eq (x : Word) : key (neg x) = - key x := by
  unfold key
  rw [sign_neg, mag_neg]
  cases sign x <;> simp

/-- The key is at least the key of a positive value only for a positive value. -/
theorem sign_of_key {x : Word} (h : 0 < key x) : sign x = false ∧ 0 < mag x := by
  unfold key at h
  split at h
  · omega
  · exact ⟨by simpa using ‹¬ sign x = true›, by omega⟩

/-! The operations keep the order, each rounding being monotone (00 R7). -/

/-- The key of a packed value. -/
theorem key_pack (sg : Bool) (m : Nat) : key (pack sg m) = if sg then -((min m infMag : Nat) : Int) else (min m infMag : Nat) := by
  unfold key
  rw [sign_pack, mag_pack]

/-- The key of the rounded integer `v`. -/
def keyOfInt (v : Int) : Int := if v < 0 then -((min (roundMag v.natAbs 1) infMag : Nat) : Int) else (min (roundMag v.natAbs 1) infMag : Nat)

theorem roundMag_mono_one {a b : Nat} (h : a ≤ b) : roundMag a 1 ≤ roundMag b 1 :=
  roundMag_mono (d := 1) (d' := 1) Nat.one_pos Nat.one_pos (Nat.mul_le_mul_right 1 h)

theorem keyOfInt_mono {v w : Int} (h : v ≤ w) : keyOfInt v ≤ keyOfInt w := by
  unfold keyOfInt
  by_cases hv : v < 0
  · rw [if_pos hv]
    by_cases hw : w < 0
    · rw [if_pos hw]
      have := roundMag_mono_one (a := w.natAbs) (b := v.natAbs) (by omega)
      generalize roundMag w.natAbs 1 = a at *
      generalize roundMag v.natAbs 1 = b at *
      omega
    · rw [if_neg hw]
      generalize roundMag w.natAbs 1 = a
      generalize roundMag v.natAbs 1 = b
      omega
  · have := roundMag_mono_one (a := v.natAbs) (b := w.natAbs) (by omega)
    rw [if_neg hv, if_neg (by omega)]
    generalize roundMag w.natAbs 1 = a at *
    generalize roundMag v.natAbs 1 = b at *
    omega

/-- The key of a finite sum. -/
theorem key_addFinite (x y : Word) : key (addFinite x y) = keyOfInt (toInt x + toInt y) := by
  unfold addFinite
  simp only
  split
  · rename_i h
    rw [h, zeroOf, key_pack]
    have : keyOfInt 0 = 0 := by decide +kernel
    rw [this]
    cases (sign x && sign y) <;> rfl
  · rw [ofRatio, key_pack]
    unfold keyOfInt
    by_cases hv : toInt x + toInt y < 0
    · rw [if_pos hv, decide_eq_true hv, if_pos rfl]
    · rw [if_neg hv, decide_eq_false hv, if_neg (by decide)]

/-- Signed magnitudes under a monotone map of magnitudes that fixes zero keep their order. -/
theorem signed_mono {a b m n : Nat} {sx sy : Bool} (h1 : m ≤ n → a ≤ b) (h2 : n ≤ m → b ≤ a) (zx : m = 0 → a = 0)
    (zy : n = 0 → b = 0) (h : (if sx then -(m : Int) else (m : Int)) ≤ if sy then -(n : Int) else (n : Int)) :
    (if sx then -(a : Int) else (a : Int)) ≤ if sy then -(b : Int) else (b : Int) := by
  cases sx <;> cases sy <;> simp only [if_true, if_false, Bool.false_eq_true] at h ⊢
  · have := h1 (by omega)
    omega
  · have := zx (by omega)
    have := zy (by omega)
    omega
  · omega
  · have := h2 (by omega)
    omega

/-- The key orders the integers of finite values. -/
theorem toInt_mono {x y : Word} (h : key x ≤ key y) : toInt x ≤ toInt y := by
  have z : ∀ w : Word, mag w = 0 → units w = 0 := fun w hw => by rw [units_eq, hw, unitsOf_zero]
  have u : ∀ v w : Word, mag v ≤ mag w → units v ≤ units w := fun v w hw => by
    rw [units_eq, units_eq]; exact unitsOf_le_iff.2 hw
  exact signed_mono (u x y) (u y x) (z x) (z y) h

/-- Addition of finite values is monotone. -/
theorem key_add_mono {x x' y : Word} (hx : isFinite x = true) (hx' : isFinite x' = true) (hy : isFinite y = true)
    (h : key x ≤ key x') : key (add y x) ≤ key (add y x') := by
  rw [add_finite hy hx, add_finite hy hx', key_addFinite, key_addFinite]
  exact keyOfInt_mono (Int.add_le_add_left (toInt_mono h) _)

/-- Multiplication of finite values by one that is not negative is monotone. -/
theorem key_mul_mono {m x y : Word} (hm : isFinite m = true) (hx : isFinite x = true) (hy : isFinite y = true)
    (sm : sign m = false) (h : key x ≤ key y) : key (mul m x) ≤ key (mul m y) := by
  rw [mul_finite hm hx, mul_finite hm hy, ofRatio, ofRatio, key_pack, key_pack, sm, Bool.false_bne, Bool.false_bne]
  have mono : ∀ a b : Word, mag a ≤ mag b →
      min (roundMag (units m * units a) (2 ^ 149)) infMag ≤ min (roundMag (units m * units b) (2 ^ 149)) infMag := by
    intro a b hab
    have hu : units a ≤ units b := by rw [units_eq, units_eq]; exact unitsOf_le_iff.2 hab
    have := roundMag_mono (Nat.two_pow_pos 149) (Nat.two_pow_pos 149)
      (Nat.mul_le_mul_right (2 ^ 149) (Nat.mul_le_mul_left (units m) hu))
    exact Nat.le_min.2 ⟨Nat.le_trans (Nat.min_le_left _ _) this, Nat.min_le_right _ _⟩
  have z : ∀ w : Word, mag w = 0 → min (roundMag (units m * units w) (2 ^ 149)) infMag = 0 := by
    intro w hw
    rw [units_eq w, hw, unitsOf_zero, Nat.mul_zero]
    decide +kernel
  exact signed_mono (mono x y) (mono y x) (z x) (z y) h

/-- Division of finite values by a positive one is monotone. -/
theorem key_div_mono {x y d : Word} (hd : isFinite d = true) (hx : isFinite x = true) (hy : isFinite y = true)
    (sd : sign d = false) (h0 : 0 < mag d) (h : key x ≤ key y) : key (div x d) ≤ key (div y d) := by
  have hz : isZero d = false := by
    rw [isZero, beq_eq_false_iff_ne]
    exact Nat.ne_of_gt h0
  have hu : 0 < units d := by rw [units_eq]; exact unitsOf_pos h0
  rw [div_finite hx hd hz, div_finite hy hd hz, ofRatio, ofRatio, key_pack, key_pack, sd, Bool.bne_false, Bool.bne_false]
  have mono : ∀ a b : Word, mag a ≤ mag b →
      min (roundMag (units a * 2 ^ 149) (units d)) infMag ≤ min (roundMag (units b * 2 ^ 149) (units d)) infMag := by
    intro a b hab
    have hu' : units a ≤ units b := by rw [units_eq, units_eq]; exact unitsOf_le_iff.2 hab
    have := roundMag_mono hu hu (Nat.mul_le_mul_right (units d) (Nat.mul_le_mul_right (2 ^ 149) hu'))
    exact Nat.le_min.2 ⟨Nat.le_trans (Nat.min_le_left _ _) this, Nat.min_le_right _ _⟩
  have z : ∀ w : Word, mag w = 0 → min (roundMag (units w * 2 ^ 149) (units d)) infMag = 0 := by
    intro w hw
    rw [units_eq w, hw, unitsOf_zero, Nat.zero_mul]
    have : roundMag 0 (units d) ≤ 0 := roundMag_le hu (Nat.zero_le _)
    exact Nat.le_zero.1 (Nat.le_trans (Nat.min_le_left _ _) this)
  exact signed_mono (mono x y) (mono y x) (z x) (z y) h

/-- The order under which clamping is monotone, also when the bounds cross (00 R15). -/
theorem key_clamp {x lo hi : Word} (hx : isNaN x = false) (hlo : isNaN lo = false) (hhi : isNaN hi = false) :
    isNaN (clamp x lo hi) = false ∧ key (clamp x lo hi) = min (max (key x) (key lo)) (key hi) := by
  unfold clamp
  rw [if_neg (by simp [hx])]
  simp only
  by_cases a : key x < key lo
  · rw [if_pos (lt_iff.2 ⟨hx, hlo, a⟩)]
    by_cases b : key hi < key lo
    · rw [if_pos (lt_iff.2 ⟨hhi, hlo, b⟩)]; exact ⟨hhi, by omega⟩
    · rw [if_neg (fun k => b (lt_iff.1 k).2.2)]; exact ⟨hlo, by omega⟩
  · rw [if_neg (c := lt x lo = true) (fun k => a (lt_iff.1 k).2.2)]
    by_cases b : key hi < key x
    · rw [if_pos (lt_iff.2 ⟨hhi, hx, b⟩)]; exact ⟨hhi, by omega⟩
    · rw [if_neg (fun k => b (lt_iff.1 k).2.2)]; exact ⟨hx, by omega⟩

end Sys2Proof.Machine.F32
end

