-- ==== Sys2Proof/Laws/Resolver.lean ====
section
/-! SUPPORT. What a resolve can answer (41 R245 to R247), and when the rows of a stage pass its check. -/

namespace Sys2Proof.Machine

open F32

/-- A resolve that succeeds gives the rows of the formulas, every checked word finite (41 R245, R247). -/
theorem resolve_ok_iff {sb : Bool} {p : Params} {g t v fs : Word} {rows : CoefFile} :
    resolve sb p g t v fs = .ok rows ↔
      rows = resolveRows sb p g t v fs ∧ ∀ w ∈ checkedWords, isFinite ((rows.get w.1).get w.2) = true := by
  unfold resolve firstNonfinite
  simp only
  constructor
  · intro h
    split at h
    · cases h
    · rename_i hn
      injection h with h
      subst h
      refine ⟨rfl, fun w hw => ?_⟩
      have := List.find?_eq_none.1 hn w hw
      simpa using this
  · rintro ⟨rfl, h⟩
    have : checkedWords.find? (fun w => !isFinite (((resolveRows sb p g t v fs).get w.1).get w.2)) = none := by
      rw [List.find?_eq_none]
      intro w hw
      simp [h w hw]
    rw [this]

/-- A resolve that fails names a checked word that is not finite (41 R246). -/
theorem resolve_error {sb : Bool} {p : Params} {g t v fs : Word} {st : Stage} {i : Nat}
    (h : resolve sb p g t v fs = .error (st, i)) :
    (st, i) ∈ checkedWords ∧ isFinite (((resolveRows sb p g t v fs).get st).get i) = false := by
  unfold resolve firstNonfinite at h
  simp only at h
  split at h
  · rename_i f hf
    injection h with h
    subst h
    exact ⟨List.mem_of_find?_eq_some hf, by simpa using List.find?_some hf⟩
  · cases h

/-- The rows of a resolve pass the check when every stage's words do. -/
theorem resolve_ok_of_rows {sb : Bool} {p : Params} {g t v fs : Word}
    (h : ∀ st : Stage, ∀ i ∈ checkedIndices st.kind, isFinite (((resolveRows sb p g t v fs).get st).get i) = true) :
    resolve sb p g t v fs = .ok (resolveRows sb p g t v fs) := by
  rw [resolve_ok_iff]
  refine ⟨rfl, ?_⟩
  rintro ⟨st, i⟩ hw
  simp only [checkedWords, List.mem_flatMap, List.mem_map, Prod.mk.injEq] at hw
  obtain ⟨s, -, j, hj, rfl, rfl⟩ := hw
  exact h s j hj

/-- `alpha` lies between 0.0 and 8.0 for an angle up to W_MAX whose Sin32 is at most 1.0 and a Q of at least Q_LO
(41 R201, R208). -/
theorem alphaOf_bounds {sb : Bool} {fs f q : Word} (h0 : lt 0#32 (angle fs f) = true)
    (h1 : le (angle fs f) W_MAX = true) (hs : le (sin32 sb (angle fs f)) ONE = true)
    (hq : isFinite (mul TWO q) = true) (sq : sign (mul TWO q) = false) (hm : 0x3E000000 ≤ mag (mul TWO q)) :
    sign (alphaOf sb fs f q) = false ∧ mag (alphaOf sb fs f q) ≤ 0x41000000 := by
  obtain ⟨ss, -, sm⟩ := sin32_bounds sb h0 h1 hs
  have fsn : isFinite (sin32 sb (angle fs f)) = true := isFinite_of_mag_le sm (by decide +kernel)
  have hz : isZero (mul TWO q) = false := by
    rw [isZero, beq_eq_false_iff_ne]
    exact Nat.ne_of_gt (Nat.lt_of_lt_of_le (by decide +kernel) hm)
  unfold alphaOf
  constructor
  · rw [div_finite fsn hq hz, sign_ofRatio, ss, sq]; rfl
  · exact mag_div_le fsn hq sm (by decide +kernel) hm (by decide +kernel)

/-- An angle up to W_MAX is finite, so its cosine is at most 1.0 in magnitude. -/
theorem cosW_bounds {fs f : Word} (h0 : lt 0#32 (angle fs f) = true) (h1 : le (angle fs f) W_MAX = true) :
    mag (cosW fs f) ≤ 0x3F800000 := by
  have hp := pos_of_lt h0
  have hm := mag_le_of_le (y := W_MAX) (by decide +kernel) h1 hp.2.1
  exact mag_cos32_le (isFinite_of_mag_le hm (by decide +kernel))

end Sys2Proof.Machine
end

