-- ==== Sys2Proof/Laws/Angle.lean ====
section
/-! SUPPORT. The angles the resolver hands to Sin32, Cos32 and Tan32 lie where their named properties speak, for every
sample rate of at least 1.0 (00 R12, 41 R200, R208, R212). -/

namespace Sys2Proof.Machine

open F32

/-- Rounding moves a value of at least 2^23 units by at most one part in 2^24 (00 R7). -/
theorem roundMag_rel {n d : Nat} (hd : 0 < d) (h : 0x800000 * d ≤ n) :
    unitsOf (roundMag n d) * d * 0x1000000 ≤ n * 0x1000001 := by
  have half : ∀ D : Nat, 0 < D → 2 * (roundHalfEven n D * D) ≤ 2 * n + D := by
    intro D hD
    have e := Nat.div_add_mod n D
    have hr := Nat.mod_lt n hD
    unfold roundHalfEven
    simp only
    generalize n / D = q at *
    generalize n % D = r at *
    have hm : D * q = q * D := Nat.mul_comm _ _
    split
    · omega
    · split
      · rw [Nat.add_mul, Nat.one_mul]; omega
      · rcases Nat.mod_two_eq_zero_or_one q with k | k <;> rw [k]
        · rw [Nat.add_zero]; omega
        · rw [Nat.add_mul, Nat.one_mul]; omega
  have val : ∀ (e k : Nat), 0x800000 ≤ k → k ≤ 0x1000000 → unitsOf (e * 0x800000 + k) = k * 2 ^ e := by
    intro e k h1 h2
    rcases Nat.lt_or_ge k 0x1000000 with h3 | h3
    · have := unitsOf_normal e (k - 0x800000) (by omega)
      rw [show (e + 1) * 0x800000 + (k - 0x800000) = e * 0x800000 + k by omega, show 0x800000 + (k - 0x800000) = k by omega] at this
      exact this
    · have hk : k = 0x1000000 := by omega
      have := unitsOf_normal (e + 1) 0 (by decide)
      rw [hk, show e * 0x800000 + 0x1000000 = (e + 1 + 1) * 0x800000 + 0 by omega, this, Nat.pow_succ]
      omega
  have main : ∀ e : Nat, 0x800000 * 2 ^ e * d ≤ n → n < 0x1000000 * 2 ^ e * d →
      unitsOf (e * 0x800000 + roundHalfEven n (d * 2 ^ e)) * d * 0x1000000 ≤ n * 0x1000001 := by
    intro e hlo hhi
    have hD : 0 < d * 2 ^ e := Nat.mul_pos hd (Nat.two_pow_pos e)
    have e1 : 0x800000 * (d * 2 ^ e) = 0x800000 * 2 ^ e * d := by rw [Nat.mul_comm d, Nat.mul_assoc]
    have e2 : 0x1000000 * (d * 2 ^ e) = 0x1000000 * 2 ^ e * d := by rw [Nat.mul_comm d, Nat.mul_assoc]
    have k1 := le_roundHalfEven hD (Nat.le_trans (Nat.le_of_eq e1) hlo)
    have k2 := roundHalfEven_le hD (Nat.le_trans (Nat.le_of_lt hhi) (Nat.le_of_eq e2.symm))
    rw [val e _ k1 k2]
    have h1 := half _ hD
    have e3 : roundHalfEven n (d * 2 ^ e) * 2 ^ e * d = roundHalfEven n (d * 2 ^ e) * (d * 2 ^ e) := by
      rw [Nat.mul_assoc, Nat.mul_comm (2 ^ e) d]
    rw [e3]
    rw [← e1] at hlo
    generalize roundHalfEven n (d * 2 ^ e) * (d * 2 ^ e) = P at *
    generalize d * 2 ^ e = D at *
    omega
  rcases roundMag_cases n d hd with ⟨hn, he⟩ | ⟨e, -, hlo, hhi, he⟩
  · have := main 0 (by rw [Nat.pow_zero, Nat.mul_one]; exact h) (by rw [Nat.pow_zero, Nat.mul_one]; exact hn)
    rw [Nat.pow_zero, Nat.mul_one, Nat.zero_mul, Nat.zero_add] at this
    rw [he]
    exact this
  · rw [he]
    exact main e hlo hhi

/-- A sample rate of at least 1.0: its sign and magnitude. -/
theorem rate_bounds {fs : Word} (h1 : le ONE fs = true) :
    sign fs = false ∧ 0x3F800000 ≤ mag fs := by
  have k := (le_iff.1 h1).2.2
  have k1 : key ONE = 0x3F800000 := by decide +kernel
  rw [k1] at k
  unfold key at k
  cases hs : sign fs <;> simp [hs] at k
  · exact ⟨rfl, by omega⟩
  · omega

/-- F_HI of a sample rate of at least 1.0 (41 R200). -/
theorem fHi_bounds {fs : Word} (hf : isFinite fs = true) (h1 : le ONE fs = true) :
    isFinite (fHi fs) = true ∧ sign (fHi fs) = false ∧ 0x3EFAE148 ≤ mag (fHi fs) ∧
    units (fHi fs) * 2 ^ 149 ≤ unitsOf 0x3EFAE149 * units fs := by
  obtain ⟨s1, m1⟩ := rate_bounds h1
  have fN : isFinite NYQ49 = true := by decide +kernel
  have sN : sign NYQ49 = false := by decide +kernel
  have uN : units NYQ49 = 0xFAE148 * 2 ^ 124 := by decide +kernel
  have u9 : unitsOf 0x3EFAE149 = 0xFAE149 * 2 ^ 124 := by decide +kernel
  have u8 : unitsOf 0x3EFAE148 = 0xFAE148 * 2 ^ 124 := by decide +kernel
  have uf : 2 ^ 149 ≤ units fs := by
    have : unitsOf 0x3F800000 = 2 ^ 149 := by decide +kernel
    rw [← this]
    exact le_units m1
  have e : fHi fs = ofRatio false (units fs * units NYQ49) (2 ^ 149) := by
    unfold fHi
    rw [mul_finite hf fN, s1, sN]
    rfl
  have hm : mag (fHi fs) ≤ mag fs := by
    rw [e]
    apply mag_ofRatio_le _ (Nat.two_pow_pos 149)
    rw [← units_eq, uN]
    exact Nat.mul_le_mul_left _ (by decide)
  refine ⟨isFinite_of_mag_le hm (isFinite_iff.1 hf), by rw [e]; exact sign_ofRatio _ _ _, ?_, ?_⟩
  · rw [e]
    apply le_mag_ofRatio _ (Nat.two_pow_pos 149) (by decide)
    rw [u8, uN, Nat.mul_comm]
    exact Nat.mul_le_mul_right _ uf
  · have hr : mag (fHi fs) = roundMag (units fs * units NYQ49) (2 ^ 149) := by
      have := isFinite_of_mag_le hm (isFinite_iff.1 hf)
      rw [isFinite_iff, e, ofRatio, mag_pack] at this
      rw [e, ofRatio, mag_pack]
      omega
    rw [units_eq (fHi fs), hr, uN, u9]
    have rel := roundMag_rel (n := units fs * (0xFAE148 * 2 ^ 124)) (Nat.two_pow_pos 149) (by
      refine Nat.le_trans ?_ (Nat.mul_le_mul_right _ uf)
      decide)
    have up : units fs * (0xFAE148 * 2 ^ 124) * 0x1000001 ≤ 0xFAE149 * 2 ^ 124 * units fs * 0x1000000 := by
      have c : 0xFAE148 * 2 ^ 124 * 0x1000001 ≤ 0xFAE149 * 2 ^ 124 * 0x1000000 := by decide
      have e1 : units fs * (0xFAE148 * 2 ^ 124) * 0x1000001 = units fs * (0xFAE148 * 2 ^ 124 * 0x1000001) :=
        Nat.mul_assoc _ _ _
      have e2 : 0xFAE149 * 2 ^ 124 * units fs * 0x1000000 = units fs * (0xFAE149 * 2 ^ 124 * 0x1000000) := by
        rw [Nat.mul_comm _ (units fs), Nat.mul_assoc]
      rw [e1, e2]
      exact Nat.mul_le_mul_left _ c
    exact Nat.le_of_mul_le_mul_right (Nat.le_trans rel up) (by decide)

/-- A clamped cutoff: positive, and at most F_HI (41 R200). -/
theorem clampF_bounds {fs x : Word} (hf : isFinite fs = true) (h1 : le ONE fs = true) (hx : isNaN x = false) :
    isFinite (clampF fs x) = true ∧ sign (clampF fs x) = false ∧ 0x3EFAE148 ≤ mag (clampF fs x) ∧
    mag (clampF fs x) ≤ mag (fHi fs) := by
  obtain ⟨a1, a2, a3, a4⟩ := fHi_bounds hf h1
  obtain ⟨k1, k2⟩ := key_clamp hx (lo := F_LO) (by decide +kernel) (isNaN_of_isFinite a1)
  have kl : key F_LO = 0x3F800000 := by decide +kernel
  rw [kl, key_pos a2] at k2
  have kp : 0 < key (clampF fs x) := by unfold clampF; omega
  obtain ⟨p1, p2⟩ := sign_of_key kp
  have k3 : (mag (clampF fs x) : Int) = min (max (key x) 0x3F800000) (mag (fHi fs)) := by
    rw [← key_pos p1]; exact k2
  have m1 : mag (clampF fs x) ≤ mag (fHi fs) := by omega
  exact ⟨isFinite_of_mag_le m1 (isFinite_iff.1 a1), p1, by omega, m1⟩

/-- A clamped cutoff over the sample rate: positive, and at most the float after NYQ49. -/
theorem ratio_bounds {fs x : Word} (hf : isFinite fs = true) (h1 : le ONE fs = true) (hx : isNaN x = false) :
    isFinite (div (clampF fs x) fs) = true ∧ sign (div (clampF fs x) fs) = false ∧
    1 ≤ mag (div (clampF fs x) fs) ∧ mag (div (clampF fs x) fs) ≤ 0x3EFAE149 := by
  obtain ⟨s1, m1⟩ := rate_bounds h1
  obtain ⟨-, -, -, a4⟩ := fHi_bounds hf h1
  obtain ⟨b1, b2, b3, b4⟩ := clampF_bounds hf h1 hx
  have hz : isZero fs = false := by
    rw [isZero, beq_eq_false_iff_ne]
    omega
  have up : 0 < units fs := by rw [units_eq]; exact unitsOf_pos (by omega)
  have e : div (clampF fs x) fs = ofRatio false (units (clampF fs x) * 2 ^ 149) (units fs) := by
    rw [div_finite b1 hf hz, b2, s1]
    rfl
  have hi : mag (div (clampF fs x) fs) ≤ 0x3EFAE149 := by
    rw [e]
    apply mag_ofRatio_le _ up
    refine Nat.le_trans (Nat.mul_le_mul_right _ ?_) a4
    rw [units_eq, units_eq]
    exact unitsOf_le_iff.2 b4
  refine ⟨isFinite_of_mag_le hi (by decide), by rw [e]; exact sign_ofRatio _ _ _, ?_, hi⟩
  rw [e]
  apply le_mag_ofRatio _ up (by decide)
  rw [unitsOf_small (by decide), Nat.one_mul]
  have hmax : units fs ≤ unitsOf 0x7F7FFFFF := units_le (by have := isFinite_iff.1 hf; unfold infMag at this; omega)
  have hmin : unitsOf 0x3EFAE148 ≤ units (clampF fs x) := le_units b3
  refine Nat.le_trans hmax (Nat.le_trans ?_ (Nat.mul_le_mul_right _ hmin))
  decide +kernel

/-- A product of a constant from 1.0 up with a positive ratio: positive, and bounded. -/
theorem scaled_bounds {c q : Word} {b : Nat} (fc : isFinite c = true) (sc : sign c = false) (mc : 0x3F800000 ≤ mag c)
    (fq : isFinite q = true) (sq : sign q = false) (m1 : 1 ≤ mag q) (m2 : mag q ≤ 0x3EFAE149)
    (hb : roundMag (unitsOf (mag c) * unitsOf 0x3EFAE149) (2 ^ 149) ≤ b) (hi : b < infMag) :
    lt 0#32 (mul c q) = true ∧ (mul c q).toNat ≤ b ∧ isNaN (mul c q) = false ∧ sign (mul c q) = false ∧
    mag (mul c q) ≤ b := by
  have hm := mag_mul_le fc fq (Nat.le_refl _) m2 hb
  have hf := isFinite_of_mag_le hm hi
  have e : mul c q = ofRatio false (units c * units q) (2 ^ 149) := by rw [mul_finite fc fq, sc, sq]; rfl
  have hs : sign (mul c q) = false := by rw [e]; exact sign_ofRatio _ _ _
  have hp : 1 ≤ mag (mul c q) := by
    rw [e]
    apply le_mag_ofRatio _ (Nat.two_pow_pos 149) (by decide)
    have u1 : unitsOf 1 ≤ units q := le_units m1
    have u2 : unitsOf 0x3F800000 ≤ units c := le_units mc
    rw [show unitsOf 0x3F800000 = 2 ^ 149 by decide +kernel] at u2
    rw [Nat.mul_comm (units c)]
    exact Nat.mul_le_mul u1 u2
  have k0 : key 0#32 = 0 := by decide +kernel
  refine ⟨lt_iff.2 ⟨by decide +kernel, isNaN_of_isFinite hf, ?_⟩, ?_, isNaN_of_isFinite hf, hs, hm⟩
  · rw [k0, key_pos hs]; omega
  · rw [toNat_eq, hs]; simpa using hm

/-- A magnitude bound as an order. -/
theorem le_of_mag {x y : Word} (nx : isNaN x = false) (ny : isNaN y = false) (sx : sign x = false) (sy : sign y = false)
    (h : mag x ≤ mag y) : le x y = true :=
  le_iff.2 ⟨nx, ny, by rw [key_pos sx, key_pos sy]; omega⟩

/-- The angle of a biquad lies above 0.0 and at most at W_MAX (00 R12, 41 R201). -/
theorem angle_bounds {fs x : Word} (hf : isFinite fs = true) (h1 : le ONE fs = true) (hx : isNaN x = false) :
    lt 0#32 (angle fs (clampF fs x)) = true ∧ le (angle fs (clampF fs x)) W_MAX = true := by
  obtain ⟨q1, q2, q3, q4⟩ := ratio_bounds hf h1 hx
  have b := scaled_bounds (c := TWO_PI32) (b := 0x40450A6C) (by decide +kernel) (by decide +kernel) (by decide +kernel) q1 q2 q3 q4
    (by decide +kernel) (by decide)
  exact ⟨b.1, le_of_mag b.2.2.1 (by decide +kernel) b.2.2.2.1 (by decide +kernel)
    (Nat.le_trans b.2.2.2.2 (by decide +kernel))⟩

/-- The angle of a first-order section lies above 0.0 and at most at A_MAX (00 R12, 41 R202). -/
theorem warp_angle_bounds {fs x : Word} (hf : isFinite fs = true) (h1 : le ONE fs = true) (hx : isNaN x = false) :
    lt 0#32 (mul PI32 (div (clampF fs x) fs)) = true ∧ le (mul PI32 (div (clampF fs x) fs)) A_MAX = true := by
  obtain ⟨q1, q2, q3, q4⟩ := ratio_bounds hf h1 hx
  have b := scaled_bounds (c := PI32) (b := 0x3FC50A6C) (by decide +kernel) (by decide +kernel) (by decide +kernel) q1 q2 q3 q4
    (by decide +kernel) (by decide)
  exact ⟨b.1, le_of_mag b.2.2.1 (by decide +kernel) b.2.2.2.1 (by decide +kernel)
    (Nat.le_trans b.2.2.2.2 (by decide +kernel))⟩

end Sys2Proof.Machine
end

