-- ==== Sys2Proof/Laws/Memory.lean ====
section
/-! SUPPORT. The laws of the buffer's cells: reading after writing, and the canonical form. -/

namespace Sys2Proof.Machine

theorem Mem.lookup_store_same (m : Mem) (a : Nat) (v : Byte) : (m.store a v).lookup a = some v := by
  induction m with
  | nil => simp [Mem.store, Mem.lookup]
  | cons c m ih =>
    obtain ⟨b, u⟩ := c
    simp only [Mem.store]
    split
    · simp [Mem.lookup]
    · split
      · simp [Mem.lookup]
      · rename_i h1 h2
        simp [Mem.lookup, h2, ih]

theorem Mem.lookup_store_ne (m : Mem) {a a' : Nat} (v : Byte) (h : a' ≠ a) :
    (m.store a v).lookup a' = m.lookup a' := by
  induction m with
  | nil => simp [Mem.store, Mem.lookup, h]
  | cons c m ih =>
    obtain ⟨b, u⟩ := c
    simp only [Mem.store]
    split
    · simp [Mem.lookup, h]
    · split
      · rename_i h1 h2
        subst h2
        simp [Mem.lookup, h]
      · simp only [Mem.lookup, ih]

theorem Mem.risesAbove_store (m : Mem) (lo a : Nat) (v : Byte) (h : m.risesAbove lo = true) (ha : lo < a) :
    (m.store a v).risesAbove lo = true := by
  induction m generalizing lo with
  | nil => simp [Mem.store, Mem.risesAbove, ha]
  | cons c m ih =>
    obtain ⟨b, u⟩ := c
    simp only [Mem.risesAbove, Bool.and_eq_true, decide_eq_true_eq] at h
    simp only [Mem.store]
    split
    · rename_i h1
      simp [Mem.risesAbove, ha, h1, h.2]
    · split
      · rename_i h1 h2
        subst h2
        simp [Mem.risesAbove, ha, h.2]
      · rename_i h1 h2
        simp [Mem.risesAbove, h.1, ih b h.2 (by omega)]

theorem Mem.all_store (m : Mem) (a : Nat) (v : Byte) (p : Host.Cell → Bool) (h : m.all p = true) (ha : p (a, v) = true) :
    (m.store a v).all p = true := by
  induction m with
  | nil => simp [Mem.store, ha]
  | cons c m ih =>
    obtain ⟨b, u⟩ := c
    simp only [List.all_cons, Bool.and_eq_true] at h
    simp only [Mem.store]
    split
    · simp [ha, h.1, h.2]
    · split
      · simp [ha, h.2]
      · simp [h.1, ih h.2]

/-- A store inside the buffer keeps the canonical form. -/
theorem Mem.wf_store (m : Mem) (a : Nat) (v : Byte) (h : m.wf = true) (h1 : 0x8000 ≤ a) (h2 : a < 0x10000) :
    (m.store a v).wf = true := by
  simp only [Mem.wf, Bool.and_eq_true] at h ⊢
  exact ⟨Mem.risesAbove_store m _ a v h.1 (by omega), Mem.all_store m a v _ h.2 (by simpa using h2)⟩

/-- A word stored inside the buffer keeps the canonical form. -/
theorem Mem.wf_storeWord (m : Mem) (a : Nat) (w : Word) (h : m.wf = true) (h1 : 0x8000 ≤ a) (h2 : a + 3 < 0x10000) :
    (m.storeWord a w).wf = true := by
  unfold Mem.storeWord
  refine Mem.wf_store _ _ _ (Mem.wf_store _ _ _ (Mem.wf_store _ _ _ (Mem.wf_store _ _ _ h ?_ ?_) ?_ ?_) ?_ ?_) ?_ ?_ <;> omega

/-- Reading one byte of a stored word. -/
theorem Mem.lookup_storeWord_in (m : Mem) (a : Nat) (w : Word) (i : Nat) (h : i < 4) :
    (m.storeWord a w).lookup (a + i) = some (byteOf w i) := by
  unfold Mem.storeWord
  match i, h with
  | 3, _ => exact Mem.lookup_store_same _ _ _
  | 2, _ => rw [Mem.lookup_store_ne _ _ (by omega)]; exact Mem.lookup_store_same _ _ _
  | 1, _ =>
    rw [Mem.lookup_store_ne _ _ (by omega), Mem.lookup_store_ne _ _ (by omega)]
    exact Mem.lookup_store_same _ _ _
  | 0, _ =>
    rw [Mem.lookup_store_ne _ _ (by omega), Mem.lookup_store_ne _ _ (by omega), Mem.lookup_store_ne _ _ (by omega)]
    exact Mem.lookup_store_same _ _ _

/-- A stored word leaves every byte outside its four alone. -/
theorem Mem.lookup_storeWord_out (m : Mem) (a : Nat) (w : Word) (b : Nat) (h : b < a ∨ a + 3 < b) :
    (m.storeWord a w).lookup b = m.lookup b := by
  unfold Mem.storeWord
  rw [Mem.lookup_store_ne _ _ (by omega), Mem.lookup_store_ne _ _ (by omega),
    Mem.lookup_store_ne _ _ (by omega), Mem.lookup_store_ne _ _ (by omega)]

/-- The bytes of a word, put together again, are the word (20 R90). -/
theorem wordOf_bytes (w : Word) : wordOf (byteOf w 0) (byteOf w 1) (byteOf w 2) (byteOf w 3) = w := by
  unfold wordOf byteOf
  apply BitVec.eq_of_getLsbD_eq
  intro i hi
  have h : i < 8 ∨ (8 ≤ i ∧ i < 16) ∨ (16 ≤ i ∧ i < 24) ∨ 24 ≤ i := by omega
  simp only [BitVec.getLsbD_append, BitVec.getLsbD_extractLsb']
  rcases h with h | ⟨h, h'⟩ | ⟨h, h'⟩ | h
  · simp [h, show i < 16 by omega, show i < 24 by omega]
  · obtain ⟨k, rfl⟩ := Nat.exists_eq_add_of_le h
    simp [show 8 + k < 24 by omega, show k < 8 by omega, h']
  · obtain ⟨k, rfl⟩ := Nat.exists_eq_add_of_le h
    simp [show 16 + k < 24 by omega, show k < 8 by omega, show ¬ (16 + k < 16) by omega]
  · obtain ⟨k, rfl⟩ := Nat.exists_eq_add_of_le h
    simp [show ¬ (24 + k < 24) by omega, show k < 8 by omega]

/-- The offsets of the buffer words lie in the buffer and are multiples of four (20 R97). -/
theorem bufAddr_range (c : Chan) (n : Nat) (h : n < 4096) : 0x8000 ≤ bufAddr c n ∧ bufAddr c n + 3 < 0x10000 := by
  cases c <;> simp only [bufAddr, Chan.idx] <;> omega

/-- Different buffer words share no byte. -/
theorem bufAddr_disjoint {c d : Chan} {n k : Nat} (hn : n < 4096) (hk : k < 4096) (h : c ≠ d ∨ n ≠ k) :
    bufAddr c n + 3 < bufAddr d k ∨ bufAddr d k + 3 < bufAddr c n := by
  cases c <;> cases d <;> simp only [bufAddr, Chan.idx] <;> simp at h <;> omega

/-- The word just written is the word read (20 R98). -/
theorem bufWord_setBuf_same (s : State) (c : Chan) (n : Nat) (w : Word) : (s.setBuf c n w).bufWord c n = w := by
  have e : ∀ i, i < 4 → (s.setBuf c n w).bufByte (bufAddr c n + i) = byteOf w i := by
    intro i hi
    simp [State.bufByte, State.setBuf, Mem.lookup_storeWord_in _ _ _ i hi]
  have e0 := e 0 (by omega)
  rw [Nat.add_zero] at e0
  simp only [State.bufWord, State.bufWordAt, e0, e 1 (by omega), e 2 (by omega), e 3 (by omega)]
  exact wordOf_bytes w

/-- A byte outside the word written reads as before (20 R98). -/
theorem bufByte_setBuf_out (s : State) (c : Chan) (n : Nat) (w : Word) (b : Nat)
    (h : b < bufAddr c n ∨ bufAddr c n + 3 < b) : (s.setBuf c n w).bufByte b = s.bufByte b := by
  simp [State.bufByte, State.setBuf, Mem.lookup_storeWord_out _ _ _ _ h]

/-- Another buffer word reads as before (20 R98). -/
theorem bufWord_setBuf_ne (s : State) {c d : Chan} {n k : Nat} (w : Word) (hn : n < 4096) (hk : k < 4096)
    (h : c ≠ d ∨ n ≠ k) : (s.setBuf c n w).bufWord d k = s.bufWord d k := by
  have hd := bufAddr_disjoint hn hk h
  have e : ∀ i, i < 4 → (s.setBuf c n w).bufByte (bufAddr d k + i) = s.bufByte (bufAddr d k + i) :=
    fun i hi => bufByte_setBuf_out s c n w _ (by omega)
  have e0 := e 0 (by omega)
  rw [Nat.add_zero] at e0
  simp only [State.bufWord, State.bufWordAt, e0, e 1 (by omega), e 2 (by omega), e 3 (by omega)]

end Sys2Proof.Machine
end

