-- ==== Sys2Proof/Laws/Chain.lean ====
section
/-! SUPPORT. What the transform path does to the buffer and to the filter state (40 R172, R173), said once for a channel
and once for a block. -/

namespace Sys2Proof.Machine

@[simp] theorem filter_setFilter_same (s : State) (c : Chan) (f : FilterFile) : (s.setFilter c f).filter c = f := by
  cases c <;> rfl

theorem filter_setFilter_ne (s : State) {c d : Chan} (f : FilterFile) (h : d ≠ c) :
    (s.setFilter c f).filter d = s.filter d := by
  cases c <;> cases d <;> first | rfl | exact absurd rfl h

@[simp] theorem filter_setBuf (s : State) (c d : Chan) (n : Nat) (w : Word) : (s.setBuf c n w).filter d = s.filter d := by
  cases d <;> rfl

@[simp] theorem bufByte_setFilter (s : State) (c : Chan) (f : FilterFile) (a : Nat) :
    (s.setFilter c f).bufByte a = s.bufByte a := by
  cases c <;> rfl

@[simp] theorem bufWord_setFilter (s : State) (c d : Chan) (f : FilterFile) (n : Nat) :
    (s.setFilter c f).bufWord d n = s.bufWord d n := by
  cases c <;> rfl

/-- `s` with nothing but its filter state and its buffer replaced. -/
def State.withBlock (s : State) (f0 f1 : FilterFile) (m : Mem) : State := { s with filter0 := f0, filter1 := f1, mem := m }

@[simp] theorem withBlock_self (s : State) : s.withBlock s.filter0 s.filter1 s.mem = s := rfl

/-- One sample changes the channel's filter state and the buffer only (40 R172). -/
theorem processSample_frame (coef : CoefFile) (c : Chan) (s : State) (n : Nat) :
    ∃ f0 f1 m, processSample coef c s n = s.withBlock f0 f1 m := by
  cases c <;> exact ⟨_, _, _, rfl⟩

theorem processSamples_frame (coef : CoefFile) (c : Chan) (l : List Nat) (s : State) :
    ∃ f0 f1 m, l.foldl (processSample coef c) s = s.withBlock f0 f1 m := by
  induction l generalizing s with
  | nil => exact ⟨_, _, _, (withBlock_self s).symm⟩
  | cons n l ih =>
    obtain ⟨f0, f1, m, h⟩ := processSample_frame coef c s n
    obtain ⟨g0, g1, k, h'⟩ := ih (processSample coef c s n)
    exact ⟨g0, g1, k, by rw [List.foldl_cons, h', h]; rfl⟩

theorem processChans_frame (coef : CoefFile) (len : Nat) (l : List Chan) (s : State) :
    ∃ f0 f1 m, l.foldl (processChan coef len) s = s.withBlock f0 f1 m := by
  induction l generalizing s with
  | nil => exact ⟨_, _, _, (withBlock_self s).symm⟩
  | cons c l ih =>
    obtain ⟨f0, f1, m, h⟩ := processSamples_frame coef c (List.range len) s
    obtain ⟨g0, g1, k, h'⟩ := ih (processChan coef len s c)
    exact ⟨g0, g1, k, by rw [List.foldl_cons, h', processChan, h]; rfl⟩

/-- A block changes the filter state and the buffer only (40 R172). -/
theorem processBlock_frame (coef : CoefFile) (nch : Word) (len : BitVec 16) (s : State) :
    ∃ f0 f1 m, processBlock coef nch len s = s.withBlock f0 f1 m :=
  processChans_frame _ _ _ _

/-- Everything a run of samples of one channel does (40 R172): the samples and the channel's state are those of the
chain sample by sample; every other word, byte and state word stays. -/
theorem processSamples_spec (coef : CoefFile) (c : Chan) (l : List Nat) (s : State) (hn : l.Nodup)
    (hl : ∀ n ∈ l, n < 4096) :
    let t := l.foldl (processSample coef c) s
    sampleMajor coef (l.map (s.bufWord c)) (s.filter c) = (l.map (t.bufWord c), t.filter c) ∧
    (∀ d, d ≠ c → t.filter d = s.filter d) ∧
    (∀ a, (∀ n ∈ l, a < bufAddr c n ∨ bufAddr c n + 3 < a) → t.bufByte a = s.bufByte a) ∧
    (∀ d n, n < 4096 → (d ≠ c ∨ n ∉ l) → t.bufWord d n = s.bufWord d n) := by
  induction l generalizing s with
  | nil => exact ⟨rfl, fun _ _ => rfl, fun _ _ => rfl, fun _ _ _ _ => rfl⟩
  | cons n l ih =>
    rw [List.nodup_cons] at hn
    have hn4 : n < 4096 := hl n (List.mem_cons_self ..)
    obtain ⟨h1, h2, h3, h4⟩ := ih (processSample coef c s n) hn.2 (fun k hk => hl k (List.mem_cons_of_mem _ hk))
    have hw : ∀ d k, k < 4096 → (d ≠ c ∨ k ≠ n) → (processSample coef c s n).bufWord d k = s.bufWord d k := by
      intro d k hk hd
      unfold processSample
      simp only
      rw [bufWord_setBuf_ne _ _ hn4 hk (by tauto), bufWord_setFilter]
    have hb : ∀ a, (a < bufAddr c n ∨ bufAddr c n + 3 < a) → (processSample coef c s n).bufByte a = s.bufByte a := by
      intro a ha
      unfold processSample
      simp only
      rw [bufByte_setBuf_out _ _ _ _ _ ha, bufByte_setFilter]
    have hs : (processSample coef c s n).bufWord c n = (chain coef (s.filter c) (s.bufWord c n)).1 := by
      unfold processSample
      exact bufWord_setBuf_same _ _ _ _
    have hf : (processSample coef c s n).filter c = (chain coef (s.filter c) (s.bufWord c n)).2 := by
      unfold processSample
      simp only
      rw [filter_setBuf, filter_setFilter_same]
    have hm : l.map ((processSample coef c s n).bufWord c) = l.map (s.bufWord c) := by
      apply List.map_congr_left
      intro k hk
      exact hw c k (hl k (List.mem_cons_of_mem _ hk)) (.inr (fun e => hn.1 (e ▸ hk)))
    rw [hm, hf] at h1
    refine ⟨?_, ?_, ?_, ?_⟩
    · simp only [List.map_cons, sampleMajor, List.foldl_cons, h1]
      rw [h4 c n hn4 (.inr hn.1), hs]
    · intro d hd
      rw [List.foldl_cons, h2 d hd]
      unfold processSample
      simp only
      rw [filter_setBuf, filter_setFilter_ne _ _ hd]
    · intro a ha
      rw [List.foldl_cons, h3 a (fun k hk => ha k (List.mem_cons_of_mem _ hk)), hb a (ha n (List.mem_cons_self ..))]
    · intro d k hk hd
      rw [List.foldl_cons, h4 d k hk (by rcases hd with hd | hd; exact .inl hd; exact .inr (fun e => hd (List.mem_cons_of_mem _ e)))]
      exact hw d k hk (by rcases hd with hd | hd; exact .inl hd; exact .inr (fun e => hd (e ▸ List.mem_cons_self ..)))

/-- Everything a channel's pass over its first `len` samples does (40 R172). -/
theorem processChan_spec (coef : CoefFile) (len : Nat) (s : State) (c : Chan) (hl : len ≤ 4096) :
    let t := processChan coef len s c
    sampleMajor coef (s.block c len) (s.filter c) = (t.block c len, t.filter c) ∧
    (∀ d, d ≠ c → t.filter d = s.filter d) ∧
    (∀ a, (∀ n, n < len → a < bufAddr c n ∨ bufAddr c n + 3 < a) → t.bufByte a = s.bufByte a) ∧
    (∀ d n, n < 4096 → (d ≠ c ∨ len ≤ n) → t.bufWord d n = s.bufWord d n) := by
  obtain ⟨h1, h2, h3, h4⟩ := processSamples_spec coef c (List.range len) s List.nodup_range
    (fun n hn => by rw [List.mem_range] at hn; omega)
  exact ⟨h1, h2, fun a ha => h3 a (fun n hn => ha n (List.mem_range.1 hn)),
    fun d n hn hd => h4 d n hn (by rcases hd with hd | hd; exact .inl hd; exact .inr (fun e => by
      rw [List.mem_range] at e; omega))⟩

/-- The channels of 0, 1 and more active ones (40 R172). -/
theorem activeChans_eq (nch : Word) :
    activeChans nch = if nch.toNat = 0 then [] else if nch.toNat = 1 then [.ch0] else [.ch0, .ch1] := by
  unfold activeChans Chan.all
  by_cases h0 : nch.toNat = 0
  · simp [h0]
  · by_cases h1 : nch.toNat = 1
    · simp [h1, Chan.idx]
    · have h2 : 1 < nch.toNat := by omega
      simp [h0, h1, h2, Chan.idx, show 0 < nch.toNat by omega]

theorem block_congr {s t : State} {c : Chan} {len : Nat} (hl : len ≤ 4096)
    (h : ∀ n, n < 4096 → t.bufWord c n = s.bufWord c n) : t.block c len = s.block c len := by
  unfold State.block
  apply List.map_congr_left
  intro n hn
  rw [List.mem_range] at hn
  exact h n (by omega)

/-- Everything a block does (40 R172): each active channel's samples and state are those of the chain sample by sample;
every other byte and state word stays. -/
theorem processBlock_spec (coef : CoefFile) (nch : Word) (len : BitVec 16) (s : State) :
    let t := processBlock coef nch len s
    (∀ c : Chan, c.idx < nch.toNat →
      sampleMajor coef (s.block c (blockLen len)) (s.filter c) = (t.block c (blockLen len), t.filter c)) ∧
    (∀ c : Chan, nch.toNat ≤ c.idx → t.filter c = s.filter c) ∧
    (∀ a, ¬ inRange nch.toNat (blockLen len) a → t.bufByte a = s.bufByte a) := by
  have hl : blockLen len ≤ 4096 := Nat.min_le_right _ _
  have out : ∀ c : Chan, c.idx < nch.toNat → ∀ a, ¬ inRange nch.toNat (blockLen len) a →
      ∀ n, n < blockLen len → a < bufAddr c n ∨ bufAddr c n + 3 < a := by
    intro c hc a ha n hn
    have : ¬ (bufAddr c n ≤ a ∧ a ≤ bufAddr c n + 3) := fun h => ha ⟨c, n, hc, hn, h⟩
    omega
  unfold processBlock
  rw [activeChans_eq]
  split
  · exact ⟨fun c hc => by omega, fun _ _ => rfl, fun _ _ => rfl⟩
  · split
    · obtain ⟨h1, h2, h3, h4⟩ := processChan_spec coef _ s .ch0 hl
      refine ⟨?_, ?_, ?_⟩
      · intro c hc
        cases c with
        | ch0 => exact h1
        | ch1 => simp only [Chan.idx] at hc; omega
      · intro c hc
        cases c with
        | ch0 => simp only [Chan.idx] at hc; omega
        | ch1 => exact h2 .ch1 (by decide)
      · exact fun a ha => h3 a (out .ch0 (by simp only [Chan.idx]; omega) a ha)
    · obtain ⟨h1, h2, h3, h4⟩ := processChan_spec coef _ s .ch0 hl
      obtain ⟨k1, k2, k3, k4⟩ := processChan_spec coef _ (processChan coef (blockLen len) s .ch0) .ch1 hl
      refine ⟨?_, ?_, ?_⟩
      · intro c hc
        cases c with
        | ch0 =>
          show _ = ((processChan coef (blockLen len) (processChan coef (blockLen len) s .ch0) .ch1).block .ch0 _,
            (processChan coef (blockLen len) (processChan coef (blockLen len) s .ch0) .ch1).filter .ch0)
          rw [k2 .ch0 (by decide), block_congr hl (fun n hn => k4 .ch0 n hn (.inl (by decide)))]
          exact h1
        | ch1 =>
          rw [h2 .ch1 (by decide), block_congr hl (fun n hn => h4 .ch1 n hn (.inl (by decide)))] at k1
          exact k1
      · intro c hc
        cases c <;> simp only [Chan.idx] at hc <;> omega
      · intro a ha
        show (processChan coef (blockLen len) (processChan coef (blockLen len) s .ch0) .ch1).bufByte a = _
        rw [k3 a (out .ch1 (by simp only [Chan.idx]; omega) a ha), h3 a (out .ch0 (by simp only [Chan.idx]; omega) a ha)]

/-! The canonical form of the buffer. -/

theorem wf_setBuf (s : State) (c : Chan) (n : Nat) (w : Word) (h : s.mem.wf = true) (hn : n < 4096) :
    (s.setBuf c n w).mem.wf = true := by
  have := bufAddr_range c n hn
  exact Mem.wf_storeWord _ _ _ h (by omega) (by omega)

theorem wf_processSample (coef : CoefFile) (c : Chan) (s : State) (n : Nat) (h : s.mem.wf = true) (hn : n < 4096) :
    (processSample coef c s n).mem.wf = true := by
  unfold processSample
  exact wf_setBuf _ _ _ _ (by cases c <;> exact h) hn

theorem wf_processSamples (coef : CoefFile) (c : Chan) (l : List Nat) (s : State) (h : s.mem.wf = true)
    (hl : ∀ n ∈ l, n < 4096) : (l.foldl (processSample coef c) s).mem.wf = true := by
  induction l generalizing s with
  | nil => exact h
  | cons n l ih =>
    exact ih _ (wf_processSample coef c s n h (hl n (List.mem_cons_self ..)))
      (fun k hk => hl k (List.mem_cons_of_mem _ hk))

/-- The transform path keeps the buffer's canonical form. -/
theorem wf_processBlock (coef : CoefFile) (nch : Word) (len : BitVec 16) (s : State) (h : s.mem.wf = true) :
    (processBlock coef nch len s).mem.wf = true := by
  unfold processBlock
  generalize activeChans nch = l
  induction l generalizing s with
  | nil => exact h
  | cons c l ih =>
    refine ih _ (wf_processSamples coef c _ s h (fun n hn => ?_))
    rw [List.mem_range] at hn
    have : blockLen len ≤ 4096 := Nat.min_le_right _ _
    omega

theorem wf_scramble (k : Nat) (r : Range) (m : Mem) (h : m.wf = true) : (scramble k r m).wf = true := by
  unfold scramble
  generalize (Chan.all.filter (fun c => decide (c.idx < r.nch))) = l
  induction l generalizing m with
  | nil => exact h
  | cons c l ih =>
    refine ih _ ?_
    have hl : ∀ n ∈ List.range (min r.len 4096), n < 4096 := fun n hn => by rw [List.mem_range] at hn; omega
    revert hl
    generalize List.range (min r.len 4096) = l'
    intro hl
    induction l' generalizing m with
    | nil => exact h
    | cons n l' ih' =>
      refine ih' _ ?_ (fun k hk => hl k (List.mem_cons_of_mem _ hk))
      have := bufAddr_range c n (hl n (List.mem_cons_self ..))
      exact Mem.wf_storeWord _ _ _ h (by omega) (by omega)

/-! The unused state words. -/

/-- The state words of a stage after writing another. -/
theorem stage_get_set {α : Type} (f : PerStage α) (st st' : Stage) (p : α) :
    (f.set st p).get st' = if st' = st then p else f.get st' := by
  cases st <;> cases st' <;> rfl

/-- A stage step leaves its kind's unused state words at +0.0 (10 R67). -/
theorem stageStep_idle (k : StageKind) (r : Row) (p : Pair) (x : Word) (h : idleWordsZero k p = true) :
    idleWordsZero k (stageStep k r p x).2 = true := by
  cases k <;> first | exact h | rfl

theorem chainOver_idle (coef : CoefFile) (l : List Stage) (f : FilterFile) (x : Word)
    (h : ∀ st : Stage, idleWordsZero st.kind (f.get st) = true) (st : Stage) :
    idleWordsZero st.kind ((chainOver coef l f x).2.get st) = true := by
  induction l generalizing f x with
  | nil => exact h st
  | cons st' l ih =>
    refine ih _ _ (fun u => ?_)
    rw [stage_get_set]
    split
    · subst u; exact stageStep_idle _ _ _ _ (h st')
    · exact h u

theorem sampleMajor_idle (coef : CoefFile) (xs : List Word) (f : FilterFile)
    (h : ∀ st : Stage, idleWordsZero st.kind (f.get st) = true) (st : Stage) :
    idleWordsZero st.kind ((sampleMajor coef xs f).2.get st) = true := by
  induction xs generalizing f with
  | nil => exact h st
  | cons x xs ih => exact ih _ (fun u => chainOver_idle coef Stage.all f x h u)

end Sys2Proof.Machine
end

