-- ==== Sys2Proof/Laws/State.lean ====
section
/-! SUPPORT. One lemma for each field after each named update of the state, true by definition. -/

namespace Sys2Proof.Machine

/-! `deliver`. -/

@[simp] theorem deliver_pending (bs : List Byte) (s : State) :
    (deliver bs s).pending = s.pending := rfl
@[simp] theorem deliver_abortRange (bs : List Byte) (s : State) :
    (deliver bs s).abortRange = s.abortRange := rfl
@[simp] theorem deliver_irqEn (bs : List Byte) (s : State) :
    (deliver bs s).irqEn = s.irqEn := rfl
@[simp] theorem deliver_status (bs : List Byte) (s : State) :
    (deliver bs s).status = s.status := rfl
@[simp] theorem deliver_lastCmd (bs : List Byte) (s : State) :
    (deliver bs s).lastCmd = s.lastCmd := rfl
@[simp] theorem deliver_faultInfo (bs : List Byte) (s : State) :
    (deliver bs s).faultInfo = s.faultInfo := rfl
@[simp] theorem deliver_blockCnt (bs : List Byte) (s : State) :
    (deliver bs s).blockCnt = s.blockCnt := rfl
@[simp] theorem deliver_specFs (bs : List Byte) (s : State) :
    (deliver bs s).specFs = s.specFs := rfl
@[simp] theorem deliver_specMaxb (bs : List Byte) (s : State) :
    (deliver bs s).specMaxb = s.specMaxb := rfl
@[simp] theorem deliver_specNch (bs : List Byte) (s : State) :
    (deliver bs s).specNch = s.specNch := rfl
@[simp] theorem deliver_activeFs (bs : List Byte) (s : State) :
    (deliver bs s).activeFs = s.activeFs := rfl
@[simp] theorem deliver_activeMaxb (bs : List Byte) (s : State) :
    (deliver bs s).activeMaxb = s.activeMaxb := rfl
@[simp] theorem deliver_activeNch (bs : List Byte) (s : State) :
    (deliver bs s).activeNch = s.activeNch := rfl
@[simp] theorem deliver_gain (bs : List Byte) (s : State) :
    (deliver bs s).gain = s.gain := rfl
@[simp] theorem deliver_tone (bs : List Byte) (s : State) :
    (deliver bs s).tone = s.tone := rfl
@[simp] theorem deliver_volume (bs : List Byte) (s : State) :
    (deliver bs s).volume = s.volume := rfl
@[simp] theorem deliver_bypass (bs : List Byte) (s : State) :
    (deliver bs s).bypass = s.bypass := rfl
@[simp] theorem deliver_snapGain (bs : List Byte) (s : State) :
    (deliver bs s).snapGain = s.snapGain := rfl
@[simp] theorem deliver_snapTone (bs : List Byte) (s : State) :
    (deliver bs s).snapTone = s.snapTone := rfl
@[simp] theorem deliver_snapVolume (bs : List Byte) (s : State) :
    (deliver bs s).snapVolume = s.snapVolume := rfl
@[simp] theorem deliver_snapBypass (bs : List Byte) (s : State) :
    (deliver bs s).snapBypass = s.snapBypass := rfl
@[simp] theorem deliver_normG (bs : List Byte) (s : State) :
    (deliver bs s).normG = s.normG := rfl
@[simp] theorem deliver_normT (bs : List Byte) (s : State) :
    (deliver bs s).normT = s.normT := rfl
@[simp] theorem deliver_normV (bs : List Byte) (s : State) :
    (deliver bs s).normV = s.normV := rfl
@[simp] theorem deliver_snapBefore (bs : List Byte) (s : State) :
    (deliver bs s).snapBefore = s.snapBefore := rfl
@[simp] theorem deliver_params (bs : List Byte) (s : State) :
    (deliver bs s).params = s.params := rfl
@[simp] theorem deliver_coef (bs : List Byte) (s : State) :
    (deliver bs s).coef = s.coef := rfl
@[simp] theorem deliver_filter0 (bs : List Byte) (s : State) :
    (deliver bs s).filter0 = s.filter0 := rfl
@[simp] theorem deliver_filter1 (bs : List Byte) (s : State) :
    (deliver bs s).filter1 = s.filter1 := rfl
@[simp] theorem deliver_mem (bs : List Byte) (s : State) :
    (deliver bs s).mem = s.mem := rfl
@[simp] theorem deliver_sineBounded (bs : List Byte) (s : State) :
    (deliver bs s).sineBounded = s.sineBounded := rfl
@[simp] theorem deliver_env (bs : List Byte) (s : State) :
    (deliver bs s).env = { s.env with reply := bs } := rfl

/-! `handOn`. -/

@[simp] theorem handOn_pending (y : Word) (s : State) :
    (handOn y s).pending = s.pending := rfl
@[simp] theorem handOn_abortRange (y : Word) (s : State) :
    (handOn y s).abortRange = s.abortRange := rfl
@[simp] theorem handOn_irqEn (y : Word) (s : State) :
    (handOn y s).irqEn = s.irqEn := rfl
@[simp] theorem handOn_status (y : Word) (s : State) :
    (handOn y s).status = s.status := rfl
@[simp] theorem handOn_lastCmd (y : Word) (s : State) :
    (handOn y s).lastCmd = s.lastCmd := rfl
@[simp] theorem handOn_faultInfo (y : Word) (s : State) :
    (handOn y s).faultInfo = s.faultInfo := rfl
@[simp] theorem handOn_blockCnt (y : Word) (s : State) :
    (handOn y s).blockCnt = s.blockCnt := rfl
@[simp] theorem handOn_specFs (y : Word) (s : State) :
    (handOn y s).specFs = s.specFs := rfl
@[simp] theorem handOn_specMaxb (y : Word) (s : State) :
    (handOn y s).specMaxb = s.specMaxb := rfl
@[simp] theorem handOn_specNch (y : Word) (s : State) :
    (handOn y s).specNch = s.specNch := rfl
@[simp] theorem handOn_activeFs (y : Word) (s : State) :
    (handOn y s).activeFs = s.activeFs := rfl
@[simp] theorem handOn_activeMaxb (y : Word) (s : State) :
    (handOn y s).activeMaxb = s.activeMaxb := rfl
@[simp] theorem handOn_activeNch (y : Word) (s : State) :
    (handOn y s).activeNch = s.activeNch := rfl
@[simp] theorem handOn_gain (y : Word) (s : State) :
    (handOn y s).gain = s.gain := rfl
@[simp] theorem handOn_tone (y : Word) (s : State) :
    (handOn y s).tone = s.tone := rfl
@[simp] theorem handOn_volume (y : Word) (s : State) :
    (handOn y s).volume = s.volume := rfl
@[simp] theorem handOn_bypass (y : Word) (s : State) :
    (handOn y s).bypass = s.bypass := rfl
@[simp] theorem handOn_snapGain (y : Word) (s : State) :
    (handOn y s).snapGain = s.snapGain := rfl
@[simp] theorem handOn_snapTone (y : Word) (s : State) :
    (handOn y s).snapTone = s.snapTone := rfl
@[simp] theorem handOn_snapVolume (y : Word) (s : State) :
    (handOn y s).snapVolume = s.snapVolume := rfl
@[simp] theorem handOn_snapBypass (y : Word) (s : State) :
    (handOn y s).snapBypass = s.snapBypass := rfl
@[simp] theorem handOn_normG (y : Word) (s : State) :
    (handOn y s).normG = s.normG := rfl
@[simp] theorem handOn_normT (y : Word) (s : State) :
    (handOn y s).normT = s.normT := rfl
@[simp] theorem handOn_normV (y : Word) (s : State) :
    (handOn y s).normV = s.normV := rfl
@[simp] theorem handOn_snapBefore (y : Word) (s : State) :
    (handOn y s).snapBefore = s.snapBefore := rfl
@[simp] theorem handOn_params (y : Word) (s : State) :
    (handOn y s).params = s.params := rfl
@[simp] theorem handOn_coef (y : Word) (s : State) :
    (handOn y s).coef = s.coef := rfl
@[simp] theorem handOn_filter0 (y : Word) (s : State) :
    (handOn y s).filter0 = s.filter0 := rfl
@[simp] theorem handOn_filter1 (y : Word) (s : State) :
    (handOn y s).filter1 = s.filter1 := rfl
@[simp] theorem handOn_mem (y : Word) (s : State) :
    (handOn y s).mem = s.mem := rfl
@[simp] theorem handOn_sineBounded (y : Word) (s : State) :
    (handOn y s).sineBounded = s.sineBounded := rfl
@[simp] theorem handOn_env (y : Word) (s : State) :
    (handOn y s).env = { s.env with sample := y } := rfl

/-! `setAccErr`. -/

@[simp] theorem setAccErr_pending (s : State) :
    (setAccErr s).pending = s.pending := rfl
@[simp] theorem setAccErr_abortRange (s : State) :
    (setAccErr s).abortRange = s.abortRange := rfl
@[simp] theorem setAccErr_irqEn (s : State) :
    (setAccErr s).irqEn = s.irqEn := rfl
@[simp] theorem setAccErr_status (s : State) :
    (setAccErr s).status = { s.status with accErr := true } := rfl
@[simp] theorem setAccErr_lastCmd (s : State) :
    (setAccErr s).lastCmd = s.lastCmd := rfl
@[simp] theorem setAccErr_faultInfo (s : State) :
    (setAccErr s).faultInfo = s.faultInfo := rfl
@[simp] theorem setAccErr_blockCnt (s : State) :
    (setAccErr s).blockCnt = s.blockCnt := rfl
@[simp] theorem setAccErr_specFs (s : State) :
    (setAccErr s).specFs = s.specFs := rfl
@[simp] theorem setAccErr_specMaxb (s : State) :
    (setAccErr s).specMaxb = s.specMaxb := rfl
@[simp] theorem setAccErr_specNch (s : State) :
    (setAccErr s).specNch = s.specNch := rfl
@[simp] theorem setAccErr_activeFs (s : State) :
    (setAccErr s).activeFs = s.activeFs := rfl
@[simp] theorem setAccErr_activeMaxb (s : State) :
    (setAccErr s).activeMaxb = s.activeMaxb := rfl
@[simp] theorem setAccErr_activeNch (s : State) :
    (setAccErr s).activeNch = s.activeNch := rfl
@[simp] theorem setAccErr_gain (s : State) :
    (setAccErr s).gain = s.gain := rfl
@[simp] theorem setAccErr_tone (s : State) :
    (setAccErr s).tone = s.tone := rfl
@[simp] theorem setAccErr_volume (s : State) :
    (setAccErr s).volume = s.volume := rfl
@[simp] theorem setAccErr_bypass (s : State) :
    (setAccErr s).bypass = s.bypass := rfl
@[simp] theorem setAccErr_snapGain (s : State) :
    (setAccErr s).snapGain = s.snapGain := rfl
@[simp] theorem setAccErr_snapTone (s : State) :
    (setAccErr s).snapTone = s.snapTone := rfl
@[simp] theorem setAccErr_snapVolume (s : State) :
    (setAccErr s).snapVolume = s.snapVolume := rfl
@[simp] theorem setAccErr_snapBypass (s : State) :
    (setAccErr s).snapBypass = s.snapBypass := rfl
@[simp] theorem setAccErr_normG (s : State) :
    (setAccErr s).normG = s.normG := rfl
@[simp] theorem setAccErr_normT (s : State) :
    (setAccErr s).normT = s.normT := rfl
@[simp] theorem setAccErr_normV (s : State) :
    (setAccErr s).normV = s.normV := rfl
@[simp] theorem setAccErr_snapBefore (s : State) :
    (setAccErr s).snapBefore = s.snapBefore := rfl
@[simp] theorem setAccErr_params (s : State) :
    (setAccErr s).params = s.params := rfl
@[simp] theorem setAccErr_coef (s : State) :
    (setAccErr s).coef = s.coef := rfl
@[simp] theorem setAccErr_filter0 (s : State) :
    (setAccErr s).filter0 = s.filter0 := rfl
@[simp] theorem setAccErr_filter1 (s : State) :
    (setAccErr s).filter1 = s.filter1 := rfl
@[simp] theorem setAccErr_mem (s : State) :
    (setAccErr s).mem = s.mem := rfl
@[simp] theorem setAccErr_sineBounded (s : State) :
    (setAccErr s).sineBounded = s.sineBounded := rfl
@[simp] theorem setAccErr_env (s : State) :
    (setAccErr s).env = s.env := rfl

/-! `setBuf`. -/

@[simp] theorem setBuf_pending (c : Chan) (n : Nat) (v : Word) (s : State) :
    (s.setBuf c n v).pending = s.pending := rfl
@[simp] theorem setBuf_abortRange (c : Chan) (n : Nat) (v : Word) (s : State) :
    (s.setBuf c n v).abortRange = s.abortRange := rfl
@[simp] theorem setBuf_irqEn (c : Chan) (n : Nat) (v : Word) (s : State) :
    (s.setBuf c n v).irqEn = s.irqEn := rfl
@[simp] theorem setBuf_status (c : Chan) (n : Nat) (v : Word) (s : State) :
    (s.setBuf c n v).status = s.status := rfl
@[simp] theorem setBuf_lastCmd (c : Chan) (n : Nat) (v : Word) (s : State) :
    (s.setBuf c n v).lastCmd = s.lastCmd := rfl
@[simp] theorem setBuf_faultInfo (c : Chan) (n : Nat) (v : Word) (s : State) :
    (s.setBuf c n v).faultInfo = s.faultInfo := rfl
@[simp] theorem setBuf_blockCnt (c : Chan) (n : Nat) (v : Word) (s : State) :
    (s.setBuf c n v).blockCnt = s.blockCnt := rfl
@[simp] theorem setBuf_specFs (c : Chan) (n : Nat) (v : Word) (s : State) :
    (s.setBuf c n v).specFs = s.specFs := rfl
@[simp] theorem setBuf_specMaxb (c : Chan) (n : Nat) (v : Word) (s : State) :
    (s.setBuf c n v).specMaxb = s.specMaxb := rfl
@[simp] theorem setBuf_specNch (c : Chan) (n : Nat) (v : Word) (s : State) :
    (s.setBuf c n v).specNch = s.specNch := rfl
@[simp] theorem setBuf_activeFs (c : Chan) (n : Nat) (v : Word) (s : State) :
    (s.setBuf c n v).activeFs = s.activeFs := rfl
@[simp] theorem setBuf_activeMaxb (c : Chan) (n : Nat) (v : Word) (s : State) :
    (s.setBuf c n v).activeMaxb = s.activeMaxb := rfl
@[simp] theorem setBuf_activeNch (c : Chan) (n : Nat) (v : Word) (s : State) :
    (s.setBuf c n v).activeNch = s.activeNch := rfl
@[simp] theorem setBuf_gain (c : Chan) (n : Nat) (v : Word) (s : State) :
    (s.setBuf c n v).gain = s.gain := rfl
@[simp] theorem setBuf_tone (c : Chan) (n : Nat) (v : Word) (s : State) :
    (s.setBuf c n v).tone = s.tone := rfl
@[simp] theorem setBuf_volume (c : Chan) (n : Nat) (v : Word) (s : State) :
    (s.setBuf c n v).volume = s.volume := rfl
@[simp] theorem setBuf_bypass (c : Chan) (n : Nat) (v : Word) (s : State) :
    (s.setBuf c n v).bypass = s.bypass := rfl
@[simp] theorem setBuf_snapGain (c : Chan) (n : Nat) (v : Word) (s : State) :
    (s.setBuf c n v).snapGain = s.snapGain := rfl
@[simp] theorem setBuf_snapTone (c : Chan) (n : Nat) (v : Word) (s : State) :
    (s.setBuf c n v).snapTone = s.snapTone := rfl
@[simp] theorem setBuf_snapVolume (c : Chan) (n : Nat) (v : Word) (s : State) :
    (s.setBuf c n v).snapVolume = s.snapVolume := rfl
@[simp] theorem setBuf_snapBypass (c : Chan) (n : Nat) (v : Word) (s : State) :
    (s.setBuf c n v).snapBypass = s.snapBypass := rfl
@[simp] theorem setBuf_normG (c : Chan) (n : Nat) (v : Word) (s : State) :
    (s.setBuf c n v).normG = s.normG := rfl
@[simp] theorem setBuf_normT (c : Chan) (n : Nat) (v : Word) (s : State) :
    (s.setBuf c n v).normT = s.normT := rfl
@[simp] theorem setBuf_normV (c : Chan) (n : Nat) (v : Word) (s : State) :
    (s.setBuf c n v).normV = s.normV := rfl
@[simp] theorem setBuf_snapBefore (c : Chan) (n : Nat) (v : Word) (s : State) :
    (s.setBuf c n v).snapBefore = s.snapBefore := rfl
@[simp] theorem setBuf_params (c : Chan) (n : Nat) (v : Word) (s : State) :
    (s.setBuf c n v).params = s.params := rfl
@[simp] theorem setBuf_coef (c : Chan) (n : Nat) (v : Word) (s : State) :
    (s.setBuf c n v).coef = s.coef := rfl
@[simp] theorem setBuf_filter0 (c : Chan) (n : Nat) (v : Word) (s : State) :
    (s.setBuf c n v).filter0 = s.filter0 := rfl
@[simp] theorem setBuf_filter1 (c : Chan) (n : Nat) (v : Word) (s : State) :
    (s.setBuf c n v).filter1 = s.filter1 := rfl
@[simp] theorem setBuf_mem (c : Chan) (n : Nat) (v : Word) (s : State) :
    (s.setBuf c n v).mem = s.mem.storeWord (bufAddr c n) v := rfl
@[simp] theorem setBuf_sineBounded (c : Chan) (n : Nat) (v : Word) (s : State) :
    (s.setBuf c n v).sineBounded = s.sineBounded := rfl
@[simp] theorem setBuf_env (c : Chan) (n : Nat) (v : Word) (s : State) :
    (s.setBuf c n v).env = s.env := rfl

/-! `takeSnapshot`. -/

@[simp] theorem takeSnapshot_pending (s : State) :
    (takeSnapshot s).pending = s.pending := rfl
@[simp] theorem takeSnapshot_abortRange (s : State) :
    (takeSnapshot s).abortRange = s.abortRange := rfl
@[simp] theorem takeSnapshot_irqEn (s : State) :
    (takeSnapshot s).irqEn = s.irqEn := rfl
@[simp] theorem takeSnapshot_status (s : State) :
    (takeSnapshot s).status = s.status := rfl
@[simp] theorem takeSnapshot_lastCmd (s : State) :
    (takeSnapshot s).lastCmd = s.lastCmd := rfl
@[simp] theorem takeSnapshot_faultInfo (s : State) :
    (takeSnapshot s).faultInfo = s.faultInfo := rfl
@[simp] theorem takeSnapshot_blockCnt (s : State) :
    (takeSnapshot s).blockCnt = s.blockCnt := rfl
@[simp] theorem takeSnapshot_specFs (s : State) :
    (takeSnapshot s).specFs = s.specFs := rfl
@[simp] theorem takeSnapshot_specMaxb (s : State) :
    (takeSnapshot s).specMaxb = s.specMaxb := rfl
@[simp] theorem takeSnapshot_specNch (s : State) :
    (takeSnapshot s).specNch = s.specNch := rfl
@[simp] theorem takeSnapshot_activeFs (s : State) :
    (takeSnapshot s).activeFs = s.activeFs := rfl
@[simp] theorem takeSnapshot_activeMaxb (s : State) :
    (takeSnapshot s).activeMaxb = s.activeMaxb := rfl
@[simp] theorem takeSnapshot_activeNch (s : State) :
    (takeSnapshot s).activeNch = s.activeNch := rfl
@[simp] theorem takeSnapshot_gain (s : State) :
    (takeSnapshot s).gain = s.gain := rfl
@[simp] theorem takeSnapshot_tone (s : State) :
    (takeSnapshot s).tone = s.tone := rfl
@[simp] theorem takeSnapshot_volume (s : State) :
    (takeSnapshot s).volume = s.volume := rfl
@[simp] theorem takeSnapshot_bypass (s : State) :
    (takeSnapshot s).bypass = s.bypass := rfl
@[simp] theorem takeSnapshot_snapGain (s : State) :
    (takeSnapshot s).snapGain = s.gain := rfl
@[simp] theorem takeSnapshot_snapTone (s : State) :
    (takeSnapshot s).snapTone = s.tone := rfl
@[simp] theorem takeSnapshot_snapVolume (s : State) :
    (takeSnapshot s).snapVolume = s.volume := rfl
@[simp] theorem takeSnapshot_snapBypass (s : State) :
    (takeSnapshot s).snapBypass = s.bypass := rfl
@[simp] theorem takeSnapshot_normG (s : State) :
    (takeSnapshot s).normG = F32.div s.gain F32.TEN := rfl
@[simp] theorem takeSnapshot_normT (s : State) :
    (takeSnapshot s).normT = F32.div s.tone F32.TEN := rfl
@[simp] theorem takeSnapshot_normV (s : State) :
    (takeSnapshot s).normV = F32.div s.volume F32.TEN := rfl
@[simp] theorem takeSnapshot_snapBefore (s : State) :
    (takeSnapshot s).snapBefore = s.snapBefore := rfl
@[simp] theorem takeSnapshot_params (s : State) :
    (takeSnapshot s).params = s.params := rfl
@[simp] theorem takeSnapshot_coef (s : State) :
    (takeSnapshot s).coef = s.coef := rfl
@[simp] theorem takeSnapshot_filter0 (s : State) :
    (takeSnapshot s).filter0 = s.filter0 := rfl
@[simp] theorem takeSnapshot_filter1 (s : State) :
    (takeSnapshot s).filter1 = s.filter1 := rfl
@[simp] theorem takeSnapshot_mem (s : State) :
    (takeSnapshot s).mem = s.mem := rfl
@[simp] theorem takeSnapshot_sineBounded (s : State) :
    (takeSnapshot s).sineBounded = s.sineBounded := rfl
@[simp] theorem takeSnapshot_env (s : State) :
    (takeSnapshot s).env = s.env := rfl

/-! `setFilter`. -/

@[simp] theorem setFilter_pending (c : Chan) (f : FilterFile) (s : State) :
    (s.setFilter c f).pending = s.pending := by cases c <;> rfl
@[simp] theorem setFilter_abortRange (c : Chan) (f : FilterFile) (s : State) :
    (s.setFilter c f).abortRange = s.abortRange := by cases c <;> rfl
@[simp] theorem setFilter_irqEn (c : Chan) (f : FilterFile) (s : State) :
    (s.setFilter c f).irqEn = s.irqEn := by cases c <;> rfl
@[simp] theorem setFilter_status (c : Chan) (f : FilterFile) (s : State) :
    (s.setFilter c f).status = s.status := by cases c <;> rfl
@[simp] theorem setFilter_lastCmd (c : Chan) (f : FilterFile) (s : State) :
    (s.setFilter c f).lastCmd = s.lastCmd := by cases c <;> rfl
@[simp] theorem setFilter_faultInfo (c : Chan) (f : FilterFile) (s : State) :
    (s.setFilter c f).faultInfo = s.faultInfo := by cases c <;> rfl
@[simp] theorem setFilter_blockCnt (c : Chan) (f : FilterFile) (s : State) :
    (s.setFilter c f).blockCnt = s.blockCnt := by cases c <;> rfl
@[simp] theorem setFilter_specFs (c : Chan) (f : FilterFile) (s : State) :
    (s.setFilter c f).specFs = s.specFs := by cases c <;> rfl
@[simp] theorem setFilter_specMaxb (c : Chan) (f : FilterFile) (s : State) :
    (s.setFilter c f).specMaxb = s.specMaxb := by cases c <;> rfl
@[simp] theorem setFilter_specNch (c : Chan) (f : FilterFile) (s : State) :
    (s.setFilter c f).specNch = s.specNch := by cases c <;> rfl
@[simp] theorem setFilter_activeFs (c : Chan) (f : FilterFile) (s : State) :
    (s.setFilter c f).activeFs = s.activeFs := by cases c <;> rfl
@[simp] theorem setFilter_activeMaxb (c : Chan) (f : FilterFile) (s : State) :
    (s.setFilter c f).activeMaxb = s.activeMaxb := by cases c <;> rfl
@[simp] theorem setFilter_activeNch (c : Chan) (f : FilterFile) (s : State) :
    (s.setFilter c f).activeNch = s.activeNch := by cases c <;> rfl
@[simp] theorem setFilter_gain (c : Chan) (f : FilterFile) (s : State) :
    (s.setFilter c f).gain = s.gain := by cases c <;> rfl
@[simp] theorem setFilter_tone (c : Chan) (f : FilterFile) (s : State) :
    (s.setFilter c f).tone = s.tone := by cases c <;> rfl
@[simp] theorem setFilter_volume (c : Chan) (f : FilterFile) (s : State) :
    (s.setFilter c f).volume = s.volume := by cases c <;> rfl
@[simp] theorem setFilter_bypass (c : Chan) (f : FilterFile) (s : State) :
    (s.setFilter c f).bypass = s.bypass := by cases c <;> rfl
@[simp] theorem setFilter_snapGain (c : Chan) (f : FilterFile) (s : State) :
    (s.setFilter c f).snapGain = s.snapGain := by cases c <;> rfl
@[simp] theorem setFilter_snapTone (c : Chan) (f : FilterFile) (s : State) :
    (s.setFilter c f).snapTone = s.snapTone := by cases c <;> rfl
@[simp] theorem setFilter_snapVolume (c : Chan) (f : FilterFile) (s : State) :
    (s.setFilter c f).snapVolume = s.snapVolume := by cases c <;> rfl
@[simp] theorem setFilter_snapBypass (c : Chan) (f : FilterFile) (s : State) :
    (s.setFilter c f).snapBypass = s.snapBypass := by cases c <;> rfl
@[simp] theorem setFilter_normG (c : Chan) (f : FilterFile) (s : State) :
    (s.setFilter c f).normG = s.normG := by cases c <;> rfl
@[simp] theorem setFilter_normT (c : Chan) (f : FilterFile) (s : State) :
    (s.setFilter c f).normT = s.normT := by cases c <;> rfl
@[simp] theorem setFilter_normV (c : Chan) (f : FilterFile) (s : State) :
    (s.setFilter c f).normV = s.normV := by cases c <;> rfl
@[simp] theorem setFilter_snapBefore (c : Chan) (f : FilterFile) (s : State) :
    (s.setFilter c f).snapBefore = s.snapBefore := by cases c <;> rfl
@[simp] theorem setFilter_params (c : Chan) (f : FilterFile) (s : State) :
    (s.setFilter c f).params = s.params := by cases c <;> rfl
@[simp] theorem setFilter_coef (c : Chan) (f : FilterFile) (s : State) :
    (s.setFilter c f).coef = s.coef := by cases c <;> rfl
@[simp] theorem setFilter_mem (c : Chan) (f : FilterFile) (s : State) :
    (s.setFilter c f).mem = s.mem := by cases c <;> rfl
@[simp] theorem setFilter_sineBounded (c : Chan) (f : FilterFile) (s : State) :
    (s.setFilter c f).sineBounded = s.sineBounded := by cases c <;> rfl
@[simp] theorem setFilter_env (c : Chan) (f : FilterFile) (s : State) :
    (s.setFilter c f).env = s.env := by cases c <;> rfl

@[simp] theorem setFilter_filter (c d : Chan) (f : FilterFile) (s : State) :
    (s.setFilter c f).filter d = if c = d then f else s.filter d := by
  cases c <;> cases d <;> rfl

/-! `runStage`. -/

@[simp] theorem runStage_pending (c : Chan) (st : Stage) (r : Word × Pair) (s : State) :
    (runStage c st r s).pending = s.pending := by cases c <;> rfl
@[simp] theorem runStage_abortRange (c : Chan) (st : Stage) (r : Word × Pair) (s : State) :
    (runStage c st r s).abortRange = s.abortRange := by cases c <;> rfl
@[simp] theorem runStage_irqEn (c : Chan) (st : Stage) (r : Word × Pair) (s : State) :
    (runStage c st r s).irqEn = s.irqEn := by cases c <;> rfl
@[simp] theorem runStage_status (c : Chan) (st : Stage) (r : Word × Pair) (s : State) :
    (runStage c st r s).status = s.status := by cases c <;> rfl
@[simp] theorem runStage_lastCmd (c : Chan) (st : Stage) (r : Word × Pair) (s : State) :
    (runStage c st r s).lastCmd = s.lastCmd := by cases c <;> rfl
@[simp] theorem runStage_faultInfo (c : Chan) (st : Stage) (r : Word × Pair) (s : State) :
    (runStage c st r s).faultInfo = s.faultInfo := by cases c <;> rfl
@[simp] theorem runStage_blockCnt (c : Chan) (st : Stage) (r : Word × Pair) (s : State) :
    (runStage c st r s).blockCnt = s.blockCnt := by cases c <;> rfl
@[simp] theorem runStage_specFs (c : Chan) (st : Stage) (r : Word × Pair) (s : State) :
    (runStage c st r s).specFs = s.specFs := by cases c <;> rfl
@[simp] theorem runStage_specMaxb (c : Chan) (st : Stage) (r : Word × Pair) (s : State) :
    (runStage c st r s).specMaxb = s.specMaxb := by cases c <;> rfl
@[simp] theorem runStage_specNch (c : Chan) (st : Stage) (r : Word × Pair) (s : State) :
    (runStage c st r s).specNch = s.specNch := by cases c <;> rfl
@[simp] theorem runStage_activeFs (c : Chan) (st : Stage) (r : Word × Pair) (s : State) :
    (runStage c st r s).activeFs = s.activeFs := by cases c <;> rfl
@[simp] theorem runStage_activeMaxb (c : Chan) (st : Stage) (r : Word × Pair) (s : State) :
    (runStage c st r s).activeMaxb = s.activeMaxb := by cases c <;> rfl
@[simp] theorem runStage_activeNch (c : Chan) (st : Stage) (r : Word × Pair) (s : State) :
    (runStage c st r s).activeNch = s.activeNch := by cases c <;> rfl
@[simp] theorem runStage_gain (c : Chan) (st : Stage) (r : Word × Pair) (s : State) :
    (runStage c st r s).gain = s.gain := by cases c <;> rfl
@[simp] theorem runStage_tone (c : Chan) (st : Stage) (r : Word × Pair) (s : State) :
    (runStage c st r s).tone = s.tone := by cases c <;> rfl
@[simp] theorem runStage_volume (c : Chan) (st : Stage) (r : Word × Pair) (s : State) :
    (runStage c st r s).volume = s.volume := by cases c <;> rfl
@[simp] theorem runStage_bypass (c : Chan) (st : Stage) (r : Word × Pair) (s : State) :
    (runStage c st r s).bypass = s.bypass := by cases c <;> rfl
@[simp] theorem runStage_snapGain (c : Chan) (st : Stage) (r : Word × Pair) (s : State) :
    (runStage c st r s).snapGain = s.snapGain := by cases c <;> rfl
@[simp] theorem runStage_snapTone (c : Chan) (st : Stage) (r : Word × Pair) (s : State) :
    (runStage c st r s).snapTone = s.snapTone := by cases c <;> rfl
@[simp] theorem runStage_snapVolume (c : Chan) (st : Stage) (r : Word × Pair) (s : State) :
    (runStage c st r s).snapVolume = s.snapVolume := by cases c <;> rfl
@[simp] theorem runStage_snapBypass (c : Chan) (st : Stage) (r : Word × Pair) (s : State) :
    (runStage c st r s).snapBypass = s.snapBypass := by cases c <;> rfl
@[simp] theorem runStage_normG (c : Chan) (st : Stage) (r : Word × Pair) (s : State) :
    (runStage c st r s).normG = s.normG := by cases c <;> rfl
@[simp] theorem runStage_normT (c : Chan) (st : Stage) (r : Word × Pair) (s : State) :
    (runStage c st r s).normT = s.normT := by cases c <;> rfl
@[simp] theorem runStage_normV (c : Chan) (st : Stage) (r : Word × Pair) (s : State) :
    (runStage c st r s).normV = s.normV := by cases c <;> rfl
@[simp] theorem runStage_snapBefore (c : Chan) (st : Stage) (r : Word × Pair) (s : State) :
    (runStage c st r s).snapBefore = s.snapBefore := by cases c <;> rfl
@[simp] theorem runStage_params (c : Chan) (st : Stage) (r : Word × Pair) (s : State) :
    (runStage c st r s).params = s.params := by cases c <;> rfl
@[simp] theorem runStage_coef (c : Chan) (st : Stage) (r : Word × Pair) (s : State) :
    (runStage c st r s).coef = s.coef := by cases c <;> rfl
@[simp] theorem runStage_mem (c : Chan) (st : Stage) (r : Word × Pair) (s : State) :
    (runStage c st r s).mem = s.mem := by cases c <;> rfl
@[simp] theorem runStage_sineBounded (c : Chan) (st : Stage) (r : Word × Pair) (s : State) :
    (runStage c st r s).sineBounded = s.sineBounded := by cases c <;> rfl
@[simp] theorem runStage_env (c : Chan) (st : Stage) (r : Word × Pair) (s : State) :
    (runStage c st r s).env = { s.env with sample := r.1 } := by cases c <;> rfl

@[simp] theorem runStage_filter (c d : Chan) (st : Stage) (r : Word × Pair) (s : State) :
    (runStage c st r s).filter d = if c = d then (s.filter c).set st r.2 else s.filter d := by
  cases c <;> cases d <;> rfl

/-! `recordFault`. -/

@[simp] theorem recordFault_pending (code : ResultCode) (info : Option (Stage × Nat)) (s : State) :
    (recordFault code info s).pending = s.pending := by
  cases code <;> cases info <;> rfl
@[simp] theorem recordFault_abortRange (code : ResultCode) (info : Option (Stage × Nat)) (s : State) :
    (recordFault code info s).abortRange = s.abortRange := by
  cases code <;> cases info <;> rfl
@[simp] theorem recordFault_irqEn (code : ResultCode) (info : Option (Stage × Nat)) (s : State) :
    (recordFault code info s).irqEn = s.irqEn := by
  cases code <;> cases info <;> rfl
@[simp] theorem recordFault_lastCmd (code : ResultCode) (info : Option (Stage × Nat)) (s : State) :
    (recordFault code info s).lastCmd = s.lastCmd := by
  cases code <;> cases info <;> rfl
@[simp] theorem recordFault_blockCnt (code : ResultCode) (info : Option (Stage × Nat)) (s : State) :
    (recordFault code info s).blockCnt = s.blockCnt := by
  cases code <;> cases info <;> rfl
@[simp] theorem recordFault_specFs (code : ResultCode) (info : Option (Stage × Nat)) (s : State) :
    (recordFault code info s).specFs = s.specFs := by
  cases code <;> cases info <;> rfl
@[simp] theorem recordFault_specMaxb (code : ResultCode) (info : Option (Stage × Nat)) (s : State) :
    (recordFault code info s).specMaxb = s.specMaxb := by
  cases code <;> cases info <;> rfl
@[simp] theorem recordFault_specNch (code : ResultCode) (info : Option (Stage × Nat)) (s : State) :
    (recordFault code info s).specNch = s.specNch := by
  cases code <;> cases info <;> rfl
@[simp] theorem recordFault_activeFs (code : ResultCode) (info : Option (Stage × Nat)) (s : State) :
    (recordFault code info s).activeFs = s.activeFs := by
  cases code <;> cases info <;> rfl
@[simp] theorem recordFault_activeMaxb (code : ResultCode) (info : Option (Stage × Nat)) (s : State) :
    (recordFault code info s).activeMaxb = s.activeMaxb := by
  cases code <;> cases info <;> rfl
@[simp] theorem recordFault_activeNch (code : ResultCode) (info : Option (Stage × Nat)) (s : State) :
    (recordFault code info s).activeNch = s.activeNch := by
  cases code <;> cases info <;> rfl
@[simp] theorem recordFault_gain (code : ResultCode) (info : Option (Stage × Nat)) (s : State) :
    (recordFault code info s).gain = s.gain := by
  cases code <;> cases info <;> rfl
@[simp] theorem recordFault_tone (code : ResultCode) (info : Option (Stage × Nat)) (s : State) :
    (recordFault code info s).tone = s.tone := by
  cases code <;> cases info <;> rfl
@[simp] theorem recordFault_volume (code : ResultCode) (info : Option (Stage × Nat)) (s : State) :
    (recordFault code info s).volume = s.volume := by
  cases code <;> cases info <;> rfl
@[simp] theorem recordFault_bypass (code : ResultCode) (info : Option (Stage × Nat)) (s : State) :
    (recordFault code info s).bypass = s.bypass := by
  cases code <;> cases info <;> rfl
@[simp] theorem recordFault_snapGain (code : ResultCode) (info : Option (Stage × Nat)) (s : State) :
    (recordFault code info s).snapGain = s.snapGain := by
  cases code <;> cases info <;> rfl
@[simp] theorem recordFault_snapTone (code : ResultCode) (info : Option (Stage × Nat)) (s : State) :
    (recordFault code info s).snapTone = s.snapTone := by
  cases code <;> cases info <;> rfl
@[simp] theorem recordFault_snapVolume (code : ResultCode) (info : Option (Stage × Nat)) (s : State) :
    (recordFault code info s).snapVolume = s.snapVolume := by
  cases code <;> cases info <;> rfl
@[simp] theorem recordFault_snapBypass (code : ResultCode) (info : Option (Stage × Nat)) (s : State) :
    (recordFault code info s).snapBypass = s.snapBypass := by
  cases code <;> cases info <;> rfl
@[simp] theorem recordFault_normG (code : ResultCode) (info : Option (Stage × Nat)) (s : State) :
    (recordFault code info s).normG = s.normG := by
  cases code <;> cases info <;> rfl
@[simp] theorem recordFault_normT (code : ResultCode) (info : Option (Stage × Nat)) (s : State) :
    (recordFault code info s).normT = s.normT := by
  cases code <;> cases info <;> rfl
@[simp] theorem recordFault_normV (code : ResultCode) (info : Option (Stage × Nat)) (s : State) :
    (recordFault code info s).normV = s.normV := by
  cases code <;> cases info <;> rfl
@[simp] theorem recordFault_snapBefore (code : ResultCode) (info : Option (Stage × Nat)) (s : State) :
    (recordFault code info s).snapBefore = s.snapBefore := by
  cases code <;> cases info <;> rfl
@[simp] theorem recordFault_params (code : ResultCode) (info : Option (Stage × Nat)) (s : State) :
    (recordFault code info s).params = s.params := by
  cases code <;> cases info <;> rfl
@[simp] theorem recordFault_coef (code : ResultCode) (info : Option (Stage × Nat)) (s : State) :
    (recordFault code info s).coef = s.coef := by
  cases code <;> cases info <;> rfl
@[simp] theorem recordFault_filter0 (code : ResultCode) (info : Option (Stage × Nat)) (s : State) :
    (recordFault code info s).filter0 = s.filter0 := by
  cases code <;> cases info <;> rfl
@[simp] theorem recordFault_filter1 (code : ResultCode) (info : Option (Stage × Nat)) (s : State) :
    (recordFault code info s).filter1 = s.filter1 := by
  cases code <;> cases info <;> rfl
@[simp] theorem recordFault_mem (code : ResultCode) (info : Option (Stage × Nat)) (s : State) :
    (recordFault code info s).mem = s.mem := by
  cases code <;> cases info <;> rfl
@[simp] theorem recordFault_sineBounded (code : ResultCode) (info : Option (Stage × Nat)) (s : State) :
    (recordFault code info s).sineBounded = s.sineBounded := by
  cases code <;> cases info <;> rfl
@[simp] theorem recordFault_env (code : ResultCode) (info : Option (Stage × Nat)) (s : State) :
    (recordFault code info s).env = s.env := by
  cases code <;> cases info <;> rfl

@[simp] theorem recordFault_none (code : ResultCode) (s : State) : recordFault code none s = s := by
  cases code <;> rfl

/-! `complete`. -/

@[simp] theorem complete_pending (code : ResultCode) (info : Option (Stage × Nat)) (s : State) :
    (complete code info s).pending = none := by
  cases code <;> cases info <;> rfl
@[simp] theorem complete_abortRange (code : ResultCode) (info : Option (Stage × Nat)) (s : State) :
    (complete code info s).abortRange = Range.empty := by
  cases code <;> cases info <;> rfl
@[simp] theorem complete_irqEn (code : ResultCode) (info : Option (Stage × Nat)) (s : State) :
    (complete code info s).irqEn = s.irqEn := by
  cases code <;> cases info <;> rfl
@[simp] theorem complete_lastCmd (code : ResultCode) (info : Option (Stage × Nat)) (s : State) :
    (complete code info s).lastCmd = s.pending.getD s.lastCmd := by
  cases code <;> cases info <;> rfl
@[simp] theorem complete_blockCnt (code : ResultCode) (info : Option (Stage × Nat)) (s : State) :
    (complete code info s).blockCnt = s.blockCnt := by
  cases code <;> cases info <;> rfl
@[simp] theorem complete_specFs (code : ResultCode) (info : Option (Stage × Nat)) (s : State) :
    (complete code info s).specFs = s.specFs := by
  cases code <;> cases info <;> rfl
@[simp] theorem complete_specMaxb (code : ResultCode) (info : Option (Stage × Nat)) (s : State) :
    (complete code info s).specMaxb = s.specMaxb := by
  cases code <;> cases info <;> rfl
@[simp] theorem complete_specNch (code : ResultCode) (info : Option (Stage × Nat)) (s : State) :
    (complete code info s).specNch = s.specNch := by
  cases code <;> cases info <;> rfl
@[simp] theorem complete_activeFs (code : ResultCode) (info : Option (Stage × Nat)) (s : State) :
    (complete code info s).activeFs = s.activeFs := by
  cases code <;> cases info <;> rfl
@[simp] theorem complete_activeMaxb (code : ResultCode) (info : Option (Stage × Nat)) (s : State) :
    (complete code info s).activeMaxb = s.activeMaxb := by
  cases code <;> cases info <;> rfl
@[simp] theorem complete_activeNch (code : ResultCode) (info : Option (Stage × Nat)) (s : State) :
    (complete code info s).activeNch = s.activeNch := by
  cases code <;> cases info <;> rfl
@[simp] theorem complete_gain (code : ResultCode) (info : Option (Stage × Nat)) (s : State) :
    (complete code info s).gain = s.gain := by
  cases code <;> cases info <;> rfl
@[simp] theorem complete_tone (code : ResultCode) (info : Option (Stage × Nat)) (s : State) :
    (complete code info s).tone = s.tone := by
  cases code <;> cases info <;> rfl
@[simp] theorem complete_volume (code : ResultCode) (info : Option (Stage × Nat)) (s : State) :
    (complete code info s).volume = s.volume := by
  cases code <;> cases info <;> rfl
@[simp] theorem complete_bypass (code : ResultCode) (info : Option (Stage × Nat)) (s : State) :
    (complete code info s).bypass = s.bypass := by
  cases code <;> cases info <;> rfl
@[simp] theorem complete_snapGain (code : ResultCode) (info : Option (Stage × Nat)) (s : State) :
    (complete code info s).snapGain = s.snapGain := by
  cases code <;> cases info <;> rfl
@[simp] theorem complete_snapTone (code : ResultCode) (info : Option (Stage × Nat)) (s : State) :
    (complete code info s).snapTone = s.snapTone := by
  cases code <;> cases info <;> rfl
@[simp] theorem complete_snapVolume (code : ResultCode) (info : Option (Stage × Nat)) (s : State) :
    (complete code info s).snapVolume = s.snapVolume := by
  cases code <;> cases info <;> rfl
@[simp] theorem complete_snapBypass (code : ResultCode) (info : Option (Stage × Nat)) (s : State) :
    (complete code info s).snapBypass = s.snapBypass := by
  cases code <;> cases info <;> rfl
@[simp] theorem complete_normG (code : ResultCode) (info : Option (Stage × Nat)) (s : State) :
    (complete code info s).normG = s.normG := by
  cases code <;> cases info <;> rfl
@[simp] theorem complete_normT (code : ResultCode) (info : Option (Stage × Nat)) (s : State) :
    (complete code info s).normT = s.normT := by
  cases code <;> cases info <;> rfl
@[simp] theorem complete_normV (code : ResultCode) (info : Option (Stage × Nat)) (s : State) :
    (complete code info s).normV = s.normV := by
  cases code <;> cases info <;> rfl
@[simp] theorem complete_snapBefore (code : ResultCode) (info : Option (Stage × Nat)) (s : State) :
    (complete code info s).snapBefore = s.snapBefore := by
  cases code <;> cases info <;> rfl
@[simp] theorem complete_params (code : ResultCode) (info : Option (Stage × Nat)) (s : State) :
    (complete code info s).params = s.params := by
  cases code <;> cases info <;> rfl
@[simp] theorem complete_coef (code : ResultCode) (info : Option (Stage × Nat)) (s : State) :
    (complete code info s).coef = s.coef := by
  cases code <;> cases info <;> rfl
@[simp] theorem complete_filter0 (code : ResultCode) (info : Option (Stage × Nat)) (s : State) :
    (complete code info s).filter0 = s.filter0 := by
  cases code <;> cases info <;> rfl
@[simp] theorem complete_filter1 (code : ResultCode) (info : Option (Stage × Nat)) (s : State) :
    (complete code info s).filter1 = s.filter1 := by
  cases code <;> cases info <;> rfl
@[simp] theorem complete_mem (code : ResultCode) (info : Option (Stage × Nat)) (s : State) :
    (complete code info s).mem = s.mem := by
  cases code <;> cases info <;> rfl
@[simp] theorem complete_sineBounded (code : ResultCode) (info : Option (Stage × Nat)) (s : State) :
    (complete code info s).sineBounded = s.sineBounded := by
  cases code <;> cases info <;> rfl
@[simp] theorem complete_env (code : ResultCode) (info : Option (Stage × Nat)) (s : State) :
    (complete code info s).env = s.env := by
  cases code <;> cases info <;> rfl

theorem complete_status (code : ResultCode) (s : State) :
    (complete code none s).status = s.status.completed code := by
  cases code <;> rfl

theorem complete_faultInfo (code : ResultCode) (s : State) :
    (complete code none s).faultInfo = s.faultInfo := by
  cases code <;> rfl

theorem complete_nonfinite_status (f : Stage × Nat) (s : State) :
    (complete .nonfiniteCoef (some f) s).status =
      Status.completed { s.status with fatal := true } .nonfiniteCoef := rfl

theorem complete_nonfinite_faultInfo (f : Stage × Nat) (s : State) :
    (complete .nonfiniteCoef (some f) s).faultInfo = faultRecord f.1 f.2 := rfl

/-! `countBlock`. -/

@[simp] theorem countBlock_pending (b : Bool) (s : State) :
    (countBlock b s).pending = s.pending := rfl
@[simp] theorem countBlock_abortRange (b : Bool) (s : State) :
    (countBlock b s).abortRange = s.abortRange := rfl
@[simp] theorem countBlock_irqEn (b : Bool) (s : State) :
    (countBlock b s).irqEn = s.irqEn := rfl
@[simp] theorem countBlock_status (b : Bool) (s : State) :
    (countBlock b s).status = { s.status with bypassed := b } := rfl
@[simp] theorem countBlock_lastCmd (b : Bool) (s : State) :
    (countBlock b s).lastCmd = s.lastCmd := rfl
@[simp] theorem countBlock_faultInfo (b : Bool) (s : State) :
    (countBlock b s).faultInfo = s.faultInfo := rfl
@[simp] theorem countBlock_blockCnt (b : Bool) (s : State) :
    (countBlock b s).blockCnt = s.blockCnt + 1#32 := rfl
@[simp] theorem countBlock_specFs (b : Bool) (s : State) :
    (countBlock b s).specFs = s.specFs := rfl
@[simp] theorem countBlock_specMaxb (b : Bool) (s : State) :
    (countBlock b s).specMaxb = s.specMaxb := rfl
@[simp] theorem countBlock_specNch (b : Bool) (s : State) :
    (countBlock b s).specNch = s.specNch := rfl
@[simp] theorem countBlock_activeFs (b : Bool) (s : State) :
    (countBlock b s).activeFs = s.activeFs := rfl
@[simp] theorem countBlock_activeMaxb (b : Bool) (s : State) :
    (countBlock b s).activeMaxb = s.activeMaxb := rfl
@[simp] theorem countBlock_activeNch (b : Bool) (s : State) :
    (countBlock b s).activeNch = s.activeNch := rfl
@[simp] theorem countBlock_gain (b : Bool) (s : State) :
    (countBlock b s).gain = s.gain := rfl
@[simp] theorem countBlock_tone (b : Bool) (s : State) :
    (countBlock b s).tone = s.tone := rfl
@[simp] theorem countBlock_volume (b : Bool) (s : State) :
    (countBlock b s).volume = s.volume := rfl
@[simp] theorem countBlock_bypass (b : Bool) (s : State) :
    (countBlock b s).bypass = s.bypass := rfl
@[simp] theorem countBlock_snapGain (b : Bool) (s : State) :
    (countBlock b s).snapGain = s.snapGain := rfl
@[simp] theorem countBlock_snapTone (b : Bool) (s : State) :
    (countBlock b s).snapTone = s.snapTone := rfl
@[simp] theorem countBlock_snapVolume (b : Bool) (s : State) :
    (countBlock b s).snapVolume = s.snapVolume := rfl
@[simp] theorem countBlock_snapBypass (b : Bool) (s : State) :
    (countBlock b s).snapBypass = s.snapBypass := rfl
@[simp] theorem countBlock_normG (b : Bool) (s : State) :
    (countBlock b s).normG = s.normG := rfl
@[simp] theorem countBlock_normT (b : Bool) (s : State) :
    (countBlock b s).normT = s.normT := rfl
@[simp] theorem countBlock_normV (b : Bool) (s : State) :
    (countBlock b s).normV = s.normV := rfl
@[simp] theorem countBlock_snapBefore (b : Bool) (s : State) :
    (countBlock b s).snapBefore = s.snapBefore := rfl
@[simp] theorem countBlock_params (b : Bool) (s : State) :
    (countBlock b s).params = s.params := rfl
@[simp] theorem countBlock_coef (b : Bool) (s : State) :
    (countBlock b s).coef = s.coef := rfl
@[simp] theorem countBlock_filter0 (b : Bool) (s : State) :
    (countBlock b s).filter0 = s.filter0 := rfl
@[simp] theorem countBlock_filter1 (b : Bool) (s : State) :
    (countBlock b s).filter1 = s.filter1 := rfl
@[simp] theorem countBlock_mem (b : Bool) (s : State) :
    (countBlock b s).mem = s.mem := rfl
@[simp] theorem countBlock_sineBounded (b : Bool) (s : State) :
    (countBlock b s).sineBounded = s.sineBounded := rfl
@[simp] theorem countBlock_env (b : Bool) (s : State) :
    (countBlock b s).env = s.env := rfl

/-! `commitPrepare`. -/

@[simp] theorem commitPrepare_pending (rows : CoefFile) (s : State) :
    (commitPrepare rows s).pending = s.pending := rfl
@[simp] theorem commitPrepare_abortRange (rows : CoefFile) (s : State) :
    (commitPrepare rows s).abortRange = s.abortRange := rfl
@[simp] theorem commitPrepare_irqEn (rows : CoefFile) (s : State) :
    (commitPrepare rows s).irqEn = s.irqEn := rfl
@[simp] theorem commitPrepare_status (rows : CoefFile) (s : State) :
    (commitPrepare rows s).status = { s.status with prepared := true } := rfl
@[simp] theorem commitPrepare_lastCmd (rows : CoefFile) (s : State) :
    (commitPrepare rows s).lastCmd = s.lastCmd := rfl
@[simp] theorem commitPrepare_faultInfo (rows : CoefFile) (s : State) :
    (commitPrepare rows s).faultInfo = s.faultInfo := rfl
@[simp] theorem commitPrepare_blockCnt (rows : CoefFile) (s : State) :
    (commitPrepare rows s).blockCnt = s.blockCnt := rfl
@[simp] theorem commitPrepare_specFs (rows : CoefFile) (s : State) :
    (commitPrepare rows s).specFs = s.specFs := rfl
@[simp] theorem commitPrepare_specMaxb (rows : CoefFile) (s : State) :
    (commitPrepare rows s).specMaxb = s.specMaxb := rfl
@[simp] theorem commitPrepare_specNch (rows : CoefFile) (s : State) :
    (commitPrepare rows s).specNch = s.specNch := rfl
@[simp] theorem commitPrepare_activeFs (rows : CoefFile) (s : State) :
    (commitPrepare rows s).activeFs = s.specFs := rfl
@[simp] theorem commitPrepare_activeMaxb (rows : CoefFile) (s : State) :
    (commitPrepare rows s).activeMaxb = s.specMaxb := rfl
@[simp] theorem commitPrepare_activeNch (rows : CoefFile) (s : State) :
    (commitPrepare rows s).activeNch = s.specNch := rfl
@[simp] theorem commitPrepare_gain (rows : CoefFile) (s : State) :
    (commitPrepare rows s).gain = s.gain := rfl
@[simp] theorem commitPrepare_tone (rows : CoefFile) (s : State) :
    (commitPrepare rows s).tone = s.tone := rfl
@[simp] theorem commitPrepare_volume (rows : CoefFile) (s : State) :
    (commitPrepare rows s).volume = s.volume := rfl
@[simp] theorem commitPrepare_bypass (rows : CoefFile) (s : State) :
    (commitPrepare rows s).bypass = s.bypass := rfl
@[simp] theorem commitPrepare_snapGain (rows : CoefFile) (s : State) :
    (commitPrepare rows s).snapGain = s.snapGain := rfl
@[simp] theorem commitPrepare_snapTone (rows : CoefFile) (s : State) :
    (commitPrepare rows s).snapTone = s.snapTone := rfl
@[simp] theorem commitPrepare_snapVolume (rows : CoefFile) (s : State) :
    (commitPrepare rows s).snapVolume = s.snapVolume := rfl
@[simp] theorem commitPrepare_snapBypass (rows : CoefFile) (s : State) :
    (commitPrepare rows s).snapBypass = s.snapBypass := rfl
@[simp] theorem commitPrepare_normG (rows : CoefFile) (s : State) :
    (commitPrepare rows s).normG = s.normG := rfl
@[simp] theorem commitPrepare_normT (rows : CoefFile) (s : State) :
    (commitPrepare rows s).normT = s.normT := rfl
@[simp] theorem commitPrepare_normV (rows : CoefFile) (s : State) :
    (commitPrepare rows s).normV = s.normV := rfl
@[simp] theorem commitPrepare_snapBefore (rows : CoefFile) (s : State) :
    (commitPrepare rows s).snapBefore = s.snapBefore := rfl
@[simp] theorem commitPrepare_params (rows : CoefFile) (s : State) :
    (commitPrepare rows s).params = s.params := rfl
@[simp] theorem commitPrepare_coef (rows : CoefFile) (s : State) :
    (commitPrepare rows s).coef = rows := rfl
@[simp] theorem commitPrepare_filter0 (rows : CoefFile) (s : State) :
    (commitPrepare rows s).filter0 = zeroFilter := rfl
@[simp] theorem commitPrepare_filter1 (rows : CoefFile) (s : State) :
    (commitPrepare rows s).filter1 = zeroFilter := rfl
@[simp] theorem commitPrepare_mem (rows : CoefFile) (s : State) :
    (commitPrepare rows s).mem = s.mem := rfl
@[simp] theorem commitPrepare_sineBounded (rows : CoefFile) (s : State) :
    (commitPrepare rows s).sineBounded = s.sineBounded := rfl
@[simp] theorem commitPrepare_env (rows : CoefFile) (s : State) :
    (commitPrepare rows s).env = s.env := rfl

/-! The resets keep which functions Sin32 may be (log 6). -/

@[simp] theorem softReset_sineBounded (s : State) : (softReset s).sineBounded = s.sineBounded := rfl
@[simp] theorem powerOnReset_sineBounded (s : State) : (powerOnReset s).sineBounded = s.sineBounded := rfl

/-! Reads of the register files. -/

@[simp] theorem PerStage.get_set_same {α : Type} (p : PerStage α) (st : Stage) (v : α) :
    (p.set st v).get st = v := by
  cases st <;> rfl

theorem PerStage.get_set_ne {α : Type} (p : PerStage α) {st su : Stage} (v : α) (h : st ≠ su) :
    (p.set st v).get su = p.get su := by
  cases st <;> cases su <;> first | rfl | exact absurd rfl h

@[simp] theorem PerStage.get_const {α : Type} (st : Stage) (v : α) : (PerStage.const v).get st = v := by
  cases st <;> rfl

/-- Two files are equal when every stage's entry is. -/
theorem PerStage.ext_get {α : Type} {p q : PerStage α} (h : ∀ st, p.get st = q.get st) : p = q := by
  have h0 := h .hpf; have h1 := h .aaf; have h2 := h .peak; have h3 := h .notch
  have h4 := h .gainNi; have h5 := h .gainInv; have h6 := h .shaper; have h7 := h .pclp
  have h8 := h .tone; have h9 := h .ptlp; have h10 := h .vol
  cases p; cases q
  simp only [PerStage.get] at h0 h1 h2 h3 h4 h5 h6 h7 h8 h9 h10
  subst_vars; rfl

/-- `boolWord` keeps the bit. -/
@[simp] theorem boolWord_getLsbD (b : Bool) : (boolWord b).getLsbD 0 = b := by cases b <;> rfl

@[simp] theorem ShaperMode.ofCode_code (m : ShaperMode) : ShaperMode.ofCode? m.code = some m := by
  cases m <;> rfl

end Sys2Proof.Machine
end

