-- ==== Sys2Proof/Laws/Step.lean ====
section
/-! SUPPORT. Everything a step can do, said once: the inversion of `step` without and with a stage call, of a host write's
decoding, and of each host operation's meaning. -/

namespace Sys2Proof.Machine

/-- A meaning always answers a next state. -/
theorem exec_next (i : Instr) (s : State) : ∃ t, exec i s = .next t := by
  cases i <;> exact ⟨_, rfl⟩

/-- What a legal command word is (30 R124). -/
theorem decodeCommand_cases {w : Word} {i : Instr} (h : decode (.command w) = .ok i) :
    legalCmd w = true ∧
    ((cmdOp w = 0#4 ∧ i = .nop) ∨ (cmdOp w = 1#4 ∧ i = .prepare) ∨ (cmdOp w = 2#4 ∧ i = .process (cmdLen w)) ∨
     (cmdOp w = 3#4 ∧ i = .resolve) ∨ (cmdOp w = 4#4 ∧ i = .clearState)) := by
  simp only [decode, decodeCommand] at h
  split at h
  · cases h
  · rename_i hl
    simp only [Bool.not_eq_true', Bool.not_eq_false] at hl
    refine ⟨hl, ?_⟩
    have h4 : (cmdOp w).toNat ≤ 4 := by
      simp only [legalCmd, Bool.and_eq_true, decide_eq_true_eq] at hl; exact hl.1.1
    split at h
    · injection h with h; exact .inl ⟨‹_›, h.symm⟩
    · split at h
      · injection h with h; exact .inr (.inl ⟨‹_›, h.symm⟩)
      · split at h
        · injection h with h; exact .inr (.inr (.inl ⟨‹_›, h.symm⟩))
        · split at h
          · injection h with h; exact .inr (.inr (.inr (.inl ⟨‹_›, h.symm⟩)))
          · injection h with h
            refine .inr (.inr (.inr (.inr ⟨?_, h.symm⟩)))
            apply BitVec.eq_of_toNat_eq
            have n0 : (cmdOp w).toNat ≠ 0 := fun k => ‹¬ cmdOp w = 0#4› (BitVec.eq_of_toNat_eq k)
            have n1 : (cmdOp w).toNat ≠ 1 := fun k => ‹¬ cmdOp w = 1#4› (BitVec.eq_of_toNat_eq k)
            have n2 : (cmdOp w).toNat ≠ 2 := fun k => ‹¬ cmdOp w = 2#4› (BitVec.eq_of_toNat_eq k)
            have n3 : (cmdOp w).toNat ≠ 3 := fun k => ‹¬ cmdOp w = 3#4› (BitVec.eq_of_toNat_eq k)
            show (cmdOp w).toNat = 4
            omega

/-- A command word that does not decode is not legal (30 R124, R125). -/
theorem decodeCommand_error {w : Word} {e : DecodeError} (h : decode (.command w) = .error e) : legalCmd w = false := by
  simp only [decode, decodeCommand] at h
  split at h
  · rename_i hl; simpa using hl
  · repeat' split at h
    all_goals cases h

/-- A word that is not legal does not decode (30 R125). -/
theorem decodeCommand_illegal {w : Word} (h : legalCmd w = false) :
    decode (.command w) = .error (.illegalCommand w) := by
  simp [decode, decodeCommand, h]

/-- The operations a host write can be (30 R127). -/
inductive HostWrite (v : Word) : Instr → Prop where
  | gain : HostWrite v (.setGain v)
  | tone : HostWrite v (.setTone v)
  | volume : HostWrite v (.setVolume v)
  | bypass : HostWrite v (.setBypass v)
  | specFs : HostWrite v (.setSpecFs v)
  | specMaxb : HostWrite v (.setSpecMaxb v)
  | specNch : HostWrite v (.setSpecNch v)
  | ctrl : HostWrite v (.writeCtrl v)
  | status : HostWrite v (.clearStatus v)
  | param (p : ParamId) : HostWrite v (setParamInstr p v)
  | buf (c : Chan) (n : BitVec 12) : HostWrite v (.writeBuf c n v)

theorem writeInstr_cases {r : Reg} {v : Word} {i : Instr} (h : writeInstr r v = some i) : HostWrite v i := by
  cases r <;> simp only [writeInstr, Option.some.injEq, reduceCtorEq] at h <;> subst h <;> constructor

/-- A host write that decodes is one of them, at an aligned offset whose register it writes. -/
theorem decodeWrite_cases {off : Offset} {v : Word} {i : Instr} (h : decode (.hostWrite off v) = .ok i) :
    aligned off = true ∧ regAt off ≠ .cmd ∧ writeInstr (regAt off) v = some i ∧ HostWrite v i := by
  simp only [decode, decodeWrite] at h
  split at h
  · cases h
  · rename_i ha
    split at h
    · cases h
    · rename_i hc
      split at h
      · rename_i j hj
        injection h with h
        subst h
        exact ⟨by simpa using ha, hc, hj, writeInstr_cases hj⟩
      · cases h

/-- The register a soft reset writes is CTRL, at offset 0x008 (10 R37). -/
theorem regAt_ctrl : regAt 0x008#16 = .ctrl := by decide

/-- What a parameter write's meaning is: one operation for all of them (40 R185). -/
theorem exec_setParam (p : ParamId) (v : Word) (s : State) : exec (setParamInstr p v) s = .next (writeParam p v s) := by
  cases p <;> rfl

/-- What a step without a stage call can do to `u`, which is the state with the event taken. `r` says that the event is a
reset. -/
inductive Effect (r : Bool) (u t : State) : Prop where
  /-- Nothing: an ignored write, an access outside the window, a completion or a clock cycle of an idle block. -/
  | same (h : t = u)
  /-- A rejected access (20 R92, R93). -/
  | reject (d : Dir) (wd : Width) (h : t = rejectAccess d wd u)
  /-- A write to CMD (40 R151, R153). -/
  | cmd (w : Word) (h : t = writeCmd w u)
  /-- A read (40 R189). -/
  | read (off : Offset) (ha : aligned off = true) (h : exec (.read off) u = .next t)
  /-- A host write (30 R127). -/
  | write (off : Offset) (v : Word) (i : Instr) (hd : decode (.hostWrite off v) = .ok i)
      (hr : softResets off ⟨.write, .w32, v⟩ = true → r = true) (h : exec i u = .next t)
  /-- The completion of a legal command (40 R152). -/
  | run (w : Word) (i : Instr) (hp : u.pending = some w) (hd : decode (.command w) = .ok i) (h : exec i u = .next t)
  /-- The completion of an illegal command (30 R125). -/
  | illegal (w : Word) (hp : u.pending = some w) (hl : legalCmd w = false) (h : t = executeIllegal u)
  /-- A power-on reset (70 R340). -/
  | powerOn (hr : r = true) (h : t = powerOnReset u)

/-- What a work is as an effect. -/
def Work.Does (r : Bool) (w : Work) (t : State) (u : State) : Prop :=
  (match w with
    | .run i s' => exec i s'
    | .settle s' => .next s'
    | .stop f => .fault f) = Host.Outcome.next t → Effect r u t

theorem completion_does (r : Bool) (u t : State) : (completion u).Does r t u := by
  unfold Work.Does completion
  intro h
  split at h
  · rename_i i s' hw
    split at hw
    · cases hw
    · split at hw
      · injection hw with h1 h2; subst h1; subst h2
        exact .run _ _ ‹_› ‹_› h
      · cases hw
  · rename_i s' hw
    injection h with h
    split at hw
    · injection hw with hw; exact .same (by rw [← h, ← hw])
    · split at hw
      · cases hw
      · injection hw with hw
        exact .illegal _ ‹_› (decodeCommand_error ‹_›) (by rw [← h, ← hw])
  · cases h

/-- Everything a host access of the window can do. -/
theorem access_does (r : Bool) (off : Offset) (a : Access) (u t : State) (hr : softResets off a = true → r = true) :
    (access off a u).Does r t u := by
  unfold Work.Does access
  intro h
  by_cases hw : a.width ≠ .w32 || !aligned off
  · rw [if_pos hw] at h
    injection h with h
    exact .reject _ _ h.symm
  · rw [if_neg hw] at h
    simp only [ne_eq, Bool.or_eq_true, Bool.not_eq_true', decide_eq_true_eq, not_or, Bool.not_eq_false,
      Decidable.not_not] at hw
    obtain ⟨d, wd, v⟩ := a
    obtain ⟨hw1, hw2⟩ := hw
    simp only at hw1
    subst hw1
    cases d with
    | read =>
      simp only [decode, decodeRead, hw2, if_true] at h
      exact .read off hw2 h
    | write =>
      simp only at h
      cases hd : decode (.hostWrite off v) with
      | ok i =>
        rw [hd] at h
        exact .write off v i hd hr h
      | error e =>
        rw [hd] at h
        cases e <;> simp only [Host.Outcome.next.injEq] at h <;>
          first
            | exact .cmd _ h.symm
            | exact .same h.symm

/-- `s` with another environment. -/
def State.withEnv (s : State) (e : Env) : State := { s with env := e }

/-- Everything a clock cycle can do. -/
theorem clockCycle_cases (u : State) :
    clockCycle u = .settle u ∨
    clockCycle u = completion (u.withEnv { u.env with elapsed := u.env.elapsed + 1 }) ∨
    clockCycle u = .settle (u.withEnv { u.env with elapsed := u.env.elapsed + 1 }) := by
  unfold clockCycle
  split
  · simp only
    split
    · exact .inr (.inl rfl)
    · exact .inr (.inr rfl)
  · exact .inl rfl

/-- Everything a step without a stage call can do. -/
theorem step_effect {s t : State} (hc : s.env.stageCall = none) (h : step s = .next t) :
    ∃ e : Env, e.stageCall = none ∧ e.powerOns = s.env.powerOns ∧ e.aborts = s.env.aborts ∧
      e.sample = s.env.sample ∧ e.reply = s.env.reply ∧ Effect s.resetsNext (s.withEnv e) t := by
  have key : ∀ e : Env, e.stageCall = none → e.powerOns = s.env.powerOns → e.aborts = s.env.aborts →
      e.sample = s.env.sample → e.reply = s.env.reply → ∀ w : Work, w.Does s.resetsNext t (s.withEnv e) →
      (match w with
        | .run i s' => exec i s'
        | .settle s' => .next s'
        | .stop f => .fault f) = Host.Outcome.next t → ∃ e : Env, e.stageCall = none ∧ e.powerOns = s.env.powerOns ∧
      e.aborts = s.env.aborts ∧ e.sample = s.env.sample ∧ e.reply = s.env.reply ∧ Effect s.resetsNext (s.withEnv e) t :=
    fun e h1 h2 h3 h4 h5 w hw hs => ⟨e, h1, h2, h3, h4, h5, hw hs⟩
  unfold step at h
  unfold fetch at h
  rw [hc] at h
  simp only at h
  cases hi : s.env.inbox with
  | nil =>
    rw [hi] at h
    exact key s.env hc rfl rfl rfl rfl _ (completion_does _ _ _) h
  | cons ev rest =>
    rw [hi] at h
    simp only at h
    have hE := key { s.env with inbox := rest } hc rfl rfl rfl rfl
    cases ev with
    | window off a =>
      exact hE _ (access_does _ off a _ _ (fun k => by simp [State.resetsNext, hc, hi, k])) h
    | physical addr a =>
      simp only [onEvent] at h
      cases ho : windowOffset addr with
      | none =>
        rw [ho] at h
        injection h with h
        exact ⟨{ s.env with inbox := rest }, hc, rfl, rfl, rfl, rfl, .same h.symm⟩
      | some off =>
        rw [ho] at h
        exact hE _ (access_does _ off a _ _ (fun k => by simp [State.resetsNext, hc, hi, ho, k])) h
    | complete => exact hE _ (completion_does _ _ _) h
    | clock =>
      rcases clockCycle_cases (s.withEnv { s.env with inbox := rest }) with hk | hk | hk
      · exact hE (.settle (s.withEnv { s.env with inbox := rest }))
          (fun h => .same (by injection h with h; exact h.symm)) (hk ▸ h)
      · exact key { s.env with inbox := rest, elapsed := s.env.elapsed + 1 } hc rfl rfl rfl rfl _
          (completion_does _ _ _) (hk ▸ h)
      · exact key { s.env with inbox := rest, elapsed := s.env.elapsed + 1 } hc rfl rfl rfl rfl
          (.settle (s.withEnv { s.env with inbox := rest, elapsed := s.env.elapsed + 1 }))
          (fun h => .same (by injection h with h; exact h.symm)) (hk ▸ h)
    | powerOn =>
      injection h with h
      exact ⟨{ s.env with inbox := rest }, hc, rfl, rfl, rfl, rfl,
        .powerOn (by simp [State.resetsNext, hc, hi]) h.symm⟩

/-- A step with a stage call runs the instruction its code names. -/
theorem step_stage {s t : State} {call : StageCall} (hc : s.env.stageCall = some call) (h : step s = .next t) :
    ∃ i, decode call.toCode = .ok i ∧ exec i (s.withEnv { s.env with stageCall := none }) = .next t := by
  unfold step at h
  unfold fetch at h
  rw [hc] at h
  simp only at h
  cases hd : decode call.toCode with
  | ok i => rw [hd] at h; exact ⟨i, rfl, h⟩
  | error e => rw [hd] at h; cases h

end Sys2Proof.Machine
end

