-- ==== Sys2Proof/Laws/Ops.lean ====
section
/-! SUPPORT. What each shared operation does, said once: a completion, an acceptance, a host access; and everything that a
step that is no reset keeps. -/

namespace Sys2Proof.Machine

/-- What every step keeps that neither accepts nor completes a command and is no reset: all that commands write, and while
BUSY their inputs (20 R95). -/
structure Kept (s t : State) : Prop where
  pending : t.pending = s.pending
  abortRange : t.abortRange = s.abortRange
  prepared : t.status.prepared = s.status.prepared
  fatal : t.status.fatal = s.status.fatal
  bypassed : t.status.bypassed = s.status.bypassed
  result : t.status.result = s.status.result
  lastCmd : t.lastCmd = s.lastCmd
  faultInfo : t.faultInfo = s.faultInfo
  blockCnt : t.blockCnt = s.blockCnt
  active : t.activeFs = s.activeFs ∧ t.activeMaxb = s.activeMaxb ∧ t.activeNch = s.activeNch
  snapshot : t.snapGain = s.snapGain ∧ t.snapTone = s.snapTone ∧ t.snapVolume = s.snapVolume ∧
    t.snapBypass = s.snapBypass
  normalised : t.normG = s.normG ∧ t.normT = s.normT ∧ t.normV = s.normV
  snapBefore : t.snapBefore = s.snapBefore
  coef : t.coef = s.coef
  filters : t.filter0 = s.filter0 ∧ t.filter1 = s.filter1
  inputs : s.busy = true → t.specFs = s.specFs ∧ t.specMaxb = s.specMaxb ∧ t.specNch = s.specNch ∧
    t.params = s.params ∧ t.mem = s.mem

theorem Kept.refl (s : State) : Kept s s :=
  ⟨rfl, rfl, rfl, rfl, rfl, rfl, rfl, rfl, rfl, ⟨rfl, rfl, rfl⟩, ⟨rfl, rfl, rfl, rfl⟩, ⟨rfl, rfl, rfl⟩, rfl, rfl, ⟨rfl, rfl⟩,
    fun _ => ⟨rfl, rfl, rfl, rfl, rfl⟩⟩

theorem kept_accErr (s : State) : Kept s (setAccErr s) :=
  ⟨rfl, rfl, rfl, rfl, rfl, rfl, rfl, rfl, rfl, ⟨rfl, rfl, rfl⟩, ⟨rfl, rfl, rfl, rfl⟩, ⟨rfl, rfl, rfl⟩, rfl, rfl, ⟨rfl, rfl⟩,
    fun _ => ⟨rfl, rfl, rfl, rfl, rfl⟩⟩

theorem kept_reject (d : Dir) (wd : Width) (s : State) : Kept s (rejectAccess d wd s) := by
  cases d <;>
  exact ⟨rfl, rfl, rfl, rfl, rfl, rfl, rfl, rfl, rfl, ⟨rfl, rfl, rfl⟩, ⟨rfl, rfl, rfl, rfl⟩, ⟨rfl, rfl, rfl⟩, rfl, rfl,
    ⟨rfl, rfl⟩, fun _ => ⟨rfl, rfl, rfl, rfl, rfl⟩⟩

theorem kept_deliver (bs : List Byte) (s : State) : Kept s (deliver bs s) :=
  ⟨rfl, rfl, rfl, rfl, rfl, rfl, rfl, rfl, rfl, ⟨rfl, rfl, rfl⟩, ⟨rfl, rfl, rfl, rfl⟩, ⟨rfl, rfl, rfl⟩, rfl, rfl, ⟨rfl, rfl⟩,
    fun _ => ⟨rfl, rfl, rfl, rfl, rfl⟩⟩

/-- A write that is rejected while BUSY and otherwise changes only what commands do not write. -/
theorem kept_unlessBusy {s t : State} (h : s.busy = false → Kept s t) : Kept s (unlessBusy s t) := by
  unfold unlessBusy
  split
  · exact kept_accErr s
  · exact h (by simpa using ‹¬ s.busy = true›)

/-- A host write but a soft reset keeps what commands write (40 R180 to R188). -/
theorem kept_write {s t : State} {v : Word} {i : Instr} (hw : HostWrite v i)
    (hr : ¬ (i = .writeCtrl v ∧ v.getLsbD 0 = true)) (h : exec i s = .next t) : Kept s t := by
  have idle : ∀ {u : State}, s.busy = false → (s.busy = true → u.specFs = s.specFs ∧ u.specMaxb = s.specMaxb ∧
      u.specNch = s.specNch ∧ u.params = s.params ∧ u.mem = s.mem) := by
    intro u hb k
    rw [hb] at k
    cases k
  cases hw with
  | ctrl =>
    have h0 : ¬ v.getLsbD 0 = true := fun k => hr ⟨rfl, k⟩
    injection h with h
    rw [if_neg h0] at h
    subst h
    exact ⟨rfl, rfl, rfl, rfl, rfl, rfl, rfl, rfl, rfl, ⟨rfl, rfl, rfl⟩, ⟨rfl, rfl, rfl, rfl⟩, ⟨rfl, rfl, rfl⟩, rfl, rfl,
      ⟨rfl, rfl⟩, fun _ => ⟨rfl, rfl, rfl, rfl, rfl⟩⟩
  | param p =>
    rw [exec_setParam] at h
    injection h with h
    subst h
    exact kept_unlessBusy (fun hb => ⟨rfl, rfl, rfl, rfl, rfl, rfl, rfl, rfl, rfl, ⟨rfl, rfl, rfl⟩, ⟨rfl, rfl, rfl, rfl⟩,
      ⟨rfl, rfl, rfl⟩, rfl, rfl, ⟨rfl, rfl⟩, idle hb⟩)
  | specFs =>
    injection h with h
    subst h
    exact kept_unlessBusy (fun hb => ⟨rfl, rfl, rfl, rfl, rfl, rfl, rfl, rfl, rfl, ⟨rfl, rfl, rfl⟩, ⟨rfl, rfl, rfl, rfl⟩,
      ⟨rfl, rfl, rfl⟩, rfl, rfl, ⟨rfl, rfl⟩, idle hb⟩)
  | specMaxb =>
    injection h with h
    subst h
    exact kept_unlessBusy (fun hb => ⟨rfl, rfl, rfl, rfl, rfl, rfl, rfl, rfl, rfl, ⟨rfl, rfl, rfl⟩, ⟨rfl, rfl, rfl, rfl⟩,
      ⟨rfl, rfl, rfl⟩, rfl, rfl, ⟨rfl, rfl⟩, idle hb⟩)
  | specNch =>
    injection h with h
    subst h
    exact kept_unlessBusy (fun hb => ⟨rfl, rfl, rfl, rfl, rfl, rfl, rfl, rfl, rfl, ⟨rfl, rfl, rfl⟩, ⟨rfl, rfl, rfl, rfl⟩,
      ⟨rfl, rfl, rfl⟩, rfl, rfl, ⟨rfl, rfl⟩, idle hb⟩)
  | buf c n =>
    injection h with h
    subst h
    exact kept_unlessBusy (fun hb => ⟨rfl, rfl, rfl, rfl, rfl, rfl, rfl, rfl, rfl, ⟨rfl, rfl, rfl⟩, ⟨rfl, rfl, rfl, rfl⟩,
      ⟨rfl, rfl, rfl⟩, rfl, rfl, ⟨rfl, rfl⟩, idle hb⟩)
  | gain | tone | volume | bypass | status =>
    injection h with h
    subst h
    exact ⟨rfl, rfl, rfl, rfl, rfl, rfl, rfl, rfl, rfl, ⟨rfl, rfl, rfl⟩, ⟨rfl, rfl, rfl, rfl⟩, ⟨rfl, rfl, rfl⟩, rfl, rfl,
      ⟨rfl, rfl⟩, fun _ => ⟨rfl, rfl, rfl, rfl, rfl⟩⟩

/-- Only offset 0x008 is CTRL (10 R37). -/
theorem writeInstr_ctrl {r : Reg} {v w : Word} (h : writeInstr r v = some (.writeCtrl w)) : r = .ctrl := by
  cases r <;> simp only [writeInstr, Option.some.injEq, reduceCtorEq] at h <;> first | rfl | cases h | skip
  rename_i p
  cases p <;> cases h

/-- The offset of CTRL is 0x008 (10 R37). -/
theorem offset_of_ctrl {off : Offset} (ha : aligned off = true) (h : regAt off = .ctrl) : off = 0x008#16 := by
  unfold regAt at h
  split at h
  · cases h
  · have key : ∀ a : Fin 64, lowRegAt (4 * a.1) = .ctrl → a = 2 := by decide +kernel
    have hn : off.toNat < 0x100 := by
      by_contra hk
      unfold lowRegAt at h
      rw [if_neg hk] at h
      repeat' split at h
      all_goals cases h
    have ha' : off.toNat % 4 = 0 := by simpa [aligned] using ha
    have e := key ⟨off.toNat / 4, by omega⟩ (by simpa [show 4 * (off.toNat / 4) = off.toNat by omega] using h)
    have e' : off.toNat / 4 = 2 := congrArg Fin.val e
    exact BitVec.eq_of_toNat_eq (by show off.toNat = 8; omega)

/-- Everything a step that is no reset can do (20 R103): keep what commands write, accept a command, or complete one. -/
theorem effect_cases {s t : State} (h : Effect false s t) :
    Kept s t ∨ (∃ w, s.pending = none ∧ t = accept w s) ∨
    ∃ w, s.pending = some w ∧
      ((∃ i, decode (.command w) = .ok i ∧ exec i s = .next t) ∨ (legalCmd w = false ∧ t = executeIllegal s)) := by
  cases h with
  | same e => exact .inl (e ▸ Kept.refl s)
  | reject d wd e => exact .inl (e ▸ kept_reject d wd s)
  | cmd w e =>
    subst e
    unfold writeCmd
    split
    · exact .inl ⟨rfl, rfl, rfl, rfl, rfl, rfl, rfl, rfl, rfl, ⟨rfl, rfl, rfl⟩, ⟨rfl, rfl, rfl, rfl⟩, ⟨rfl, rfl, rfl⟩, rfl, rfl,
        ⟨rfl, rfl⟩, fun _ => ⟨rfl, rfl, rfl, rfl, rfl⟩⟩
    · rename_i hb
      exact .inr (.inl ⟨w, by simpa [State.busy] using hb, rfl⟩)
  | read off ha e =>
    injection e with e
    subst e
    split
    · exact .inl (kept_reject _ _ s)
    · exact .inl (kept_deliver _ s)
  | write off v i hd hr e =>
    obtain ⟨ha, -, hw, hw'⟩ := decodeWrite_cases hd
    refine .inl (kept_write hw' ?_ e)
    rintro ⟨rfl, h0⟩
    have := offset_of_ctrl ha (writeInstr_ctrl hw)
    exact absurd (hr (by simp only [softResets, this, h0]; rfl)) (by decide)
  | run w i hp hd e => exact .inr (.inr ⟨w, hp, .inl ⟨i, hd, e⟩⟩)
  | illegal w hp hl e => exact .inr (.inr ⟨w, hp, .inr ⟨hl, e⟩⟩)
  | powerOn hr e => cases hr

/-- A completion with any code but NONFINITE_COEF (40 R154). -/
theorem complete_eq {code : ResultCode} (info : Option (Stage × Nat)) (s : State) (h : code ≠ .nonfiniteCoef) :
    complete code info s = { s with
      status := s.status.completed code, lastCmd := s.pending.getD s.lastCmd, pending := none
      abortRange := Range.empty } := by
  have e : recordFault code info s = s := by cases code <;> first | rfl | exact absurd rfl h
  unfold complete
  rw [e]

/-- A completion with NONFINITE_COEF (40 R154, 60 R310). -/
theorem complete_nonfinite (f : Stage × Nat) (s : State) :
    complete .nonfiniteCoef (some f) s = { s with
      status := { s.status with fatal := true, result := .nonfiniteCoef, done := true, err := s.status.err || true }
      faultInfo := faultRecord f.1 f.2, lastCmd := s.pending.getD s.lastCmd, pending := none
      abortRange := Range.empty } := rfl

@[simp] theorem complete_result (code : ResultCode) (info : Option (Stage × Nat)) (s : State) :
    (complete code info s).status.result = code := rfl
@[simp] theorem complete_done (code : ResultCode) (info : Option (Stage × Nat)) (s : State) :
    (complete code info s).status.done = true := rfl

/-- While idle a read of SNAP_* and NORM_* returns what they hold (10 R50, R51). -/
theorem snapRead_idle {s : State} (h : s.busy = false) : s.snapRead = s.snapNow := by
  unfold State.snapRead; rw [if_neg (by simp [h])]

/-- While BUSY it returns what they held before the command in flight was accepted (20 R95). -/
theorem snapRead_busy {s : State} (h : s.busy = true) : s.snapRead = s.snapBefore := if_pos h

/-- Acceptance changes no read of them (20 R95). -/
theorem snapRead_accept (w : Word) (s : State) : (accept w s).snapRead = s.snapNow := rfl

/-- A step that neither accepts nor completes a command changes no read of them (20 R95). -/
theorem Kept.snapRead {s t : State} (h : Kept s t) : t.snapRead = s.snapRead := by
  obtain ⟨h1, h2, h3, h4⟩ := h.snapshot
  obtain ⟨n1, n2, n3⟩ := h.normalised
  have hb : t.busy = s.busy := by simp only [State.busy, h.pending]
  have hn : t.snapNow = s.snapNow := by simp only [State.snapNow, h1, h2, h3, h4, n1, n2, n3]
  unfold State.snapRead
  rw [hb, hn, h.snapBefore]

/-- The latency bound of a command whose resolve succeeds, or would (70 R360). -/
theorem latencyBound_ok {s : State} {rows : CoefFile} (h : s.resolve s.activeFs = .ok rows) :
    latencyBound s = Config.lFixed + Config.lSample * (s.abortRange.len * s.abortRange.nch) := by
  unfold latencyBound; rw [h]

/-- The latency bound of an error completion for a failing resolve (70 R360). -/
theorem latencyBound_error {s : State} {f : Stage × Nat} (h : s.resolve s.activeFs = .error f) :
    latencyBound s = Config.lFixed := by
  unfold latencyBound; rw [h]

/-- The latency bound of a command that is not on the transform path (70 R343, R360). -/
theorem latencyBound_empty {s : State} (h : s.abortRange = Range.empty) : latencyBound s = Config.lFixed := by
  unfold latencyBound
  rw [h]
  split <;> simp [Range.empty]

end Sys2Proof.Machine
end

