-- ==== Sys2Proof/Laws/PerInstr.lean ====
section
/-! SUPPORT. For each instruction: its encoding is one that its row of the opcode table admits (30 R120). -/

namespace Sys2Proof

/-- The encoded vocabularies (30 R120). -/
inductive Vocabulary where
  | command | hostWrite | hostRead | stageKind | shaperMode
deriving DecidableEq, Repr

/-- A row of the opcode table: its vocabulary, the bits it fixes and their values. -/
structure TableRow where
  vocabulary : Vocabulary
  mask : Nat
  bits : Nat
deriving DecidableEq, Repr

/-- Whether an encoding is one that a row admits. -/
def TableRow.admits (r : TableRow) : Code → Bool
  | .command w => r.vocabulary == .command && (w.toNat &&& r.mask) == r.bits
  | .hostWrite off _ => r.vocabulary == .hostWrite && (off.toNat &&& r.mask) == r.bits
  | .hostRead off => r.vocabulary == .hostRead && (off.toNat &&& r.mask) == r.bits
  | .stageKind code _ _ _ => r.vocabulary == .stageKind && (code.toNat &&& r.mask) == r.bits
  | .shaperMode code _ => r.vocabulary == .shaperMode && (code.toNat &&& r.mask) == r.bits

/-- Each instruction's row of the opcode table. -/
def Instr.row : Instr → TableRow
  | .nop => ⟨.command, 0xFFFFFFFF, 0x00000000⟩
  | .prepare => ⟨.command, 0xFFFFFFFF, 0x00000001⟩
  | .process _ => ⟨.command, 0x0000FFFF, 0x00000002⟩
  | .resolve => ⟨.command, 0xFFFFFFFF, 0x00000003⟩
  | .clearState => ⟨.command, 0xFFFFFFFF, 0x00000004⟩
  | .setGain _ => ⟨.hostWrite, 0xFFFF, 0x040⟩
  | .setTone _ => ⟨.hostWrite, 0xFFFF, 0x044⟩
  | .setVolume _ => ⟨.hostWrite, 0xFFFF, 0x048⟩
  | .setBypass _ => ⟨.hostWrite, 0xFFFF, 0x04C⟩
  | .setSpecFs _ => ⟨.hostWrite, 0xFFFF, 0x020⟩
  | .setSpecMaxb _ => ⟨.hostWrite, 0xFFFF, 0x024⟩
  | .setSpecNch _ => ⟨.hostWrite, 0xFFFF, 0x028⟩
  | .writeCtrl _ => ⟨.hostWrite, 0xFFFF, 0x008⟩
  | .clearStatus _ => ⟨.hostWrite, 0xFFFF, 0x00C⟩
  | .setParamHpFc _ => ⟨.hostWrite, 0xFFFF, 0x100⟩
  | .setParamAaMargin _ => ⟨.hostWrite, 0xFFFF, 0x104⟩
  | .setParamAaQ _ => ⟨.hostWrite, 0xFFFF, 0x108⟩
  | .setParamPkFa _ => ⟨.hostWrite, 0xFFFF, 0x10C⟩
  | .setParamPkFb _ => ⟨.hostWrite, 0xFFFF, 0x110⟩
  | .setParamPkFc _ => ⟨.hostWrite, 0xFFFF, 0x114⟩
  | .setParamPkGa _ => ⟨.hostWrite, 0xFFFF, 0x118⟩
  | .setParamPkGb _ => ⟨.hostWrite, 0xFFFF, 0x11C⟩
  | .setParamPkGc _ => ⟨.hostWrite, 0xFFFF, 0x120⟩
  | .setParamPkQa _ => ⟨.hostWrite, 0xFFFF, 0x124⟩
  | .setParamPkQb _ => ⟨.hostWrite, 0xFFFF, 0x128⟩
  | .setParamNtFa _ => ⟨.hostWrite, 0xFFFF, 0x12C⟩
  | .setParamNtFb _ => ⟨.hostWrite, 0xFFFF, 0x130⟩
  | .setParamNtFc _ => ⟨.hostWrite, 0xFFFF, 0x134⟩
  | .setParamNtQa _ => ⟨.hostWrite, 0xFFFF, 0x138⟩
  | .setParamNtQb _ => ⟨.hostWrite, 0xFFFF, 0x13C⟩
  | .setParamR1 _ => ⟨.hostWrite, 0xFFFF, 0x140⟩
  | .setParamR2 _ => ⟨.hostWrite, 0xFFFF, 0x144⟩
  | .setParamRg1 _ => ⟨.hostWrite, 0xFFFF, 0x148⟩
  | .setParamRg0 _ => ⟨.hostWrite, 0xFFFF, 0x14C⟩
  | .setParamRf _ => ⟨.hostWrite, 0xFFFF, 0x150⟩
  | .setParamRin _ => ⟨.hostWrite, 0xFFFF, 0x154⟩
  | .setParamInvPol _ => ⟨.hostWrite, 0xFFFF, 0x158⟩
  | .setParamShMode _ => ⟨.hostWrite, 0xFFFF, 0x15C⟩
  | .setParamShK0 _ => ⟨.hostWrite, 0xFFFF, 0x160⟩
  | .setParamShK1 _ => ⟨.hostWrite, 0xFFFF, 0x164⟩
  | .setParamShT _ => ⟨.hostWrite, 0xFFFF, 0x168⟩
  | .setParamPcFc _ => ⟨.hostWrite, 0xFFFF, 0x16C⟩
  | .setParamPcQ _ => ⟨.hostWrite, 0xFFFF, 0x170⟩
  | .setParamTnFmin _ => ⟨.hostWrite, 0xFFFF, 0x174⟩
  | .setParamTnFmax _ => ⟨.hostWrite, 0xFFFF, 0x178⟩
  | .setParamTnQ _ => ⟨.hostWrite, 0xFFFF, 0x17C⟩
  | .setParamPtR _ => ⟨.hostWrite, 0xFFFF, 0x180⟩
  | .setParamPtC _ => ⟨.hostWrite, 0xFFFF, 0x184⟩
  | .writeBuf _ _ _ => ⟨.hostWrite, 0x8003, 0x8000⟩
  | .read _ => ⟨.hostRead, 0x0003, 0x0000⟩
  | .stageFoHp _ _ _ => ⟨.stageKind, 0xFF, 0x01⟩
  | .stageBqLp _ _ _ => ⟨.stageKind, 0xFF, 0x02⟩
  | .stageBqPeak _ _ _ => ⟨.stageKind, 0xFF, 0x03⟩
  | .stageBqNotch _ _ _ => ⟨.stageKind, 0xFF, 0x04⟩
  | .stageGainNi _ _ _ => ⟨.stageKind, 0xFF, 0x05⟩
  | .stageGainInv _ _ _ => ⟨.stageKind, 0xFF, 0x06⟩
  | .stageShaper _ _ _ => ⟨.stageKind, 0xFF, 0x07⟩
  | .stageFoLp _ _ _ => ⟨.stageKind, 0xFF, 0x08⟩
  | .stageGainVol _ _ _ => ⟨.stageKind, 0xFF, 0x09⟩
  | .shaperModeAtanSym _ => ⟨.shaperMode, 0xFFFFFFFF, 0x00000000⟩
  | .shaperModeAtanDoc _ => ⟨.shaperMode, 0xFFFFFFFF, 0x00000001⟩
  | .shaperModeCubic _ => ⟨.shaperMode, 0xFFFFFFFF, 0x00000002⟩

/-- A well-formed instruction's encoding is one its row admits. -/
def Laws.MatchesItsRow.Statement (i : Instr) : Prop := i.wf = true → i.row.admits (encode i) = true

/-- An instruction whose row admits its encoding. -/
theorem admits_of {i : Instr} {r : TableRow} {c : Code} (h1 : i.row = r) (h2 : encode i = c) (h3 : r.admits c = true) :
    Laws.MatchesItsRow.Statement i := fun _ => h1 ▸ h2 ▸ h3

/-- The offset of a buffer word has bit 15 set and bits 1:0 clear (20 R97). -/
theorem bufAddr_bits (c : Chan) (n : BitVec 12) :
    ((BitVec.ofNat 16 (Machine.bufAddr c n.toNat)).toNat &&& 0x8003) = 0x8000 := by
  have hn := n.isLt
  have key : ∀ a : Fin 64, ∀ b : Fin 128,
      ((BitVec.ofNat 16 (0x8000 + 4 * (128 * a.1 + b.1))).toNat &&& 0x8003) = 0x8000 := by decide +kernel
  have h : 4096 * c.idx + n.toNat < 8192 := by cases c <;> simp only [Chan.idx] <;> omega
  have e := key ⟨(4096 * c.idx + n.toNat) / 128, by omega⟩ ⟨(4096 * c.idx + n.toNat) % 128, Nat.mod_lt _ (by decide)⟩
  rwa [Nat.div_add_mod] at e

/-- A multiple of four has bits 1:0 clear. -/
theorem and_three_of_mod {n : Nat} (h : n % 4 = 0) : (n &&& 3) = 0 :=
  (Nat.and_two_pow_sub_one_eq_mod n 2).trans h

/-- The low half of a PROCESS word is its operation code (30 R121). -/
theorem process_low (len : BitVec 16) : ((len ++ 0x0002#16).toNat &&& 0xFFFF) = 2 := by
  have h : (len ++ 0x0002#16).toNat = len.toNat * 2 ^ 16 + 2 := by
    rw [BitVec.toNat_append, ← Nat.shiftLeft_add_eq_or_of_lt (by decide), Nat.shiftLeft_eq]; rfl
  rw [h]
  exact (Nat.and_two_pow_sub_one_eq_mod _ 16).trans (by omega)

theorem Laws.MatchesItsRow.nop : Laws.MatchesItsRow.Statement (.nop) :=
  admits_of (r := ⟨.command, 0xFFFFFFFF, 0x00000000⟩) (c := .command 0x00000000) rfl rfl rfl
theorem Laws.MatchesItsRow.prepare : Laws.MatchesItsRow.Statement (.prepare) :=
  admits_of (r := ⟨.command, 0xFFFFFFFF, 0x00000001⟩) (c := .command 0x00000001) rfl rfl rfl
theorem Laws.MatchesItsRow.process (len : BitVec 16) : Laws.MatchesItsRow.Statement (.process len) :=
  fun _ => by simp [Instr.row, TableRow.admits, encode, process_low]
theorem Laws.MatchesItsRow.resolve : Laws.MatchesItsRow.Statement (.resolve) :=
  admits_of (r := ⟨.command, 0xFFFFFFFF, 0x00000003⟩) (c := .command 0x00000003) rfl rfl rfl
theorem Laws.MatchesItsRow.clearState : Laws.MatchesItsRow.Statement (.clearState) :=
  admits_of (r := ⟨.command, 0xFFFFFFFF, 0x00000004⟩) (c := .command 0x00000004) rfl rfl rfl
theorem Laws.MatchesItsRow.setGain (v : Word) : Laws.MatchesItsRow.Statement (.setGain v) :=
  admits_of (r := ⟨.hostWrite, 0xFFFF, 0x040⟩) (c := .hostWrite 0x040 v) rfl rfl rfl
theorem Laws.MatchesItsRow.setTone (v : Word) : Laws.MatchesItsRow.Statement (.setTone v) :=
  admits_of (r := ⟨.hostWrite, 0xFFFF, 0x044⟩) (c := .hostWrite 0x044 v) rfl rfl rfl
theorem Laws.MatchesItsRow.setVolume (v : Word) : Laws.MatchesItsRow.Statement (.setVolume v) :=
  admits_of (r := ⟨.hostWrite, 0xFFFF, 0x048⟩) (c := .hostWrite 0x048 v) rfl rfl rfl
theorem Laws.MatchesItsRow.setBypass (v : Word) : Laws.MatchesItsRow.Statement (.setBypass v) :=
  admits_of (r := ⟨.hostWrite, 0xFFFF, 0x04C⟩) (c := .hostWrite 0x04C v) rfl rfl rfl
theorem Laws.MatchesItsRow.setSpecFs (v : Word) : Laws.MatchesItsRow.Statement (.setSpecFs v) :=
  admits_of (r := ⟨.hostWrite, 0xFFFF, 0x020⟩) (c := .hostWrite 0x020 v) rfl rfl rfl
theorem Laws.MatchesItsRow.setSpecMaxb (v : Word) : Laws.MatchesItsRow.Statement (.setSpecMaxb v) :=
  admits_of (r := ⟨.hostWrite, 0xFFFF, 0x024⟩) (c := .hostWrite 0x024 v) rfl rfl rfl
theorem Laws.MatchesItsRow.setSpecNch (v : Word) : Laws.MatchesItsRow.Statement (.setSpecNch v) :=
  admits_of (r := ⟨.hostWrite, 0xFFFF, 0x028⟩) (c := .hostWrite 0x028 v) rfl rfl rfl
theorem Laws.MatchesItsRow.writeCtrl (v : Word) : Laws.MatchesItsRow.Statement (.writeCtrl v) :=
  admits_of (r := ⟨.hostWrite, 0xFFFF, 0x008⟩) (c := .hostWrite 0x008 v) rfl rfl rfl
theorem Laws.MatchesItsRow.clearStatus (v : Word) : Laws.MatchesItsRow.Statement (.clearStatus v) :=
  admits_of (r := ⟨.hostWrite, 0xFFFF, 0x00C⟩) (c := .hostWrite 0x00C v) rfl rfl rfl
theorem Laws.MatchesItsRow.setParamHpFc (v : Word) : Laws.MatchesItsRow.Statement (.setParamHpFc v) :=
  admits_of (r := ⟨.hostWrite, 0xFFFF, 0x100⟩) (c := .hostWrite 0x100 v) rfl rfl rfl
theorem Laws.MatchesItsRow.setParamAaMargin (v : Word) : Laws.MatchesItsRow.Statement (.setParamAaMargin v) :=
  admits_of (r := ⟨.hostWrite, 0xFFFF, 0x104⟩) (c := .hostWrite 0x104 v) rfl rfl rfl
theorem Laws.MatchesItsRow.setParamAaQ (v : Word) : Laws.MatchesItsRow.Statement (.setParamAaQ v) :=
  admits_of (r := ⟨.hostWrite, 0xFFFF, 0x108⟩) (c := .hostWrite 0x108 v) rfl rfl rfl
theorem Laws.MatchesItsRow.setParamPkFa (v : Word) : Laws.MatchesItsRow.Statement (.setParamPkFa v) :=
  admits_of (r := ⟨.hostWrite, 0xFFFF, 0x10C⟩) (c := .hostWrite 0x10C v) rfl rfl rfl
theorem Laws.MatchesItsRow.setParamPkFb (v : Word) : Laws.MatchesItsRow.Statement (.setParamPkFb v) :=
  admits_of (r := ⟨.hostWrite, 0xFFFF, 0x110⟩) (c := .hostWrite 0x110 v) rfl rfl rfl
theorem Laws.MatchesItsRow.setParamPkFc (v : Word) : Laws.MatchesItsRow.Statement (.setParamPkFc v) :=
  admits_of (r := ⟨.hostWrite, 0xFFFF, 0x114⟩) (c := .hostWrite 0x114 v) rfl rfl rfl
theorem Laws.MatchesItsRow.setParamPkGa (v : Word) : Laws.MatchesItsRow.Statement (.setParamPkGa v) :=
  admits_of (r := ⟨.hostWrite, 0xFFFF, 0x118⟩) (c := .hostWrite 0x118 v) rfl rfl rfl
theorem Laws.MatchesItsRow.setParamPkGb (v : Word) : Laws.MatchesItsRow.Statement (.setParamPkGb v) :=
  admits_of (r := ⟨.hostWrite, 0xFFFF, 0x11C⟩) (c := .hostWrite 0x11C v) rfl rfl rfl
theorem Laws.MatchesItsRow.setParamPkGc (v : Word) : Laws.MatchesItsRow.Statement (.setParamPkGc v) :=
  admits_of (r := ⟨.hostWrite, 0xFFFF, 0x120⟩) (c := .hostWrite 0x120 v) rfl rfl rfl
theorem Laws.MatchesItsRow.setParamPkQa (v : Word) : Laws.MatchesItsRow.Statement (.setParamPkQa v) :=
  admits_of (r := ⟨.hostWrite, 0xFFFF, 0x124⟩) (c := .hostWrite 0x124 v) rfl rfl rfl
theorem Laws.MatchesItsRow.setParamPkQb (v : Word) : Laws.MatchesItsRow.Statement (.setParamPkQb v) :=
  admits_of (r := ⟨.hostWrite, 0xFFFF, 0x128⟩) (c := .hostWrite 0x128 v) rfl rfl rfl
theorem Laws.MatchesItsRow.setParamNtFa (v : Word) : Laws.MatchesItsRow.Statement (.setParamNtFa v) :=
  admits_of (r := ⟨.hostWrite, 0xFFFF, 0x12C⟩) (c := .hostWrite 0x12C v) rfl rfl rfl
theorem Laws.MatchesItsRow.setParamNtFb (v : Word) : Laws.MatchesItsRow.Statement (.setParamNtFb v) :=
  admits_of (r := ⟨.hostWrite, 0xFFFF, 0x130⟩) (c := .hostWrite 0x130 v) rfl rfl rfl
theorem Laws.MatchesItsRow.setParamNtFc (v : Word) : Laws.MatchesItsRow.Statement (.setParamNtFc v) :=
  admits_of (r := ⟨.hostWrite, 0xFFFF, 0x134⟩) (c := .hostWrite 0x134 v) rfl rfl rfl
theorem Laws.MatchesItsRow.setParamNtQa (v : Word) : Laws.MatchesItsRow.Statement (.setParamNtQa v) :=
  admits_of (r := ⟨.hostWrite, 0xFFFF, 0x138⟩) (c := .hostWrite 0x138 v) rfl rfl rfl
theorem Laws.MatchesItsRow.setParamNtQb (v : Word) : Laws.MatchesItsRow.Statement (.setParamNtQb v) :=
  admits_of (r := ⟨.hostWrite, 0xFFFF, 0x13C⟩) (c := .hostWrite 0x13C v) rfl rfl rfl
theorem Laws.MatchesItsRow.setParamR1 (v : Word) : Laws.MatchesItsRow.Statement (.setParamR1 v) :=
  admits_of (r := ⟨.hostWrite, 0xFFFF, 0x140⟩) (c := .hostWrite 0x140 v) rfl rfl rfl
theorem Laws.MatchesItsRow.setParamR2 (v : Word) : Laws.MatchesItsRow.Statement (.setParamR2 v) :=
  admits_of (r := ⟨.hostWrite, 0xFFFF, 0x144⟩) (c := .hostWrite 0x144 v) rfl rfl rfl
theorem Laws.MatchesItsRow.setParamRg1 (v : Word) : Laws.MatchesItsRow.Statement (.setParamRg1 v) :=
  admits_of (r := ⟨.hostWrite, 0xFFFF, 0x148⟩) (c := .hostWrite 0x148 v) rfl rfl rfl
theorem Laws.MatchesItsRow.setParamRg0 (v : Word) : Laws.MatchesItsRow.Statement (.setParamRg0 v) :=
  admits_of (r := ⟨.hostWrite, 0xFFFF, 0x14C⟩) (c := .hostWrite 0x14C v) rfl rfl rfl
theorem Laws.MatchesItsRow.setParamRf (v : Word) : Laws.MatchesItsRow.Statement (.setParamRf v) :=
  admits_of (r := ⟨.hostWrite, 0xFFFF, 0x150⟩) (c := .hostWrite 0x150 v) rfl rfl rfl
theorem Laws.MatchesItsRow.setParamRin (v : Word) : Laws.MatchesItsRow.Statement (.setParamRin v) :=
  admits_of (r := ⟨.hostWrite, 0xFFFF, 0x154⟩) (c := .hostWrite 0x154 v) rfl rfl rfl
theorem Laws.MatchesItsRow.setParamInvPol (v : Word) : Laws.MatchesItsRow.Statement (.setParamInvPol v) :=
  admits_of (r := ⟨.hostWrite, 0xFFFF, 0x158⟩) (c := .hostWrite 0x158 v) rfl rfl rfl
theorem Laws.MatchesItsRow.setParamShMode (v : Word) : Laws.MatchesItsRow.Statement (.setParamShMode v) :=
  admits_of (r := ⟨.hostWrite, 0xFFFF, 0x15C⟩) (c := .hostWrite 0x15C v) rfl rfl rfl
theorem Laws.MatchesItsRow.setParamShK0 (v : Word) : Laws.MatchesItsRow.Statement (.setParamShK0 v) :=
  admits_of (r := ⟨.hostWrite, 0xFFFF, 0x160⟩) (c := .hostWrite 0x160 v) rfl rfl rfl
theorem Laws.MatchesItsRow.setParamShK1 (v : Word) : Laws.MatchesItsRow.Statement (.setParamShK1 v) :=
  admits_of (r := ⟨.hostWrite, 0xFFFF, 0x164⟩) (c := .hostWrite 0x164 v) rfl rfl rfl
theorem Laws.MatchesItsRow.setParamShT (v : Word) : Laws.MatchesItsRow.Statement (.setParamShT v) :=
  admits_of (r := ⟨.hostWrite, 0xFFFF, 0x168⟩) (c := .hostWrite 0x168 v) rfl rfl rfl
theorem Laws.MatchesItsRow.setParamPcFc (v : Word) : Laws.MatchesItsRow.Statement (.setParamPcFc v) :=
  admits_of (r := ⟨.hostWrite, 0xFFFF, 0x16C⟩) (c := .hostWrite 0x16C v) rfl rfl rfl
theorem Laws.MatchesItsRow.setParamPcQ (v : Word) : Laws.MatchesItsRow.Statement (.setParamPcQ v) :=
  admits_of (r := ⟨.hostWrite, 0xFFFF, 0x170⟩) (c := .hostWrite 0x170 v) rfl rfl rfl
theorem Laws.MatchesItsRow.setParamTnFmin (v : Word) : Laws.MatchesItsRow.Statement (.setParamTnFmin v) :=
  admits_of (r := ⟨.hostWrite, 0xFFFF, 0x174⟩) (c := .hostWrite 0x174 v) rfl rfl rfl
theorem Laws.MatchesItsRow.setParamTnFmax (v : Word) : Laws.MatchesItsRow.Statement (.setParamTnFmax v) :=
  admits_of (r := ⟨.hostWrite, 0xFFFF, 0x178⟩) (c := .hostWrite 0x178 v) rfl rfl rfl
theorem Laws.MatchesItsRow.setParamTnQ (v : Word) : Laws.MatchesItsRow.Statement (.setParamTnQ v) :=
  admits_of (r := ⟨.hostWrite, 0xFFFF, 0x17C⟩) (c := .hostWrite 0x17C v) rfl rfl rfl
theorem Laws.MatchesItsRow.setParamPtR (v : Word) : Laws.MatchesItsRow.Statement (.setParamPtR v) :=
  admits_of (r := ⟨.hostWrite, 0xFFFF, 0x180⟩) (c := .hostWrite 0x180 v) rfl rfl rfl
theorem Laws.MatchesItsRow.setParamPtC (v : Word) : Laws.MatchesItsRow.Statement (.setParamPtC v) :=
  admits_of (r := ⟨.hostWrite, 0xFFFF, 0x184⟩) (c := .hostWrite 0x184 v) rfl rfl rfl
theorem Laws.MatchesItsRow.writeBuf (c : Chan) (n : BitVec 12) (v : Word) : Laws.MatchesItsRow.Statement (.writeBuf c n v) :=
  fun _ => by simp only [Instr.row, TableRow.admits, encode, bufAddr_bits]; rfl
theorem Laws.MatchesItsRow.read (off : Offset) : Laws.MatchesItsRow.Statement (.read off) :=
  fun h => by
    simp only [Instr.row, TableRow.admits, encode, and_three_of_mod (beq_iff_eq.1 h)]; rfl
theorem Laws.MatchesItsRow.stageFoHp (c : Chan) (st : Stage) (x : Word) : Laws.MatchesItsRow.Statement (.stageFoHp c st x) :=
  admits_of (r := ⟨.stageKind, 0xFF, 0x01⟩) (c := .stageKind 0x01 c st x) rfl rfl rfl
theorem Laws.MatchesItsRow.stageBqLp (c : Chan) (st : Stage) (x : Word) : Laws.MatchesItsRow.Statement (.stageBqLp c st x) :=
  admits_of (r := ⟨.stageKind, 0xFF, 0x02⟩) (c := .stageKind 0x02 c st x) rfl rfl rfl
theorem Laws.MatchesItsRow.stageBqPeak (c : Chan) (st : Stage) (x : Word) : Laws.MatchesItsRow.Statement (.stageBqPeak c st x) :=
  admits_of (r := ⟨.stageKind, 0xFF, 0x03⟩) (c := .stageKind 0x03 c st x) rfl rfl rfl
theorem Laws.MatchesItsRow.stageBqNotch (c : Chan) (st : Stage) (x : Word) : Laws.MatchesItsRow.Statement (.stageBqNotch c st x) :=
  admits_of (r := ⟨.stageKind, 0xFF, 0x04⟩) (c := .stageKind 0x04 c st x) rfl rfl rfl
theorem Laws.MatchesItsRow.stageGainNi (c : Chan) (st : Stage) (x : Word) : Laws.MatchesItsRow.Statement (.stageGainNi c st x) :=
  admits_of (r := ⟨.stageKind, 0xFF, 0x05⟩) (c := .stageKind 0x05 c st x) rfl rfl rfl
theorem Laws.MatchesItsRow.stageGainInv (c : Chan) (st : Stage) (x : Word) : Laws.MatchesItsRow.Statement (.stageGainInv c st x) :=
  admits_of (r := ⟨.stageKind, 0xFF, 0x06⟩) (c := .stageKind 0x06 c st x) rfl rfl rfl
theorem Laws.MatchesItsRow.stageShaper (c : Chan) (st : Stage) (x : Word) : Laws.MatchesItsRow.Statement (.stageShaper c st x) :=
  admits_of (r := ⟨.stageKind, 0xFF, 0x07⟩) (c := .stageKind 0x07 c st x) rfl rfl rfl
theorem Laws.MatchesItsRow.stageFoLp (c : Chan) (st : Stage) (x : Word) : Laws.MatchesItsRow.Statement (.stageFoLp c st x) :=
  admits_of (r := ⟨.stageKind, 0xFF, 0x08⟩) (c := .stageKind 0x08 c st x) rfl rfl rfl
theorem Laws.MatchesItsRow.stageGainVol (c : Chan) (st : Stage) (x : Word) : Laws.MatchesItsRow.Statement (.stageGainVol c st x) :=
  admits_of (r := ⟨.stageKind, 0xFF, 0x09⟩) (c := .stageKind 0x09 c st x) rfl rfl rfl
theorem Laws.MatchesItsRow.shaperModeAtanSym (x : Word) : Laws.MatchesItsRow.Statement (.shaperModeAtanSym x) :=
  admits_of (r := ⟨.shaperMode, 0xFFFFFFFF, 0x00000000⟩) (c := .shaperMode 0x00000000 x) rfl rfl rfl
theorem Laws.MatchesItsRow.shaperModeAtanDoc (x : Word) : Laws.MatchesItsRow.Statement (.shaperModeAtanDoc x) :=
  admits_of (r := ⟨.shaperMode, 0xFFFFFFFF, 0x00000001⟩) (c := .shaperMode 0x00000001 x) rfl rfl rfl
theorem Laws.MatchesItsRow.shaperModeCubic (x : Word) : Laws.MatchesItsRow.Statement (.shaperModeCubic x) :=
  admits_of (r := ⟨.shaperMode, 0xFFFFFFFF, 0x00000002⟩) (c := .shaperMode 0x00000002 x) rfl rfl rfl

end Sys2Proof
end

