-- ==== Sys2Proof/Laws/Sqrt.lean ====
section
/-! SUPPORT. The square root (00 R13): the integer root it starts from, and its result between two powers of four. -/

namespace Sys2Proof.Machine.F32

/-- The bitwise root brackets its argument. -/
theorem isqrtBits_spec (n : Nat) : ∀ b r : Nat, r * r ≤ n → n < (r + 2 ^ b) * (r + 2 ^ b) →
    isqrtBits n b r * isqrtBits n b r ≤ n ∧ n < (isqrtBits n b r + 1) * (isqrtBits n b r + 1) := by
  intro b
  induction b with
  | zero =>
    intro r h1 h2
    exact ⟨h1, by simpa [isqrtBits] using h2⟩
  | succ b ih =>
    intro r h1 h2
    simp only [isqrtBits]
    split
    · rename_i h
      exact ih _ h (by rw [Nat.add_assoc, ← Nat.two_mul, ← Nat.pow_succ']; exact h2)
    · rename_i h
      exact ih _ h1 (by omega)

/-- The integer square root (00 R13). -/
theorem isqrt_spec {n : Nat} (h : n < 2 ^ 214 * 2 ^ 214) : isqrt n * isqrt n ≤ n ∧ n < (isqrt n + 1) * (isqrt n + 1) :=
  isqrtBits_spec n 214 0 (Nat.zero_le _) (by rw [Nat.zero_add]; exact h)

theorem sq_le_sq {a b : Nat} (h : a * a ≤ b * b) : a ≤ b := Nat.mul_self_le_mul_self_iff.1 h

/-- The rounded root is at least every whole number whose square is at most the argument. -/
theorem le_roundSqrt {n e k : Nat} (hn : n < 2 ^ 214 * 2 ^ 214) (h : k * k * 4 ^ e ≤ n) : k ≤ roundSqrt n e := by
  have hp : 0 < 4 ^ e := Nat.pow_pos (by decide)
  have hq : k * k ≤ n / 4 ^ e := (Nat.le_div_iff_mul_le hp).2 h
  obtain ⟨-, s2⟩ := isqrt_spec (Nat.lt_of_le_of_lt (Nat.div_le_self n (4 ^ e)) hn)
  have hk : k ≤ isqrt (n / 4 ^ e) := by
    by_contra hc
    have := Nat.mul_self_le_mul_self (show isqrt (n / 4 ^ e) + 1 ≤ k by omega)
    omega
  unfold roundSqrt
  simp only
  split
  · exact hk
  · split <;> omega

/-- The rounded root is at most every whole number whose square is at least the argument. -/
theorem roundSqrt_le {n e k : Nat} (hn : n < 2 ^ 214 * 2 ^ 214) (h : n ≤ k * k * 4 ^ e) : roundSqrt n e ≤ k := by
  have hp : 0 < 4 ^ e := Nat.pow_pos (by decide)
  obtain ⟨s1, -⟩ := isqrt_spec (Nat.lt_of_le_of_lt (Nat.div_le_self n (4 ^ e)) hn)
  have h1 : n / 4 ^ e ≤ k * k := by
    have := Nat.div_le_div_right (c := 4 ^ e) h
    rwa [Nat.mul_div_cancel _ hp] at this
  have hq : isqrt (n / 4 ^ e) ≤ k := sq_le_sq (Nat.le_trans s1 h1)
  unfold roundSqrt
  simp only
  generalize isqrt (n / 4 ^ e) = q at *
  rcases Nat.lt_or_ge q k with hlt | hge
  · split
    · omega
    · split <;> omega
  · have e1 : q = k := by omega
    subst e1
    have : 4 * n < (2 * q + 1) * (2 * q + 1) * 4 ^ e := by
      have a1 : 4 * n ≤ 4 * (q * q) * 4 ^ e := by rw [Nat.mul_assoc]; exact Nat.mul_le_mul_left 4 h
      have a2 : 4 * (q * q) < (2 * q + 1) * (2 * q + 1) := by
        have : (2 * q + 1) * (2 * q + 1) = 4 * (q * q) + 4 * q + 1 := by ring
        omega
      exact Nat.lt_of_le_of_lt a1 (Nat.mul_lt_mul_of_pos_right a2 hp)
    rw [if_pos this]

/-- The square root of a positive finite value, as its exponent and its rounded root. -/
theorem mag_sqrt {x : Word} (hf : isFinite x = true) (hs : sign x = false) (h0 : 0 < mag x) :
    sign (sqrt x) = false ∧ ∃ e, e = Nat.log2 (isqrt (units x * 2 ^ 149)) - 23 ∧
      mag (sqrt x) = min (e * 0x800000 + roundSqrt (units x * 2 ^ 149) e) infMag := by
  have hz : isZero x = false := by
    rw [isZero, beq_eq_false_iff_ne]
    omega
  unfold sqrt
  simp only [isNaN_of_isFinite hf, hz, hs, isInf_of_isFinite hf, Bool.false_eq_true, if_false]
  exact ⟨sign_pack _ _, _, rfl, mag_pack _ _⟩

/-- The magnitude of a rounded root between two powers of four. -/
theorem sqrt_mag_bounds {n j k e : Nat} (hn : n < 2 ^ 214 * 2 ^ 214) (he : e = Nat.log2 (isqrt n) - 23) (hk : k < 254)
    (h1 : 2 ^ (j + 23) * 2 ^ (j + 23) ≤ n) (h2 : n ≤ 2 ^ (k + 23) * 2 ^ (k + 23)) :
    (j + 1) * 0x800000 ≤ min (e * 0x800000 + roundSqrt n e) infMag ∧
    min (e * 0x800000 + roundSqrt n e) infMag ≤ (k + 1) * 0x800000 := by
  obtain ⟨s1, s2⟩ := isqrt_spec hn
  have lo : 2 ^ (j + 23) ≤ isqrt n := by
    by_contra hc
    have := Nat.mul_self_le_mul_self (show isqrt n + 1 ≤ 2 ^ (j + 23) by omega)
    omega
  have hi : isqrt n ≤ 2 ^ (k + 23) := sq_le_sq (Nat.le_trans s1 h2)
  have hq0 : isqrt n ≠ 0 := by
    have := Nat.two_pow_pos (j + 23)
    omega
  have l1 : j + 23 ≤ Nat.log2 (isqrt n) := (Nat.le_log2 hq0).2 lo
  have l2 : Nat.log2 (isqrt n) ≤ k + 23 := by
    by_contra hc
    have := Nat.log2_self_le hq0
    have h3 : 2 ^ (k + 23 + 1) ≤ 2 ^ Nat.log2 (isqrt n) := Nat.pow_le_pow_right (by decide) (by omega)
    rw [Nat.pow_succ] at h3
    have := Nat.two_pow_pos (k + 23)
    omega
  have four : (4 : Nat) ^ e = 2 ^ e * 2 ^ e := by rw [← Nat.mul_pow]
  have hle : 23 + e = Nat.log2 (isqrt n) := by omega
  have p1 : 0x800000 * 0x800000 * 4 ^ e ≤ n := by
    have a := Nat.mul_self_le_mul_self (Nat.log2_self_le hq0)
    rw [← hle, Nat.pow_add] at a
    rw [four]
    calc 0x800000 * 0x800000 * (2 ^ e * 2 ^ e) = 2 ^ 23 * 2 ^ e * (2 ^ 23 * 2 ^ e) := by ring
      _ ≤ isqrt n * isqrt n := a
      _ ≤ n := s1
  have r1 := le_roundSqrt (e := e) (k := 0x800000) hn p1
  have p2 : n ≤ 0x1000000 * 0x1000000 * 4 ^ e := by
    have b : isqrt n + 1 ≤ 2 ^ 24 * 2 ^ e := by
      have : isqrt n < 2 ^ (Nat.log2 (isqrt n) + 1) := Nat.lt_log2_self
      rw [← hle, show 23 + e + 1 = 24 + e by omega, Nat.pow_add] at this
      omega
    have a := Nat.mul_self_le_mul_self b
    rw [four]
    calc n ≤ (isqrt n + 1) * (isqrt n + 1) := Nat.le_of_lt s2
      _ ≤ 2 ^ 24 * 2 ^ e * (2 ^ 24 * 2 ^ e) := a
      _ = 0x1000000 * 0x1000000 * (2 ^ e * 2 ^ e) := by ring
  have r2 := roundSqrt_le (e := e) (k := 0x1000000) hn p2
  have r3 : e = k → roundSqrt n e ≤ 0x800000 := by
    intro ek
    apply roundSqrt_le hn
    rw [four, ek]
    rw [Nat.pow_add] at h2
    calc n ≤ 2 ^ k * 2 ^ 23 * (2 ^ k * 2 ^ 23) := h2
      _ = 0x800000 * 0x800000 * (2 ^ k * 2 ^ k) := by ring
  have ej : j ≤ e := by omega
  have ek : e ≤ k := by omega
  clear p1 p2 four s1 s2 lo hi l1 l2 hn h1 h2
  unfold infMag
  generalize roundSqrt n e = R at *
  rcases Nat.eq_or_lt_of_le ek with h | h
  · have := r3 h
    omega
  · omega

/-- The square root of a value between two powers of four lies between their roots (00 R13). -/
theorem sqrt_bounds {x : Word} {j k : Nat} (hf : isFinite x = true) (hs : sign x = false) (h0 : 0 < mag x)
    (hk : k < 254) (h1 : 2 ^ (j + 23) * 2 ^ (j + 23) ≤ units x * 2 ^ 149)
    (h2 : units x * 2 ^ 149 ≤ 2 ^ (k + 23) * 2 ^ (k + 23)) :
    sign (sqrt x) = false ∧ (j + 1) * 0x800000 ≤ mag (sqrt x) ∧ mag (sqrt x) ≤ (k + 1) * 0x800000 := by
  obtain ⟨ss, e, he, hm⟩ := mag_sqrt hf hs h0
  have hn : units x * 2 ^ 149 < 2 ^ 214 * 2 ^ 214 := by
    have hx : units x ≤ unitsOf 0x7F7FFFFF := by
      rw [units_eq]
      apply unitsOf_le_iff.2
      have := isFinite_iff.1 hf
      unfold infMag at this
      omega
    exact Nat.lt_of_le_of_lt (Nat.mul_le_mul_right _ hx) (by decide +kernel)
  have := sqrt_mag_bounds hn he hk h1 h2
  exact ⟨ss, by rw [hm]; exact this.1, by rw [hm]; exact this.2⟩

end Sys2Proof.Machine.F32
end

