-- ==== Sys2Proof/Tests/Slice0.lean ====
section
/-! SUPPORT. Tests: ill-formed terms, words decoded, small steps with results from spec/95_test_vectors.md, and for each
obligation a witness that meets its hypotheses. -/

set_option Elab.async false

namespace Sys2Proof.Tests

open Sys2Proof.Machine Sys2Proof.Machine.F32

/-! Ill-formed terms (10 R59, 20 R91). -/

theorem test_wf_read_misaligned : (Instr.read 0x0002).wf = false ∧ (Instr.read 0xFFFF).wf = false ∧
    (Instr.read 0xFFFC).wf = true := ⟨rfl, rfl, rfl⟩
theorem test_wf_stage_kinds :
    (Instr.stageFoHp .ch0 .ptlp 0).wf = false ∧ (Instr.stageBqLp .ch0 .peak 0).wf = false ∧
    (Instr.stageBqPeak .ch0 .notch 0).wf = false ∧ (Instr.stageBqNotch .ch0 .aaf 0).wf = false ∧
    (Instr.stageGainNi .ch0 .gainInv 0).wf = false ∧ (Instr.stageGainInv .ch1 .vol 0).wf = false ∧
    (Instr.stageShaper .ch1 .hpf 0).wf = false ∧ (Instr.stageFoLp .ch1 .hpf 0).wf = false ∧
    (Instr.stageGainVol .ch1 .gainNi 0).wf = false := ⟨rfl, rfl, rfl, rfl, rfl, rfl, rfl, rfl, rfl⟩
theorem test_decode_refuses :
    decode (.command 0x00000005) = .error (.illegalCommand 0x00000005) ∧
    decode (.command 0x00000012) = .error (.illegalCommand 0x00000012) ∧
    decode (.hostWrite 0x8002 5) = .error (.misaligned 0x8002) ∧
    decode (.hostWrite 0x010 5) = .error (.commandRegister 5) ∧
    decode (.hostRead 0x001) = .error (.misaligned 0x001) ∧
    decode (.stageKind 0x00 .ch0 .hpf 0) = .error (.reservedStageKind 0x00) ∧
    decode (.stageKind 0xFF .ch0 .hpf 0) = .error (.reservedStageKind 0xFF) ∧
    decode (.stageKind 0x01 .ch0 .ptlp 0) = .error (.kindOfAnotherStage 0x01 .ptlp) ∧
    decode (.shaperMode 3 0) = .error (.reservedShaperMode 3) := ⟨rfl, rfl, rfl, rfl, rfl, rfl, rfl, rfl, rfl⟩

/-! Words of 30 R122, R127, R130 and R135, and what they decode to. -/

theorem test_decode_commands :
    decode (.command 0x00000000) = .ok .nop ∧ decode (.command 0x00000001) = .ok .prepare ∧
    decode (.command 0xFFFF0002) = .ok (.process 0xFFFF) ∧ decode (.command 0x00000002) = .ok (.process 0) ∧
    decode (.command 0x00000003) = .ok .resolve ∧ decode (.command 0x00000004) = .ok .clearState :=
  ⟨rfl, rfl, rfl, rfl, rfl, rfl⟩
theorem test_decode_registers :
    decode (.hostWrite 0x040 0x41200000) = .ok (.setGain 0x41200000) ∧
    decode (.hostWrite 0x044 1) = .ok (.setTone 1) ∧ decode (.hostWrite 0x048 2) = .ok (.setVolume 2) ∧
    decode (.hostWrite 0x04C 3) = .ok (.setBypass 3) ∧ decode (.hostWrite 0x020 4) = .ok (.setSpecFs 4) ∧
    decode (.hostWrite 0x024 5) = .ok (.setSpecMaxb 5) ∧ decode (.hostWrite 0x028 6) = .ok (.setSpecNch 6) ∧
    decode (.hostWrite 0x008 7) = .ok (.writeCtrl 7) ∧ decode (.hostWrite 0x00C 8) = .ok (.clearStatus 8) ∧
    decode (.hostWrite 0x8000 9) = .ok (.writeBuf .ch0 0 9) ∧
    decode (.hostWrite 0xBFFC 10) = .ok (.writeBuf .ch0 4095 10) ∧
    decode (.hostWrite 0xFFFC 11) = .ok (.writeBuf .ch1 4095 11) ∧ decode (.hostRead 0x7FFC) = .ok (.read 0x7FFC) :=
  ⟨rfl, rfl, rfl, rfl, rfl, rfl, rfl, rfl, rfl, rfl, rfl, rfl, rfl⟩
theorem test_decode_params_0 :
    decode (.hostWrite 0x100 0x3F800001) = .ok (.setParamHpFc 0x3F800001) ∧
    decode (.hostWrite 0x104 0x3F800001) = .ok (.setParamAaMargin 0x3F800001) ∧
    decode (.hostWrite 0x108 0x3F800001) = .ok (.setParamAaQ 0x3F800001) ∧
    decode (.hostWrite 0x10C 0x3F800001) = .ok (.setParamPkFa 0x3F800001) ∧
    decode (.hostWrite 0x110 0x3F800001) = .ok (.setParamPkFb 0x3F800001) ∧
    decode (.hostWrite 0x114 0x3F800001) = .ok (.setParamPkFc 0x3F800001) ∧
    decode (.hostWrite 0x118 0x3F800001) = .ok (.setParamPkGa 0x3F800001) ∧
    decode (.hostWrite 0x11C 0x3F800001) = .ok (.setParamPkGb 0x3F800001) ∧
    decode (.hostWrite 0x120 0x3F800001) = .ok (.setParamPkGc 0x3F800001) ∧
    decode (.hostWrite 0x124 0x3F800001) = .ok (.setParamPkQa 0x3F800001) ∧
    decode (.hostWrite 0x128 0x3F800001) = .ok (.setParamPkQb 0x3F800001) ∧
    decode (.hostWrite 0x12C 0x3F800001) = .ok (.setParamNtFa 0x3F800001) :=
  ⟨rfl, rfl, rfl, rfl, rfl, rfl, rfl, rfl, rfl, rfl, rfl, rfl⟩
theorem test_decode_params_1 :
    decode (.hostWrite 0x130 0x3F800001) = .ok (.setParamNtFb 0x3F800001) ∧
    decode (.hostWrite 0x134 0x3F800001) = .ok (.setParamNtFc 0x3F800001) ∧
    decode (.hostWrite 0x138 0x3F800001) = .ok (.setParamNtQa 0x3F800001) ∧
    decode (.hostWrite 0x13C 0x3F800001) = .ok (.setParamNtQb 0x3F800001) ∧
    decode (.hostWrite 0x140 0x3F800001) = .ok (.setParamR1 0x3F800001) ∧
    decode (.hostWrite 0x144 0x3F800001) = .ok (.setParamR2 0x3F800001) ∧
    decode (.hostWrite 0x148 0x3F800001) = .ok (.setParamRg1 0x3F800001) ∧
    decode (.hostWrite 0x14C 0x3F800001) = .ok (.setParamRg0 0x3F800001) ∧
    decode (.hostWrite 0x150 0x3F800001) = .ok (.setParamRf 0x3F800001) ∧
    decode (.hostWrite 0x154 0x3F800001) = .ok (.setParamRin 0x3F800001) ∧
    decode (.hostWrite 0x158 0x3F800001) = .ok (.setParamInvPol 0x3F800001) ∧
    decode (.hostWrite 0x15C 0x3F800001) = .ok (.setParamShMode 0x3F800001) :=
  ⟨rfl, rfl, rfl, rfl, rfl, rfl, rfl, rfl, rfl, rfl, rfl, rfl⟩
theorem test_decode_params_2 :
    decode (.hostWrite 0x160 0x3F800001) = .ok (.setParamShK0 0x3F800001) ∧
    decode (.hostWrite 0x164 0x3F800001) = .ok (.setParamShK1 0x3F800001) ∧
    decode (.hostWrite 0x168 0x3F800001) = .ok (.setParamShT 0x3F800001) ∧
    decode (.hostWrite 0x16C 0x3F800001) = .ok (.setParamPcFc 0x3F800001) ∧
    decode (.hostWrite 0x170 0x3F800001) = .ok (.setParamPcQ 0x3F800001) ∧
    decode (.hostWrite 0x174 0x3F800001) = .ok (.setParamTnFmin 0x3F800001) ∧
    decode (.hostWrite 0x178 0x3F800001) = .ok (.setParamTnFmax 0x3F800001) ∧
    decode (.hostWrite 0x17C 0x3F800001) = .ok (.setParamTnQ 0x3F800001) ∧
    decode (.hostWrite 0x180 0x3F800001) = .ok (.setParamPtR 0x3F800001) ∧
    decode (.hostWrite 0x184 0x3F800001) = .ok (.setParamPtC 0x3F800001) :=
  ⟨rfl, rfl, rfl, rfl, rfl, rfl, rfl, rfl, rfl, rfl⟩
theorem test_decode_stages :
    decode (.stageKind 0x01 .ch1 .hpf 7) = .ok (.stageFoHp .ch1 .hpf 7) ∧
    decode (.stageKind 0x02 .ch1 .tone 7) = .ok (.stageBqLp .ch1 .tone 7) ∧
    decode (.stageKind 0x03 .ch1 .peak 7) = .ok (.stageBqPeak .ch1 .peak 7) ∧
    decode (.stageKind 0x04 .ch1 .notch 7) = .ok (.stageBqNotch .ch1 .notch 7) ∧
    decode (.stageKind 0x05 .ch1 .gainNi 7) = .ok (.stageGainNi .ch1 .gainNi 7) ∧
    decode (.stageKind 0x06 .ch1 .gainInv 7) = .ok (.stageGainInv .ch1 .gainInv 7) ∧
    decode (.stageKind 0x07 .ch1 .shaper 7) = .ok (.stageShaper .ch1 .shaper 7) ∧
    decode (.stageKind 0x08 .ch1 .ptlp 7) = .ok (.stageFoLp .ch1 .ptlp 7) ∧
    decode (.stageKind 0x09 .ch1 .vol 7) = .ok (.stageGainVol .ch1 .vol 7) ∧
    decode (.shaperMode 0x00000000 7) = .ok (.shaperModeAtanSym 7) ∧
    decode (.shaperMode 0x00000001 7) = .ok (.shaperModeAtanDoc 7) ∧
    decode (.shaperMode 0x00000002 7) = .ok (.shaperModeCubic 7) :=
  ⟨rfl, rfl, rfl, rfl, rfl, rfl, rfl, rfl, rfl, rfl, rfl, rfl⟩

/-! Rows of the opcode table, read from their bits and run as the first instruction after reset (log 4). -/

theorem test_table_rows :
    decodeTableWord 32 0x00000001 = some .prepare ∧ decodeTableWord 32 0x00040002 = some (.process 4) ∧
    decodeTableWord 16 0x040 = some (.setGain 0) ∧ decodeTableWord 16 0x184 = some (.setParamPtC 0) ∧
    decodeTableWord 16 0x8000 = some (.writeBuf .ch0 0 0) ∧ decodeTableWord 16 0x0000 = some (.read 0) ∧
    decodeTableWord 8 0x08 = some (.stageFoLp .ch0 .ptlp 0) ∧ decodeTableWord 8 0x0A = none := ⟨rfl, rfl, rfl, rfl, rfl, rfl, rfl, rfl⟩
theorem test_fetch_word :
    step (State.reset.withFetchWord 32 0x00000004) = exec .clearState ((accept 4 State.reset).given []) ∧
    step (State.reset.withFetchWord 16 0x04C) = exec (.setBypass 0) State.reset ∧
    step (State.reset.withFetchWord 16 0x0004) = exec (.read 4) State.reset ∧
    step (State.reset.withFetchWord 8 0x06) = exec (.stageGainInv .ch0 .gainInv 0) State.reset := ⟨rfl, rfl, rfl, rfl⟩

/-! Small steps. Each expected value is one of spec/95_test_vectors.md, by its section. -/

/-- The state an instruction leaves; reset where it leaves none. -/
def after (i : Instr) (s : State) : State :=
  match exec i s with
  | .next t => t
  | .fault _ => State.reset
  | .refused _ => State.reset

/-- After reset, with a command word in flight. -/
def inFlight (w : Word) : State := { State.reset with pending := some w }

/-- 48000.0. -/
def fs48 : Word := 0x473B8000

/-- 0.5. -/
def half : Word := 0x3F000000

/-- After reset, with valid SPEC registers, the normalised controls of 5.0, and a command word in flight, on a machine whose
Sin32 is at most 1.0 (log 6). -/
def ready (w : Word) : State :=
  { inFlight w with sineBounded := true, specFs := fs48, specMaxb := 64, specNch := 2, normG := half, normT := half, normV := half }

/-- As `ready`, but prepared. -/
def prepared (w : Word) : State :=
  { ready w with
    activeFs := fs48, activeMaxb := 64, activeNch := 2, status := { Status.reset with prepared := true } }

/-- As `prepared`, with P_R2 = 0.0. -/
def broken (w : Word) : State := { prepared w with params := { Params.reset with r2 := 0 } }

/-- Idle, with a row of the coefficient file. -/
def withRow (st : Stage) (r : Row) : State := { State.reset with coef := zeroCoef.set st r }

-- Section 2.1.
theorem test_setGain : (after (.setGain 0x41200001) State.reset).gain = 0x41200000 ∧
    (after (.setGain 0x7FC00000) State.reset).gain = 0 := by decide +kernel
theorem test_setTone : (after (.setTone 0xC0400000) State.reset).tone = 0 ∧
    (after (.setTone 0x7F800000) State.reset).tone = 0x41200000 := by decide +kernel
theorem test_setVolume : (after (.setVolume 0x80000000) State.reset).volume = 0x80000000 ∧
    (after (.setVolume 0x00000001) State.reset).volume = 1 := by decide +kernel
theorem test_setBypass : (after (.setBypass 2) State.reset).readReg .bypass = 0 ∧
    (after (.setBypass 0xFFFFFFFF) State.reset).readReg .bypass = 1 := by decide +kernel
theorem test_normalise : div 0x3F4CCCCD TEN = 0x3DA3D70A ∧ div 0x00000001 TEN = 0 ∧ div 0x40400000 TEN = 0x3E99999A ∧
    div 0x80000000 TEN = 0x80000000 := by decide +kernel
theorem test_setSpec_busy : (after (.setSpecFs 7) (inFlight 0)).specFs = 0 ∧
    (after (.setSpecFs 7) (inFlight 0)).status.accErr = true ∧ (after (.setSpecMaxb 7) State.reset).specMaxb = 7 ∧
    (after (.setSpecNch 7) State.reset).specNch = 7 := by decide +kernel
theorem test_setParam_warl : (after (.setParamShMode 3) State.reset).params.shMode = .atanSym ∧
    (after (.setParamShMode 2) State.reset).params.shMode = .cubic ∧
    (after (.setParamInvPol 0xFFFFFFFF) State.reset).params.get .invPol = 1 ∧
    (after (.setParamR2 0x7FC00000) State.reset).params.r2 = 0x7FC00000 := by decide +kernel
theorem test_writeCtrl : (after (.writeCtrl 2) State.reset).readReg .ctrl = 2 ∧
    (after (.writeCtrl 3) (inFlight 0)).readReg .ctrl = 0 ∧ (after (.writeCtrl 3) (inFlight 0)).pending = none := by
  decide +kernel
theorem test_clearStatus :
    (after (.clearStatus 0x18) { State.reset with
      status := { Status.reset with done := true, err := true, result := .illegalCmd } }).statusWord = 0x00001000 ∧
    (after (.clearStatus 0xFFFFFFFF) { State.reset with
      status := { Status.reset with fatal := true, done := true, err := true, result := .faulted } }).statusWord =
      0x00002104 := by decide +kernel
theorem test_writeBuf : (after (.writeBuf .ch0 1 0x3F000000) State.reset).bufWordAt 0x8004 = 0x3F000000 ∧
    (after (.writeBuf .ch1 0 0x7FC00001) State.reset).bufWordAt 0xC000 = 0x7FC00001 := by decide +kernel
theorem test_read : (after (.read 0x000) State.reset).env.reply = [0x48, 0x43, 0x42, 0x42] ∧
    (after (.read 0x428) State.reset).env.reply = [9, 0, 0, 0] ∧
    (after (.read 0x8000) (inFlight 0)).env.reply = [0, 0, 0, 0] ∧
    (after (.read 0x8000) (inFlight 0)).status.accErr = true := by decide +kernel

-- Section 2.2.
theorem test_nop : (after .nop (inFlight 0)).statusWord = 0x00000008 := by decide +kernel
theorem test_process_unprepared : (after (.process 4) (inFlight 0x00040002)).statusWord = 0x00001118 ∧
    (after (.process 4) (inFlight 0x00040002)).lastCmd = 0x00040002 := by decide +kernel
theorem test_process_badLen : (after (.process 65) (prepared 0x00410002)).statusWord = 0x0000151A ∧
    (after (.process 65) (prepared 0x00410002)).blockCnt = 0 := by decide +kernel
theorem test_prepare_badFs : (after .prepare (inFlight 1)).statusWord = 0x00001218 ∧
    (after .prepare { ready 1 with specFs := 0x7F800000 }).status.result = .badFs := by decide +kernel
theorem test_prepare_badMaxb : (after .prepare { ready 1 with specMaxb := 0 }).statusWord = 0x00001318 ∧
    (after .prepare { ready 1 with specMaxb := 4097 }).statusWord = 0x00001318 := by decide +kernel
theorem test_prepare_badNch : (after .prepare { ready 1 with specNch := 3 }).statusWord = 0x00001418 ∧
    (after .prepare { ready 1 with specNch := 0x80000001 }).status.result = .badNch := by decide +kernel
theorem test_resolve_unprepared : (after .resolve (inFlight 3)).statusWord = 0x00001118 := by decide +kernel
theorem test_clearState :
    ((after .clearState { inFlight 4 with filter1 := PerStage.const ⟨1, 2⟩ }).filter1.get .tone).s2 = 0 ∧
    (after .clearState (inFlight 4)).statusWord = 0x00000008 := by decide +kernel
theorem test_bypassed : (after (.process 4) { prepared 0x00040002 with snapBypass := true }).statusWord = 0x0000018A ∧
    (after (.process 4) { prepared 0x00040002 with snapBypass := true }).blockCnt = 1 := by decide +kernel

-- Section 2.4: the first two samples of the impulse and step responses, and a subnormal state.
theorem test_stageFoHp :
    (after (.stageFoHp .ch0 .hpf 0x3F800000) (withRow .hpf ⟨0x3F7FAA53, 0xBF7FAA53, 0, 0xBF7F54A6, 0, 0x41A00000, 0, 0⟩)).env.sample
      = 0x3F7FAA53 ∧
    (after (.stageFoHp .ch0 .hpf 0) (after (.stageFoHp .ch0 .hpf 0x3F800000)
      (withRow .hpf ⟨0x3F7FAA53, 0xBF7FAA53, 0, 0xBF7F54A6, 0, 0x41A00000, 0, 0⟩))).env.sample = 0xBB2B2100 := by
  decide +kernel
theorem test_stageBqLp :
    (after (.stageBqLp .ch1 .aaf 0) (after (.stageBqLp .ch1 .aaf 0x3F800000) (withRow .aaf
      ⟨0x3F54B5BD, 0x3FD4B5BD, 0x3F54B5BD, 0x3FD105ED, 0x3F30CB1A, 0x46ABE000, 0x3F3504F3, 0⟩))).env.sample = 0x3E9C21C4 := by
  decide +kernel
theorem test_stageBqPeak :
    (after (.stageBqPeak .ch0 .peak 0) (after (.stageBqPeak .ch0 .peak 0x3F800000) (withRow .peak
      ⟨0x3F824DFE, 0xBFF5BF01, 0x3F68F416, 0xBFF5BF01, 0x3F6D9012, 0x442F0000, 0x3F800000, 0x3FC00000⟩))).env.sample
      = 0x3D0D9720 := by decide +kernel
theorem test_stageBqNotch :
    (after (.stageBqNotch .ch0 .notch 0x3F800000) (after (.stageBqNotch .ch0 .notch 0x3F800000) (withRow .notch
      ⟨0x3F5B6DB7, 0xBFBE07DD, 0x3F5B6DB7, 0xBFBE07DD, 0x3F36DB6E, 0x457A0000, 0x3FC00000, 0⟩))).env.sample = 0x3F252253 := by
  decide +kernel
theorem test_stageFoLp :
    ((after (.stageFoLp .ch0 .ptlp 0) { withRow .ptlp ⟨0x3DC1D7CC, 0x3DC1D7CC, 0, 0xBF4F8A0C, 0, 0x44C6F194, 0, 0⟩ with
      filter0 := zeroFilter.set .ptlp ⟨0x00800000, 0⟩ }).filter0.get .ptlp).s1 = 0x0067C506 := by decide +kernel

-- Section 2.5.
theorem test_stageGainNi :
    (after (.stageGainNi .ch0 .gainNi 0x00000001) (withRow .gainNi (gainRow 0x40D00000 0x40D00000))).env.sample = 6 ∧
    (after (.stageGainNi .ch0 .gainNi 0x7F7FFFFF) (withRow .gainNi (gainRow 0x41300000 0x41300000))).env.sample
      = 0x7F800000 := by decide +kernel
theorem test_stageGainInv :
    (after (.stageGainInv .ch0 .gainInv 0x00000000) (withRow .gainInv (gainRow 0x3F800000 0xBF800000))).env.sample
      = 0x80000000 := by decide +kernel
theorem test_stageGainVol :
    (after (.stageGainVol .ch0 .vol 0x00000003) (withRow .vol (gainRow 0x3F000000 0x3F000000))).env.sample = 2 ∧
    (after (.stageGainVol .ch0 .vol 0xC0400000) (withRow .vol (gainRow 0x3DA3D70A 0x3DA3D70A))).env.sample
      = 0xBE75C28F := by decide +kernel

-- Section 2.6; the arctangent is open, so of its modes only what no value of it decides.
theorem test_stageShaper :
    (after (.stageShaper .ch0 .shaper 0x3F400000)
      (withRow .shaper ⟨0x3F800000, 0x3F000000, 0x3FA00000, 0x3F17B426, 2, 0, 0, 0⟩)).env.sample = 0x3F3DA12F ∧
    (after (.stageShaper .ch0 .shaper 0xFF800000)
      (withRow .shaper ⟨0x3F800000, 0x3F000000, 0x3FA00000, 0x3F17B426, 2, 0, 0, 0⟩)).env.sample = 0xBF800000 := by
  decide +kernel
theorem test_shaperModeAtanSym :
    (after (.shaperModeAtanSym 0x80000000)
      (withRow .shaper ⟨0x3F800000, 0x3F000000, 0x3FA00000, 0x3F17B426, 0, 0, 0, 0⟩)).env.sample = 0x80000000 := by
  decide +kernel
theorem test_shaperModeAtanDoc :
    (after (.shaperModeAtanDoc 0x80000000)
      (withRow .shaper ⟨0x3F800000, 0x3F000000, 0x3FA00000, 0x3F17B426, 1, 0, 0, 0⟩)).env.sample = 0 := by decide +kernel
theorem test_shaperModeCubic :
    (after (.shaperModeCubic 0xBF800000)
      (withRow .shaper ⟨0x3F800000, 0x3F000000, 0x3FA00000, 0x3F17B426, 2, 0, 0, 0⟩)).env.sample = 0xBF6D097B ∧
    (after (.shaperModeCubic 0x3F9FFFFF)
      (withRow .shaper ⟨0x3F800000, 0x3F000000, 0x3FA00000, 0x3F17B426, 2, 0, 0, 0⟩)).env.sample = 0x3F800000 := by
  decide +kernel

-- Section 2.3: the rows of the resolver that need no transcendental function.
theorem test_rowGainNi : rowGainNi Params.reset half = gainRow 0x40D00000 0x40D00000 ∧
    rowGainNi { Params.reset with r2 := 0x80000000 } half = gainRow 0 0 := by decide +kernel
theorem test_rowGainInv : rowGainInv Params.reset = gainRow 0x3F800000 0x3F800000 ∧
    rowGainInv { Params.reset with rf := 0x469C4000 } = gainRow 0x40000000 0x40000000 := by decide +kernel
theorem test_rowShaper :
    rowShaper Params.reset half = ⟨0x3F800000, 0x3F000000, 0x3FA00000, 0x3F17B426, 0, 0, 0, 0⟩ ∧
    rowShaper { Params.reset with shT := 0x3F800000 } half =
      ⟨0x3F800000, 0x3F700000, 0x3F840000, 0x4217B426, 0, 0, 0, 0⟩ := by decide +kernel
theorem test_rowVol : rowVol half = gainRow half half := by decide +kernel
theorem test_fHi : fHi 0x45FA0000 = 0x45750000 ∧ fHi 0x472C4400 = 0x46A8D200 ∧ fHi 0x3F800000 = 0x3EFAE148 := by
  decide +kernel

-- 41 R249: the cutoffs, Qs and peak gain of the reference row set.
theorem test_hpf_f : clampF fs48 Params.reset.hpFc = 0x41A00000 := by decide +kernel
theorem test_aaf_f : clampF fs48 (sub (mul fs48 HALF) Params.reset.aaMargin) = 0x46ABE000 := by decide +kernel
theorem test_peak_f : clampF fs48 (quadratic Params.reset.pkFa Params.reset.pkFb Params.reset.pkFc half) = 0x442F0000 := by
  decide +kernel
theorem test_peak_q : clampQ (linear Params.reset.pkQa Params.reset.pkQb half) = 0x3F800000 := by decide +kernel
theorem test_peak_pg :
    clampPG (quadratic Params.reset.pkGa Params.reset.pkGb Params.reset.pkGc half) = 0x3FC00000 := by decide +kernel
theorem test_notch_f : clampF fs48 (quadratic Params.reset.ntFa Params.reset.ntFb Params.reset.ntFc half) = 0x457A0000 := by
  decide +kernel
theorem test_notch_q : clampQ (linear Params.reset.ntQa Params.reset.ntQb half) = 0x3FC00000 := by decide +kernel
theorem test_pclp_f : clampF fs48 Params.reset.pcFc = 0x45FA0000 := by decide +kernel
theorem test_lp_q : clampQ (0x3F3504F3#32) = 0x3F3504F3 := by decide +kernel
theorem test_tone_f : toneCutoff Params.reset fs48 half = 0x45898000 := by decide +kernel
theorem test_ptlp_f :
    clampF fs48 (div ONE (mul (mul TWO_PI32 Params.reset.ptR) Params.reset.ptC)) = 0x44C6F194 := by decide +kernel

/-! A state whose resolve succeeds, whatever Sin32, Cos32 and Tan32 are: the reference row set of 41 R249. -/

theorem lowPass_finite (f q : Word) (h0 : lt 0#32 (angle fs48 f) = true) (h1 : le (angle fs48 f) W_MAX = true)
    (hq : isFinite (mul TWO q) = true) (sq : sign (mul TWO q) = false) (hm : 0x3E000000 ≤ mag (mul TWO q)) :
    ∀ i ∈ [0, 1, 2, 3, 4], isFinite ((lowPassRow (cosW fs48 f) (alphaOf true fs48 f q) f q).get i) = true :=
  have ⟨sa, ma⟩ := alphaOf_bounds h0 h1 (sineAtMostOne_true _ h0 h1) hq sq hm
  lowPassRow_finite f q (cosW_bounds h0 h1) sa ma

theorem reset_rows_finite (st : Stage) :
    ∀ i ∈ checkedIndices st.kind, isFinite (((resolveRows true Params.reset half half half fs48).get st).get i) = true := by
  cases st with
  | hpf =>
    have hk := tan32_bounds (w := mul PI32 (div 0x41A00000#32 fs48)) (by decide +kernel) (by decide +kernel)
    intro i hi
    simp only [resolveRows, PerStage.get, rowHpf, test_hpf_f]
    exact (pass1Row_finite _ hk.2.2 hk.1 i hi).1
  | ptlp =>
    have hk := tan32_bounds (w := mul PI32 (div 0x44C6F194#32 fs48)) (by decide +kernel) (by decide +kernel)
    intro i hi
    simp only [resolveRows, PerStage.get, rowPtlp, test_ptlp_f]
    exact (pass1Row_finite _ hk.2.2 hk.1 i hi).2
  | aaf =>
    simp only [resolveRows, PerStage.get, rowAaf, test_aaf_f, show Params.reset.aaQ = 0x3F3504F3#32 from rfl, test_lp_q]
    exact lowPass_finite _ _ (by decide +kernel) (by decide +kernel) (by decide +kernel) (by decide +kernel)
      (by decide +kernel)
  | pclp =>
    simp only [resolveRows, PerStage.get, rowPclp, test_pclp_f, show Params.reset.pcQ = 0x3F3504F3#32 from rfl, test_lp_q]
    exact lowPass_finite _ _ (by decide +kernel) (by decide +kernel) (by decide +kernel) (by decide +kernel)
      (by decide +kernel)
  | tone =>
    simp only [resolveRows, PerStage.get, rowTone, test_tone_f, show Params.reset.tnQ = 0x3F3504F3#32 from rfl, test_lp_q]
    exact lowPass_finite _ _ (by decide +kernel) (by decide +kernel) (by decide +kernel) (by decide +kernel)
      (by decide +kernel)
  | peak =>
    have h := alphaOf_bounds (sb := true) (fs := fs48) (f := 0x442F0000#32) (q := 0x3F800000#32) (by decide +kernel) (by decide +kernel)
      (sineAtMostOne_true _ (by decide +kernel) (by decide +kernel))
      (by decide +kernel) (by decide +kernel) (by decide +kernel)
    simp only [resolveRows, PerStage.get, rowPeak, test_peak_f, test_peak_q, test_peak_pg]
    exact peakRow_finite _ _ (cosW_bounds (by decide +kernel) (by decide +kernel)) h.1 h.2 (by decide +kernel)
      (by decide +kernel) (by decide +kernel)
  | notch =>
    have h := alphaOf_bounds (sb := true) (fs := fs48) (f := 0x457A0000#32) (q := 0x3FC00000#32) (by decide +kernel) (by decide +kernel)
      (sineAtMostOne_true _ (by decide +kernel) (by decide +kernel))
      (by decide +kernel) (by decide +kernel) (by decide +kernel)
    simp only [resolveRows, PerStage.get, rowNotch, test_notch_f, test_notch_q]
    exact notchRow_finite _ _ (cosW_bounds (by decide +kernel) (by decide +kernel)) h.1 h.2
  | gainNi => simp only [resolveRows, PerStage.get, test_rowGainNi.1]; decide +kernel
  | gainInv => simp only [resolveRows, PerStage.get, test_rowGainInv.1]; decide +kernel
  | shaper => simp only [resolveRows, PerStage.get, test_rowShaper.1]; decide +kernel
  | vol => simp only [resolveRows, PerStage.get, test_rowVol]; decide +kernel

/-- The reference rows. -/
def refRows : CoefFile := resolveRows true Params.reset half half half fs48

theorem resolve_ready (w : Word) : (ready w).resolve fs48 = .ok refRows :=
  resolve_ok_of_rows reset_rows_finite

theorem resolve_prepared (w : Word) : (prepared w).resolve fs48 = .ok refRows :=
  resolve_ok_of_rows reset_rows_finite

/-- 60 R311: with P_R2 = 0.0 the first word that is not finite is word 0 of stage 4. -/
theorem resolve_broken (w : Word) : (broken w).resolve fs48 = .error (.gainNi, 0) := by
  have stages : ∀ st : Stage, st.idx < 4 → ∀ i ∈ checkedIndices st.kind,
      isFinite (((resolveRows true { Params.reset with r2 := 0 } half half half fs48).get st).get i) = true := by
    intro st h
    cases st with
    | hpf => exact reset_rows_finite .hpf
    | aaf => exact reset_rows_finite .aaf
    | peak => exact reset_rows_finite .peak
    | notch => exact reset_rows_finite .notch
    | _ => simp only [Stage.idx] at h; omega
  have bad : isFinite ((rowGainNi { Params.reset with r2 := 0 } half).get 0) = false := by decide +kernel
  show resolve true { Params.reset with r2 := 0 } half half half fs48 = _
  unfold resolve firstNonfinite
  have hw : checkedWords = [(.hpf, 0), (.hpf, 1), (.hpf, 3), (.aaf, 0), (.aaf, 1), (.aaf, 2), (.aaf, 3), (.aaf, 4),
      (.peak, 0), (.peak, 1), (.peak, 2), (.peak, 3), (.peak, 4), (.notch, 0), (.notch, 1), (.notch, 2), (.notch, 3),
      (.notch, 4), (.gainNi, 0)] ++ checkedWords.drop 19 := by decide
  have e : checkedWords.find? (fun w => !isFinite (((resolveRows true { Params.reset with r2 := 0 } half half half fs48).get w.1).get w.2)) =
      some (.gainNi, 0) := by
    have g : ∀ (st : Stage) (i : Nat), st.idx < 4 → i ∈ checkedIndices st.kind →
        (!isFinite (((resolveRows true { Params.reset with r2 := 0 } half half half fs48).get st).get i)) = false := by
      intro st i h hi
      rw [stages st h i hi]; rfl
    have b : (!isFinite (((resolveRows true { Params.reset with r2 := 0 } half half half fs48).get .gainNi).get 0)) = true := by
      show (!isFinite ((rowGainNi { Params.reset with r2 := 0 } half).get 0)) = true
      rw [bad]; rfl
    rw [hw]
    simp only [List.cons_append, List.find?_cons]
    rw [g .hpf 0 (by decide) (by decide), g .hpf 1 (by decide) (by decide), g .hpf 3 (by decide) (by decide),
      g .aaf 0 (by decide) (by decide), g .aaf 1 (by decide) (by decide), g .aaf 2 (by decide) (by decide),
      g .aaf 3 (by decide) (by decide), g .aaf 4 (by decide) (by decide),
      g .peak 0 (by decide) (by decide), g .peak 1 (by decide) (by decide), g .peak 2 (by decide) (by decide),
      g .peak 3 (by decide) (by decide), g .peak 4 (by decide) (by decide),
      g .notch 0 (by decide) (by decide), g .notch 1 (by decide) (by decide), g .notch 2 (by decide) (by decide),
      g .notch 3 (by decide) (by decide), g .notch 4 (by decide) (by decide), b]
  simp only
  rw [e]

/-- 70 R360: the bound of a PROCESS of two channels of 64 samples, and of the same PROCESS when its resolve fails. -/
theorem test_latencyBound (w : Word) :
    latencyBound { prepared w with abortRange := ⟨2, 64⟩ } = Config.lFixed + Config.lSample * (64 * 2) ∧
    latencyBound { broken w with abortRange := ⟨2, 64⟩ } = Config.lFixed :=
  ⟨latencyBound_ok (rows := refRows) (resolve_prepared w), latencyBound_error (resolve_broken w)⟩

/-- 20 R95: NORM_G reads 0.0 while the first PREPARE after reset is in flight, and 0.5 (95 section 1) once it completes. -/
theorem test_snapRead :
    (accept 1 State.reset).readReg .normG = 0 ∧ (accept 1 State.reset).normG = half ∧
    (complete .ok none (accept 1 State.reset)).readReg .normG = half := by decide +kernel

/-! A witness for each obligation with hypotheses: values that meet them together, each clause at a boundary. -/

theorem wit_PowerOnResetLeavesResetValues : (0x7FFC : Offset).toNat < 0x8000 ∧ aligned 0x7FFC = true := by decide
theorem wit_SoftResetKeepsTheBuffer :
    (0x00000001#32).getLsbD 0 = true ∧ (0x7FFC : Offset).toNat < 0x8000 ∧ aligned 0x7FFC = true ∧ 4095 < 4096 := by decide
theorem wit_ConstantRegistersReadTheirConstants : (0x000, 0x42424348) ∈ constantRegisters ∧ (0x428, 9) ∈ constantRegisters := by
  decide
theorem wit_SilentCorrectionsLeaveTheStatus :
    Instr.setVolume 7 ∈ [Instr.setGain 7, .setTone 7, .setVolume 7] ∧
    (State.reset.busy = false ∧ 3#32 ≠ 0#32 ∧ 3#32 ≠ 1#32 ∧ 3#32 ≠ 2#32) ∧
    (aligned 0xD54 = true ∧ (readOnlyOffset 0xD54 || reservedOffset 0xD54) = true) ∧
    (aligned 0x7FFC = true ∧ (readOnlyOffset 0x7FFC || reservedOffset 0x7FFC) = true) := by decide
theorem wit_ReservedOffsetsReadZero :
    (aligned 0x03C = true ∧ reservedOffset 0x03C = true) ∧ (aligned 0x7FFC = true ∧ reservedOffset 0x7FFC = true) ∧
    (Config.base + 0x10000 < Config.base ∨ Config.base + 0xFFFF < Config.base + 0x10000) :=
  ⟨by decide, by decide, .inr (Nat.add_lt_add_left (by decide) _)⟩
theorem wit_WrongAccessesAreRejected :
    ((Access.mk .read .w64 0).width ≠ .w32 ∨ (0x000 : Offset).toNat % 4 ≠ 0) ∧
    ((Access.mk .write .w32 0).width ≠ .w32 ∨ (0xFFFF : Offset).toNat % 4 ≠ 0) := by decide
theorem wit_BusyRejectsInputsAndBuffer :
    (inFlight 0).busy = true ∧
    ([0x020, 0x028, 0x100, 0x184, 0x8000, 0xFFFC, 0x7FFC, 0x040, 0x044, 0x048, 0x04C, 0x008, 0x00C, 0x010].all aligned = true) ∧
    (specOrParamOffset 0x020 = true ∧ specOrParamOffset 0x184 = true) ∧
    (0x8000 ≤ (0x8000 : Offset).toNat ∧ 0x8000 ≤ (0xFFFC : Offset).toNat ∧ (0x7FFC : Offset).toNat < 0x8000) ∧
    (2#32).getLsbD 0 = false ∧ (8#32).getLsbD 3 = true ∧ State.reset.pending = none ∧ State.reset.busy = false ∧
    ([0x050, 0x068, 0x800, 0x95C, 0xD54, 0x7FFF].all readbackOffset = true) ∧ (inFlight 0).env.stageCall = none ∧
    step ((inFlight 0).given [.window 0x8000 ⟨.write, .w32, 7⟩]) = .next (setAccErr (inFlight 0)) ∧
    (setAccErr (inFlight 0)).pending = (inFlight 0).pending :=
  ⟨rfl, by decide, by decide, by decide, rfl, rfl, rfl, rfl, by decide, rfl, rfl, rfl⟩
theorem wit_TheWindowIsLittleEndian :
    (aligned 0xFFFC = true ∧ (State.reset.busy = false ∨ (0xFFFC : Offset).toNat < 0x8000)) ∧
    (aligned 0x7FFC = true ∧ ((inFlight 0).busy = false ∨ (0x7FFC : Offset).toNat < 0x8000)) ∧
    State.reset.busy = false ∧ 3 < 4 := by decide
theorem wit_ReadDeliversTheWord :
    (aligned 0x8000 = true ∧ aligned 0x7FFC = true) ∧
    ((0x068, State.reset.normV) ∈ registerMap State.reset ∧ (0x184, Params.reset.ptC) ∈ paramMap Params.reset) ∧
    ((inStageOrder State.reset.coef)[10]? = some Row.zero ∧ 7 < 8) ∧
    ((inStageOrder State.reset.filter0)[10]? = some ⟨0, 0⟩ ∧ (inStageOrder State.reset.filter1)[10]? = some ⟨0, 0⟩) ∧
    4095 < 4096 := by decide
theorem wit_WriteBufStoresOneWord : (inFlight 0).busy = true ∧ State.reset.busy = false := by decide
theorem wit_SetParamStoresItsRegister : (inFlight 0).busy = true ∧ State.reset.busy = false ∧ ParamId.hpFc ≠ .ptC := by decide
theorem wit_WriteCtrlResetsOrSetsIrqEn : (3#32).getLsbD 0 = true ∧ (2#32).getLsbD 0 = false := by decide
theorem wit_IrqIsEnabledDone :
    exec (.writeCtrl 2) (inFlight 0) = .next (after (.writeCtrl 2) (inFlight 0)) ∧
    exec (.writeCtrl 0) (inFlight 0) = .next (after (.writeCtrl 0) (inFlight 0)) ∧
    (8#32).getLsbD 3 = true ∧ exec (.clearStatus 8) (inFlight 0) = .next (after (.clearStatus 8) (inFlight 0)) :=
  ⟨rfl, rfl, rfl, rfl⟩
theorem wit_AcceptanceTakesTheSnapshot : State.reset.pending = none := rfl
theorem wit_OverrunDiscardsTheWord : (inFlight 0).busy = true := rfl
theorem wit_CompleteWritesTheResult : (inFlight 7).pending = some 7 ∧ ResultCode.ok ≠ .nonfiniteCoef := by decide
theorem wit_ResultsFollowThePriority :
    (broken 1).pending = some 1 ∧ resultOf 1 (broken 1) = .nonfiniteCoef ∧
    (broken 3).pending = some 3 ∧ resultOf 3 (broken 3) = .nonfiniteCoef := by
  have e1 : resultOf 1 (broken 1) = match (broken 1).resolve fs48 with
      | .error _ => ResultCode.nonfiniteCoef
      | .ok _ => ResultCode.ok := rfl
  have e3 : resultOf 3 (broken 3) = match (broken 3).resolve fs48 with
      | .error _ => ResultCode.nonfiniteCoef
      | .ok _ => ResultCode.ok := rfl
  rw [e1, e3, resolve_broken, resolve_broken]
  exact ⟨rfl, rfl, rfl, rfl⟩
theorem wit_ErrorsArePrecise :
    (inFlight 1).pending = some 1 ∧ step ((inFlight 1).given [.complete]) = .next (after .prepare ((inFlight 1).given [])) ∧
    (after .prepare ((inFlight 1).given [])).status.result.isError = true :=
  ⟨rfl, rfl, rfl⟩
theorem wit_IllegalWordsCompleteWithIllegalCmd :
    State.reset.pending = none ∧ State.reset.status.fatal = false ∧
    (5#32 ≠ 0#32 ∧ 5#32 ≠ 1#32 ∧ (5#32).setWidth 16 ≠ 2#16 ∧ 5#32 ≠ 3#32 ∧ 5#32 ≠ 4#32) ∧
    (0x00010001#32 ≠ 0#32 ∧ 0x00010001#32 ≠ 1#32 ∧ (0x00010001#32).setWidth 16 ≠ 2#16 ∧ 0x00010001#32 ≠ 3#32 ∧
      0x00010001#32 ≠ 4#32) := by decide

/-- Faulted, with a command in flight. -/
def faulted (es : List Event) : State :=
  { inFlight 0 with
    status := { Status.reset with fatal := true }, faultInfo := 0x80000004, env := { Env.initial with inbox := es } }

theorem wit_FatalIsClearedOnlyByReset :
    (faulted [.complete]).status.fatal = true ∧ (faulted [.complete]).env.stageCall = none ∧
    (faulted [.complete]).resetsNext = false ∧
    step (faulted [.complete]) = .next (after .nop { faulted [] with env := Env.initial }) ∧
    (faulted [.complete]).pending = some 0 ∧ (after .nop { faulted [] with env := Env.initial }).pending = none :=
  ⟨rfl, rfl, rfl, rfl, rfl, rfl⟩
theorem wit_InputsAreFrozenWhileBusy :
    ((inFlight 0).given [.window 0x8000 ⟨.write, .w32, 7⟩]).busy = true ∧
    ((inFlight 0).given [.window 0x8000 ⟨.write, .w32, 7⟩]).env.stageCall = none ∧
    step ((inFlight 0).given [.window 0x8000 ⟨.write, .w32, 7⟩]) = .next (setAccErr (inFlight 0)) ∧
    (setAccErr (inFlight 0)).pending = ((inFlight 0).given [.window 0x8000 ⟨.write, .w32, 7⟩]).pending :=
  ⟨rfl, rfl, rfl, rfl⟩
theorem wit_CommandsIgnoreTheLiveControls :
    Instr.clearState ∈ [Instr.nop, .prepare, .process 4, .resolve, .clearState] ∧
    exec .clearState (inFlight 4) = .next (after .clearState (inFlight 4)) := ⟨by decide, rfl⟩
theorem wit_EveryAcceptedCommandCompletes :
    (inFlight 0).env.stageCall = none ∧ 1 ≤ latencyBound (inFlight 0) + 1 ∧
    latencyBound (inFlight 0) ≤ (inFlight 0).env.elapsed + (latencyBound (inFlight 0) + 1) ∧
    State.reset.pending = none :=
  ⟨rfl, Nat.le_add_left _ _, by omega, rfl⟩
theorem wit_BlockCntCountsProcessedBlocks :
    ((inFlight 0).given [.clock]).env.stageCall = none ∧ ((inFlight 0).given [.clock]).resetsNext = false ∧
    (∃ t, step ((inFlight 0).given []) = .next t) := ⟨rfl, rfl, _, rfl⟩

/-- What a PREPARE of `ready` leaves. -/
def committed : State := complete .ok none (commitPrepare refRows (ready 1))

theorem step_ready : step (ready 1) = .next committed := by
  have e : step (ready 1) = .next (match (ready 1).resolve fs48 with
      | .error f => complete .nonfiniteCoef (some f) (ready 1)
      | .ok rows => complete .ok none (commitPrepare rows (ready 1))) := rfl
  rw [e, resolve_ready]
  rfl
theorem wit_CoefficientsComeFromAResolve :
    (ready 1).env.stageCall = none ∧ (ready 1).resetsNext = false ∧ step (ready 1) = .next committed ∧
    committed.coef ≠ (ready 1).coef := by
  refine ⟨rfl, rfl, step_ready, fun h => ?_⟩
  have e : committed.coef = refRows := rfl
  have h1 : refRows.gainInv = Row.zero := by rw [← e, h]; rfl
  have h2 : refRows.gainInv = rowGainInv Params.reset := rfl
  rw [h2, test_rowGainInv.1] at h1
  exact absurd (congrArg Row.w0 h1) (by decide)
theorem wit_FilterStateHasFourWriters :
    (ready 1).env.stageCall = none ∧ (ready 1).resetsNext = false ∧ step (ready 1) = .next committed :=
  ⟨rfl, rfl, step_ready⟩
theorem wit_PrepareLatchesTheSpec :
    (ready 1).pending = some 1 ∧ (ready 1).status.fatal = false ∧ isFinite (ready 1).specFs = true ∧
    lt 0#32 (ready 1).specFs = true ∧ 1 ≤ (ready 1).specMaxb.toNat ∧ (ready 1).specMaxb.toNat ≤ 4096 ∧
    ((ready 1).specNch = 1#32 ∨ (ready 1).specNch = 2#32) ∧ (ready 1).resolve (ready 1).specFs = .ok refRows :=
  ⟨rfl, rfl, by decide +kernel, by decide +kernel, by decide, by decide, .inr rfl, resolve_ready 1⟩
theorem wit_PrepareReportsConfigurationErrors :
    (ready 1).pending = some 1 ∧ (ready 1).status.fatal = false ∧
    (¬ (isFinite 0x7F800000 = true ∧ lt 0#32 0x7F800000 = true) ∧ ¬ (isFinite 0 = true ∧ lt 0#32 0 = true)) ∧
    (isFinite 0x00000001 = true ∧ lt 0#32 0x00000001 = true) ∧
    ((4097#32).toNat = 0 ∨ 4096 < (4097#32).toNat) ∧ ((0#32).toNat = 0 ∨ 4096 < (0#32).toNat) ∧
    (1 ≤ (4096#32).toNat ∧ (4096#32).toNat ≤ 4096 ∧ 0#32 ≠ 1#32 ∧ 3#32 ≠ 2#32 ∧ 0#32 ≠ 2#32 ∧ 3#32 ≠ 1#32) := by
  decide +kernel
theorem wit_NonfiniteCoefficientLatchesFatal :
    (broken 1).pending = some 1 ∧ (broken 1).status.fatal = false ∧ fsValid (broken 1).specFs = true ∧
    maxbValid (broken 1).specMaxb = true ∧ nchValid (broken 1).specNch = true ∧
    (broken 1).resolve (broken 1).specFs = .error (.gainNi, 0) ∧ (broken 1).status.prepared = true ∧
    (broken 1).resolve (broken 1).activeFs = .error (.gainNi, 0) ∧
    (64#16).toNat ≤ (broken 1).activeMaxb.toNat ∧ (broken 1).snapBypass = false :=
  ⟨rfl, rfl, by decide +kernel, by decide, by decide, resolve_broken 1, rfl, resolve_broken 1, by decide, rfl⟩
theorem wit_ProcessWithoutTransformLeavesTheBlock :
    ((inFlight 0x00040002).pending = some 0x00040002 ∧ (inFlight 0x00040002).status.fatal = false ∧
      (inFlight 0x00040002).status.prepared = false) ∧
    ((prepared 2).pending = some 2 ∧ (prepared 2).status.fatal = false ∧ (prepared 2).status.prepared = true ∧
      (prepared 2).activeMaxb.toNat < (65#16).toNat ∧ (64#16).toNat ≤ (prepared 2).activeMaxb.toNat) ∧
    { prepared 2 with snapBypass := true }.snapBypass = true := by decide
theorem wit_ProcessTransformsTheBlock :
    (prepared 2).pending = some 2 ∧ (prepared 2).status.fatal = false ∧ (prepared 2).status.prepared = true ∧
    maxbValid (prepared 2).activeMaxb = true ∧ (64#16).toNat ≤ (prepared 2).activeMaxb.toNat ∧
    (prepared 2).snapBypass = false ∧ (prepared 2).resolve (prepared 2).activeFs = .ok refRows ∧
    Chan.ch1.idx < (prepared 2).activeNch.toNat ∧ { prepared 2 with activeNch := 1 }.activeNch.toNat ≤ Chan.ch1.idx ∧
    ¬ inRange (prepared 2).activeNch.toNat (64#16).toNat 0x8100 := by
  refine ⟨rfl, rfl, rfl, by decide, by decide, rfl, resolve_prepared 2, by decide, by decide, ?_⟩
  rintro ⟨c, n, h1, h2, h3, h4⟩
  have h2' : n < 64 := h2
  cases c <;> simp only [bufAddr, Chan.idx] at h3 h4 <;> omega
theorem wit_ResolveWritesTheCoefficients :
    (prepared 3).pending = some 3 ∧ (prepared 3).status.fatal = false ∧ (prepared 3).status.prepared = true ∧
    (prepared 3).resolve (prepared 3).activeFs = .ok refRows ∧ (inFlight 3).status.prepared = false :=
  ⟨rfl, rfl, rfl, resolve_prepared 3, rfl⟩
theorem wit_NopAndClearStateCompleteWithOk : (inFlight 0).pending = some 0 ∧ (inFlight 0).status.fatal = false ∧
    (faulted []).pending = some 0 ∧ (faulted []).status.fatal = true := ⟨rfl, rfl, rfl, rfl⟩
theorem wit_FilterStagesFollowTheirRules :
    Instr.stageBqNotch .ch1 .notch 7 ∈ [Instr.stageBqLp .ch1 .notch 7, .stageBqPeak .ch1 .notch 7, .stageBqNotch .ch1 .notch 7] ∧
    Instr.stageFoLp .ch1 .ptlp 7 ∈ [Instr.stageFoHp .ch1 .ptlp 7, .stageFoLp .ch1 .ptlp 7] := by decide
theorem wit_GainStagesMultiply :
    Instr.stageGainVol .ch1 .vol 7 ∈ [Instr.stageGainNi .ch1 .vol 7, .stageGainInv .ch1 .vol 7, .stageGainVol .ch1 .vol 7] := by
  decide
theorem wit_ShaperModesFollowTheirRules :
    State.reset.coef.shaper.w4 = 0#32 ∧ (withRow .shaper ⟨0, 0, 0, 0, 1, 0, 0, 0⟩).coef.shaper.w4 = 1#32 ∧
    (withRow .shaper ⟨0, 0, 0, 0, 2, 0, 0, 0⟩).coef.shaper.w4 = 2#32 := ⟨rfl, rfl, rfl⟩
theorem wit_FlatPeakIsTheIdentity :
    isFinite half = true ∧ le 0#32 half = true ∧ 0x3F800000#32 ≠ 0x80000000#32 ∧
    isFinite (mul (peakRow half half fs48 half 0x3F800000#32).w3 0x3F800000#32) = true ∧
    isFinite (mul (peakRow half half fs48 half 0x3F800000#32).w4 0x3F800000#32) = true := by decide +kernel
theorem wit_GainIsOddAndMonotone :
    isNaN (mul TWO HALF) = false ∧ isNaN (mul TWO ONE) = false ∧ le 0#32 TWO = true ∧ le HALF ONE = true ∧
    isNaN (mul NEG_TWO HALF) = false ∧ isNaN (mul NEG_TWO ONE) = false ∧ lt NEG_TWO 0#32 = true := by decide +kernel
theorem wit_SymmetricShapesAreOdd : isNaN 0x7F800000 = false ∧ isFinite (withRow .shaper ⟨half, 0, 0, 0, 0, 0, 0, 0⟩).coef.shaper.w0 = true := by
  decide +kernel
theorem wit_CubicOutputIsFinite : isNaN Params.reset.shT = false ∧ isNaN 0x7F800000 = false := by decide +kernel
theorem wit_NansAreQuietAndPropagate :
    (isNaN 0x7FC00000 = true ∨ isNaN 0 = true) ∧ isNaN (add 0x7FC00000 0) = true ∧ isNaN (sqrt NEG_ONE) = true ∧
    isFinite 0x7F800000 = false ∧ isFinite 0xFF800000 = false :=
  ⟨.inl (by decide +kernel), isNaN_quietNaN _ _ _, isNaN_quietNaN _ _ _, by decide +kernel, by decide +kernel⟩
theorem wit_TranscendentalsMeetTheirProperties :
    (∃ t, step State.reset = .next t) ∧ isNaN 0x7F800001 = true ∧ isNaN 0xFF800000 = false ∧ le 0x00000001 0x7F800000 = true ∧
    (lt 0#32 0x40450A6C = true ∧ le 0x40450A6C 0x40450A6C#32 = true) ∧ (lt 0#32 1 = true ∧ le 1 0x40450A6C#32 = true) ∧
    isFinite 0x7F7FFFFF = true ∧ (lt 0#32 0x3FC50A6C = true ∧ le 0x3FC50A6C 0x3FC50A6C#32 = true) :=
  ⟨⟨_, rfl⟩, by decide +kernel⟩
theorem wit_ResolveReportsTheFirstBadWord :
    resolve true Params.reset half half half fs48 = .ok (resolveRows true Params.reset half half half fs48) ∧
    resolve true { Params.reset with r2 := 0 } half half half fs48 = .error (.gainNi, 0) :=
  ⟨resolve_ready 1, resolve_broken 1⟩
theorem wit_ZeroResistorFaultsAtStageFour :
    let s := { broken 1 with status := Status.reset, specMaxb := 256, specNch := 1 }
    SineAtMostOne s.sineBounded ∧ s.pending = some 1#32 ∧ s.status = Status.reset ∧ s.specFs = 0x473B8000#32 ∧ s.specMaxb = 256#32 ∧
    s.specNch = 1#32 ∧ s.params = { Params.reset with r2 := 0#32 } ∧ s.normG = 0x3F000000#32 :=
  ⟨sineAtMostOne_true, rfl, rfl, rfl, rfl, rfl, rfl, rfl⟩
theorem wit_BiquadRowsAreFinite :
    isFinite ONE = true ∧ le 0x3F800000#32 ONE = true ∧ isFinite 0x7F7FFFFF = true ∧ le 0x3F800000#32 0x7F7FFFFF = true ∧
    (isNaN 0x7F800000 = false ∧ isNaN 0x80000000 = false ∧ 4 < 5) ∧
    le (sin32 true (angle ONE (clampF ONE 0x7F800000))) 0x3F800000#32 = true :=
  ⟨by decide +kernel, by decide +kernel, by decide +kernel, by decide +kernel, by decide +kernel,
    sineAtMostOne_true _ (by decide +kernel) (by decide +kernel)⟩
theorem wit_FirstOrderRowsAreFinite :
    isFinite ONE = true ∧ le 0x3F800000#32 ONE = true ∧ isNaN 0xFF800000 = false ∧ 3 ∈ [0, 1, 3] := by decide +kernel
theorem wit_ToneCutoffIsMonotone :
    isFinite fs48 = true ∧ lt 0#32 fs48 = true ∧ isFinite Params.reset.tnFmin = true ∧
    isFinite Params.reset.tnFmax = true ∧ le Params.reset.tnFmin Params.reset.tnFmax = true ∧
    isFinite (sub Params.reset.tnFmax Params.reset.tnFmin) = true ∧ legalControl 0 = true ∧ legalControl TEN = true ∧
    le 0 TEN = true := by decide +kernel
theorem wit_ControlsStayInTheirRange : legalControl 0x80000000 = true ∧ legalControl TEN = true := by decide +kernel
theorem wit_PersistedControlsAreRestored :
    legalControl State.reset.gain = true ∧ legalControl State.reset.tone = true ∧ legalControl State.reset.volume = true := by
  decide +kernel
theorem wit_DecodeOfEncode : (Instr.read 0xFFFC).wf = true ∧ (Instr.stageGainVol .ch1 .vol 7).wf = true := ⟨rfl, rfl⟩
theorem wit_EncodeOfDecode : decode (.hostWrite 0x7C 0) = .error (.noWriteOperation 0x7C) ∧
    decode (.hostWrite 0x184 0) = .ok (.setParamPtC 0) := ⟨rfl, rfl⟩
theorem wit_StepRunsTheDecodedInstruction :
    (inFlight 0xFFFF0002).pending = some 0xFFFF0002 ∧ decode (.command 0xFFFF0002) = .ok (.process 0xFFFF) ∧
    decode (.hostWrite 0xFFFC 7) = .ok (.writeBuf .ch1 4095 7) ∧ decode (.hostRead 0xFFFC) = .ok (.read 0xFFFC) ∧
    decode (StageCall.kind 0x09 .ch1 .vol 7).toCode = .ok (.stageGainVol .ch1 .vol 7) :=
  ⟨rfl, rfl, rfl, rfl, rfl⟩

/-- A state that is not the one after reset and meets the invariant: a NOP in flight with the interrupt enabled. -/
theorem wit_StepKeepsInv :
    State.Inv { inFlight 0 with irqEn := true } ∧ ∃ t, step { inFlight 0 with irqEn := true } = .next t := by
  refine ⟨⟨rfl, by decide +kernel, by decide +kernel, by decide +kernel, fun h => ?_, by decide +kernel, .inl rfl, by decide +kernel,
    by decide +kernel, by decide +kernel, ?_, rfl⟩, _, rfl⟩
  · cases h
  · intro c st
    cases c <;> cases st <;> rfl

end Sys2Proof.Tests
end

section
/-! PROOFS. The statements of spec/00_scope.md: which NaNs the arithmetic and the transcendental functions deliver (R11),
and the named properties of the transcendental functions (R12). -/

namespace Sys2Proof.Machine.F32

/-! NaN results (00 R11): each operation delivers the NaN of its own or a value that is no NaN. -/

@[simp] theorem isNaN_zeroOf (sg : Bool) : isNaN (zeroOf sg) = false := isNaN_pack _ _
@[simp] theorem isNaN_infOf (sg : Bool) : isNaN (infOf sg) = false := isNaN_pack _ _

/-- A result that is `quietNaN` or no NaN is quiet where it is a NaN. -/
theorem quiet_of_cases {op : FpOp} {x y r : Word} (h : r = quietNaN op x y ∨ isNaN r = false) (hr : isNaN r = true) :
    r.getLsbD 22 = true := by
  obtain rfl | hn := h
  · exact quiet_quietNaN op x y
  · simp [hn] at hr

theorem sumOf_nan (nan : Word) {x y : Word} (h : isNaN x = true ∨ isNaN y = true) : sumOf nan x y = nan := by
  simp [sumOf, h]

theorem sumOf_cases (nan x y : Word) : sumOf nan x y = nan ∨ isNaN (sumOf nan x y) = false := by
  unfold sumOf
  split
  · exact .inl rfl
  · rename_i hn
    obtain ⟨hx, hy⟩ : isNaN x = false ∧ isNaN y = false := by simpa using hn
    split
    · split
      · exact .inl rfl
      · exact .inr hx
    · split
      · exact .inr hy
      · exact .inr (isNaN_addFinite x y)

theorem add_nan {x y : Word} (h : isNaN x = true ∨ isNaN y = true) : add x y = quietNaN .add x y := sumOf_nan _ h

theorem sub_nan {x y : Word} (h : isNaN x = true ∨ isNaN y = true) : sub x y = quietNaN .sub x y :=
  sumOf_nan _ (by simpa using h)

theorem mul_nan {x y : Word} (h : isNaN x = true ∨ isNaN y = true) : mul x y = quietNaN .mul x y := by
  simp [mul, h]

theorem div_nan {x y : Word} (h : isNaN x = true ∨ isNaN y = true) : div x y = quietNaN .div x y := by
  simp [div, h]

theorem sqrt_nan {x : Word} (h : isNaN x = true) : sqrt x = quietNaN .sqrt x x := by simp [sqrt, h]

theorem mul_cases (x y : Word) : mul x y = quietNaN .mul x y ∨ isNaN (mul x y) = false := by
  unfold mul
  split
  · exact .inl rfl
  · split
    · split
      · exact .inl rfl
      · exact .inr (isNaN_infOf _)
    · exact .inr (isNaN_ofRatio _ _ _)

theorem div_cases (x y : Word) : div x y = quietNaN .div x y ∨ isNaN (div x y) = false := by
  unfold div
  split
  · exact .inl rfl
  · split
    · split
      · exact .inl rfl
      · exact .inr (isNaN_infOf _)
    · split
      · exact .inr (isNaN_zeroOf _)
      · split
        · split
          · exact .inl rfl
          · exact .inr (isNaN_infOf _)
        · exact .inr (isNaN_ofRatio _ _ _)

theorem sqrt_cases (x : Word) : sqrt x = quietNaN .sqrt x x ∨ isNaN (sqrt x) = false := by
  unfold sqrt
  split
  · exact .inl rfl
  · have hx : isNaN x = false := by simpa using ‹¬ isNaN x = true›
    split
    · exact .inr hx
    · split
      · exact .inl rfl
      · split
        · exact .inr hx
        · exact .inr (isNaN_pack _ _)

/-! The transcendental functions of a NaN or an infinity (00 R12 `P_NAN`). -/

theorem sin32_not_finite (sb : Bool) {x : Word} (h : isFinite x = false) : sin32 sb x = quietNaN .sin x x := by
  simp [sin32, h]

theorem cos32_not_finite {x : Word} (h : isFinite x = false) : cos32 x = quietNaN .cos x x := by simp [cos32, h]

theorem tan32_not_finite {x : Word} (h : isFinite x = false) : tan32 x = quietNaN .tan x x := by simp [tan32, h]

theorem atan32_nan {x : Word} (h : isNaN x = true) : atan32 x = quietNaN .atan x x := by simp [atan32, h]

/-- An operation's NaN is a NaN and quiet (00 R11). -/
theorem isNaN_and_quiet_of_eq {op : FpOp} {x y r : Word} (h : r = quietNaN op x y) :
    isNaN r = true ∧ r.getLsbD 22 = true :=
  h ▸ ⟨isNaN_quietNaN op x y, quiet_quietNaN op x y⟩

/-- `P_NAN` of the three functions that have no value at an infinity. -/
theorem isNaN_of_not_finite (sb : Bool) {x : Word} (h : isFinite x = false) :
    isNaN (sin32 sb x) = true ∧ isNaN (cos32 x) = true ∧ isNaN (tan32 x) = true := by
  rw [sin32_not_finite sb h, cos32_not_finite h, tan32_not_finite h]
  simp only [isNaN_quietNaN, and_self]

/-! The order behind the magnitudes that Laws/Bounds gives for Cos32 and Tan32 of a finite value. -/

theorem natAbs_key (x : Word) : (key x).natAbs = mag x := by
  unfold key
  split <;> simp

/-- A value of magnitude at most 1.0 lies between -1.0 and 1.0. -/
theorem le_one_of_mag_le {x : Word} (h : mag x ≤ 0x3F800000) : le NEG_ONE x = true ∧ le x ONE = true := by
  have hn : isNaN x = false := isNaN_of_isFinite (isFinite_of_mag_le h (by decide))
  have hk := natAbs_key x
  have key_neg_one : key NEG_ONE = -0x3F800000 := by decide +kernel
  have key_one : key ONE = 0x3F800000 := by decide +kernel
  exact ⟨le_iff.2 ⟨by decide +kernel, hn, by omega⟩, le_iff.2 ⟨hn, by decide +kernel, by omega⟩⟩

/-- A value without sign and above zero in magnitude is above +0.0. -/
theorem zero_lt_of_mag {x : Word} (hn : isNaN x = false) (hs : sign x = false) (hm : 0 < mag x) :
    lt 0#32 x = true := by
  have key_zero : key 0#32 = 0 := by decide +kernel
  exact lt_iff.2 ⟨by decide +kernel, hn, by rw [key_zero, key_pos hs]; omega⟩

/-! Atan32 (00 R12 `P_ATAN_ODD`, `P_ATAN_BOUND`). -/

theorem toNat_abs (x : Word) : (abs x).toNat = mag x := by
  have e : (abs x).toNat = x.toNat &&& 2 ^ 31 - 1 := by simp [abs]
  rw [e, Nat.and_two_pow_sub_one_eq_mod]
  rfl

@[simp] theorem mag_abs (x : Word) : mag (abs x) = mag x := by
  rw [mag, toNat_abs, Nat.mod_eq_of_lt (mag_lt x)]

@[simp] theorem sign_abs (x : Word) : sign (abs x) = false := by
  have h := mag_lt x
  simp only [sign, BitVec.msb_eq_decide, toNat_abs, decide_eq_false_iff_not]
  omega

@[simp] theorem abs_neg_eq (x : Word) : abs (neg x) = abs x := eq_of_sign_mag (by simp) (by simp)

theorem abs_of_not_sign {x : Word} (h : sign x = false) : abs x = x := eq_of_sign_mag (by simp [h]) (by simp)

theorem abs_of_sign {x : Word} (h : sign x = true) : abs x = neg x := eq_of_sign_mag (by simp [h]) (by simp)

/-- A positive value or +Inf as the pattern that the lawfulness of the opaque arctangent speaks of. -/
theorem toNat_of_key_pos {x : Word} (hn : isNaN x = false) (hk : 0 < key x) :
    0 < x.toNat ∧ x.toNat ≤ infMag ∧ key x = x.toNat := by
  obtain ⟨hs, hm⟩ := sign_of_key hk
  have hx := toNat_eq x
  simp only [hs, Bool.false_eq_true, if_false, Nat.zero_add] at hx
  simp only [isNaN, decide_eq_false_iff_not] at hn
  rw [key_pos hs]
  omega

/-- The opaque arctangent's bounds and order, where it is lawful. -/
theorem atanRaw_of_lawful (h : atanLawful = true) : ∀ a : Word, 0 < a.toNat → a.toNat ≤ infMag →
    le 0#32 (Config.atanRaw a) = true ∧ le (Config.atanRaw a) ATAN_MAX = true ∧
    ∀ b : Word, a.toNat ≤ b.toNat → b.toNat ≤ infMag → le (Config.atanRaw a) (Config.atanRaw b) = true := by
  unfold atanLawful at h
  exact of_decide_eq_true (Bool.and_eq_true_iff.1 h).2

/-- Atan32 of a positive value lies between +0.0 and ATAN_MAX, whatever the opaque function is. -/
theorem atanPos_bounds {x : Word} (hn : isNaN x = false) (hk : 0 < key x) :
    le 0#32 (atanPos x) = true ∧ le (atanPos x) ATAN_MAX = true := by
  unfold atanPos
  split
  · rename_i hl
    obtain ⟨h0, hi, -⟩ := toNat_of_key_pos hn hk
    obtain ⟨hlow, hhigh, -⟩ := atanRaw_of_lawful hl x h0 hi
    exact ⟨hlow, hhigh⟩
  · decide +kernel

/-- Atan32 of positive values is non-decreasing, whatever the opaque function is. -/
theorem atanPos_mono {x y : Word} (hk : 0 < key x) (h : le x y = true) : le (atanPos x) (atanPos y) = true := by
  obtain ⟨hx, hy, hxy⟩ := le_iff.1 h
  unfold atanPos
  split
  · rename_i hl
    obtain ⟨h0, hi, ex⟩ := toNat_of_key_pos hx hk
    obtain ⟨-, hj, ey⟩ := toNat_of_key_pos hy (Int.lt_of_lt_of_le hk hxy)
    obtain ⟨-, -, hmono⟩ := atanRaw_of_lawful hl x h0 hi
    exact hmono y (by omega) hj
  · decide +kernel

theorem isZero_iff_key {x : Word} : isZero x = true ↔ key x = 0 := by
  have hk := natAbs_key x
  simp only [isZero, beq_iff_eq]
  omega

theorem atan32_zero {x : Word} (h : isZero x = true) : atan32 x = x := by
  have hn : isNaN x = false := by
    simp only [isZero, beq_iff_eq] at h
    simp [isNaN, h]
  simp [atan32, hn, h]

theorem atan32_pos {x : Word} (hn : isNaN x = false) (hk : 0 < key x) : atan32 x = atanPos x := by
  have hz : isZero x = false := by
    rw [← Bool.not_eq_true, isZero_iff_key]; omega
  simp [atan32, hn, hz, (sign_of_key hk).1]

/-- `P_ATAN_ODD` (00 R12). -/
theorem atan32_neg {x : Word} (hn : isNaN x = false) : atan32 (neg x) = neg (atan32 x) := by
  unfold atan32
  simp only [isNaN_neg, isZero_neg, sign_neg, hn, abs_neg_eq, Bool.false_eq_true, if_false]
  by_cases hz : isZero x = true
  · simp [hz]
  · cases hs : sign x
    · simp [hz, abs_of_not_sign hs]
    · simp [hz, abs_of_sign hs]

/-- Atan32 of a value that is not below zero: no NaN, and between 0.0 and ATAN_MAX. -/
theorem atan32_bounds_of_nonneg {x : Word} (hn : isNaN x = false) (hk : 0 ≤ key x) :
    isNaN (atan32 x) = false ∧ 0 ≤ key (atan32 x) ∧ key (atan32 x) ≤ key ATAN_MAX := by
  have key_zero : key 0#32 = 0 := by decide +kernel
  by_cases hz : key x = 0
  · rw [atan32_zero (isZero_iff_key.2 hz), hz]
    exact ⟨hn, by decide +kernel⟩
  · have hp : 0 < key x := by omega
    obtain ⟨hlow, hhigh⟩ := atanPos_bounds hn hp
    obtain ⟨-, hr, h0⟩ := le_iff.1 hlow
    rw [atan32_pos hn hp]
    exact ⟨hr, by omega, (le_iff.1 hhigh).2.2⟩

/-- Atan32 of any value but NaN: no NaN, of the argument's sign, and within ATAN_MAX. A value below zero is the negation
of one above, so `P_ATAN_ODD` gives its case. -/
theorem atan32_bounds {x : Word} (hn : isNaN x = false) :
    isNaN (atan32 x) = false ∧ (0 ≤ key x → 0 ≤ key (atan32 x)) ∧ (key x ≤ 0 → key (atan32 x) ≤ 0) ∧
      mag (atan32 x) ≤ mag ATAN_MAX := by
  have key_max : key ATAN_MAX = mag ATAN_MAX := by decide +kernel
  have hm := natAbs_key (atan32 x)
  have hzero : key x = 0 → key (atan32 x) = 0 := fun h => by rw [atan32_zero (isZero_iff_key.2 h), h]
  rcases Int.le_total 0 (key x) with hk | hk
  · obtain ⟨hr, h0, h1⟩ := atan32_bounds_of_nonneg hn hk
    exact ⟨hr, fun _ => h0, fun _ => by omega, by omega⟩
  · obtain ⟨hr, h0, h1⟩ := atan32_bounds_of_nonneg (x := neg x) (by simpa using hn) (by rw [key_neg_eq]; omega)
    rw [atan32_neg hn, key_neg_eq] at h0 h1
    rw [atan32_neg hn, isNaN_neg] at hr
    exact ⟨hr, fun _ => by omega, fun _ => by omega, by omega⟩

theorem neg_le_neg_of_le {x y : Word} (h : le x y = true) : le (neg y) (neg x) = true := by
  obtain ⟨hx, hy, hk⟩ := le_iff.1 h
  exact le_iff.2 ⟨by simpa using hy, by simpa using hx, by simp only [key_neg_eq]; omega⟩

theorem atan32_mono_of_pos {x y : Word} (hk : 0 < key x) (h : le x y = true) : le (atan32 x) (atan32 y) = true := by
  obtain ⟨hx, hy, hxy⟩ := le_iff.1 h
  rw [atan32_pos hx hk, atan32_pos hy (by omega)]
  exact atanPos_mono hk h

/-- `P_ATAN_BOUND`: monotone. Two values of the same sign by the positive side and `P_ATAN_ODD`, others across zero. -/
theorem atan32_mono {x y : Word} (h : le x y = true) : le (atan32 x) (atan32 y) = true := by
  obtain ⟨hx, hy, hxy⟩ := le_iff.1 h
  obtain ⟨nx, -, bx, -⟩ := atan32_bounds hx
  obtain ⟨ny, ly, -, -⟩ := atan32_bounds hy
  by_cases hpos : 0 < key x
  · exact atan32_mono_of_pos hpos h
  · by_cases hneg : key y < 0
    · have hk : 0 < key (neg y) := by rw [key_neg_eq]; omega
      have hm := neg_le_neg_of_le (atan32_mono_of_pos hk (neg_le_neg_of_le h))
      simpa [atan32_neg hx, atan32_neg hy] using hm
    · exact le_iff.2 ⟨nx, ny, Int.le_trans (bx (by omega)) (ly (by omega))⟩

/-- `P_ATAN_BOUND`: the magnitude (00 R12). -/
theorem abs_atan32_le {x : Word} (hn : isNaN x = false) : le (abs (atan32 x)) ATAN_MAX = true := by
  obtain ⟨hr, -, -, hm⟩ := atan32_bounds hn
  have key_max : key ATAN_MAX = mag ATAN_MAX := by decide +kernel
  have hk : key (abs (atan32 x)) = mag (atan32 x) := by simp [key_pos]
  exact le_iff.2 ⟨by simpa [isNaN] using hr, by decide +kernel, by omega⟩

end Sys2Proof.Machine.F32

namespace Sys2Proof.Machine

/-! No step changes which functions Sin32 may be (log 6). -/

theorem unlessFatal_sineBounded {s t : State} (h : t.sineBounded = s.sineBounded) :
    (unlessFatal s t).sineBounded = s.sineBounded := by
  unfold unlessFatal
  split
  · exact complete_sineBounded _ _ _
  · exact h

theorem unlessBusy_sineBounded {s t : State} (h : t.sineBounded = s.sineBounded) :
    (unlessBusy s t).sineBounded = s.sineBounded := by
  unfold unlessBusy
  split
  · exact setAccErr_sineBounded s
  · exact h

@[simp] theorem rejectAccess_sineBounded (d : Dir) (wd : Width) (s : State) :
    (rejectAccess d wd s).sineBounded = s.sineBounded := by
  cases d <;> rfl

@[simp] theorem accept_sineBounded (w : Word) (s : State) : (accept w s).sineBounded = s.sineBounded := by
  unfold accept
  simp only
  split
  · exact takeSnapshot_sineBounded s
  · rfl

@[simp] theorem writeCmd_sineBounded (w : Word) (s : State) : (writeCmd w s).sineBounded = s.sineBounded := by
  unfold writeCmd
  split
  · rfl
  · exact accept_sineBounded w s

@[simp] theorem processBlock_sineBounded (coef : CoefFile) (nch : Word) (len : BitVec 16) (s : State) :
    (processBlock coef nch len s).sineBounded = s.sineBounded := by
  obtain ⟨f0, f1, m, h⟩ := processBlock_frame coef nch len s
  rw [h]
  rfl

@[simp] theorem prepare_sineBounded (s : State) : (prepare s).sineBounded = s.sineBounded := by
  unfold prepare failPrepare
  repeat' split
  all_goals simp only [complete_sineBounded, commitPrepare_sineBounded]

@[simp] theorem processBody_sineBounded (len : BitVec 16) (s : State) :
    (processBody len s).sineBounded = s.sineBounded := by
  unfold processBody transformBlock
  repeat' split
  all_goals simp only [complete_sineBounded, countBlock_sineBounded, processBlock_sineBounded]

@[simp] theorem resolveBody_sineBounded (s : State) : (resolveBody s).sineBounded = s.sineBounded := by
  unfold resolveBody
  repeat' split
  all_goals simp only [complete_sineBounded]

/-- No instruction changes which functions Sin32 may be (log 6). -/
theorem exec_sineBounded {i : Instr} {s t : State} (h : exec i s = .next t) : t.sineBounded = s.sineBounded := by
  cases i <;> injection h with h <;> subst h
  case nop | clearState => exact unlessFatal_sineBounded (complete_sineBounded _ _ _)
  case prepare => exact unlessFatal_sineBounded (prepare_sineBounded s)
  case process len => exact unlessFatal_sineBounded (processBody_sineBounded len s)
  case resolve => exact unlessFatal_sineBounded (resolveBody_sineBounded s)
  case setGain | setTone | setVolume | setBypass | clearStatus => rfl
  case writeCtrl =>
    split
    · exact softReset_sineBounded s
    · rfl
  case read =>
    split
    · exact rejectAccess_sineBounded _ _ s
    · exact deliver_sineBounded _ s
  case stageFoHp | stageBqLp | stageBqPeak | stageBqNotch | stageFoLp => exact runStage_sineBounded _ _ _ s
  case stageGainNi | stageGainInv | stageShaper | stageGainVol | shaperModeAtanSym | shaperModeAtanDoc |
      shaperModeCubic => exact handOn_sineBounded _ s
  -- SET_SPEC_*, SET_PARAM and WRITE_BUF, which are rejected while BUSY (20 R95).
  all_goals exact unlessBusy_sineBounded rfl

@[simp] theorem withEnv_sineBounded (s : State) (e : Env) : (s.withEnv e).sineBounded = s.sineBounded := rfl

/-- What a step without a stage call can do keeps which functions Sin32 may be. -/
theorem Effect.sineBounded {r : Bool} {u t : State} (h : Effect r u t) : t.sineBounded = u.sineBounded := by
  cases h with
  | same e => rw [e]
  | reject d wd e => rw [e, rejectAccess_sineBounded]
  | cmd w e => rw [e, writeCmd_sineBounded]
  | read off ha e => exact exec_sineBounded e
  | write off v i hd hr e => exact exec_sineBounded e
  | run w i hp hd e => exact exec_sineBounded e
  | illegal w hp hl e => exact e ▸ unlessFatal_sineBounded (complete_sineBounded _ _ _)
  | powerOn hr e => rw [e, powerOnReset_sineBounded]

theorem step_sineBounded {s t : State} (h : step s = .next t) : t.sineBounded = s.sineBounded := by
  cases hc : s.env.stageCall with
  | none =>
    obtain ⟨e, -, -, -, -, -, he⟩ := step_effect hc h
    rw [he.sineBounded, withEnv_sineBounded]
  | some call =>
    obtain ⟨i, -, he⟩ := step_stage hc h
    rw [exec_sineBounded he, withEnv_sineBounded]

end Sys2Proof.Machine

namespace Sys2Proof.Proofs

open Sys2Proof Sys2Proof.Machine Sys2Proof.Machine.F32

/-- Settles O45: a NaN operand takes the branch of the operation's own NaN, which is quiet; every other branch of the
arithmetic delivers no NaN. -/
theorem nansAreQuietAndPropagate : Obligations.NansAreQuietAndPropagate := by
  unfold Obligations.NansAreQuietAndPropagate
  intro a b sb
  refine ⟨fun h => ?_, ?_, fun ha => ?_, fun ha => ?_⟩
  · rw [add_nan h, sub_nan h, mul_nan h, div_nan h]
    simp only [isNaN_quietNaN, and_self]
  · simp only [List.forall_mem_cons, List.not_mem_nil, false_implies, implies_true, and_true]
    exact ⟨quiet_of_cases (sumOf_cases _ _ _), quiet_of_cases (sumOf_cases _ _ _), quiet_of_cases (mul_cases a b),
      quiet_of_cases (div_cases a b), quiet_of_cases (sqrt_cases a)⟩
  · have hf := isFinite_of_isNaN ha
    simp only [List.forall_mem_cons, List.not_mem_nil, false_implies, implies_true, and_true]
    exact ⟨isNaN_and_quiet_of_eq (sin32_not_finite sb hf), isNaN_and_quiet_of_eq (cos32_not_finite hf),
      isNaN_and_quiet_of_eq (tan32_not_finite hf), isNaN_and_quiet_of_eq (atan32_nan ha),
      isNaN_and_quiet_of_eq (sqrt_nan ha)⟩
  · simp only [List.forall_mem_cons, List.not_mem_nil, false_implies, implies_true, and_true]
    exact ⟨isNaN_and_quiet_of_eq (sin32_not_finite sb ha), isNaN_and_quiet_of_eq (cos32_not_finite ha),
      isNaN_and_quiet_of_eq (tan32_not_finite ha)⟩

/-- Settles O46, one named property of 00 R12 after the other. -/
theorem transcendentalsMeetTheirProperties : Obligations.TranscendentalsMeetTheirProperties := by
  unfold Obligations.TranscendentalsMeetTheirProperties
  refine ⟨fun s t h => step_sineBounded h, fun sb x hx => ?nan, fun sb x hx => ?inf, fun x hx => atan32_neg hx,
    atan32_zero (by decide +kernel), atan32_zero (by decide +kernel), fun x hx => abs_atan32_le hx,
    fun x y h => atan32_mono h, fun sb x h0 h1 => (sin32_cases sb h0 h1).1,
    fun x hx => le_one_of_mag_le (mag_cos32_le hx), fun x h0 h1 => ?tan⟩
  case nan =>
    obtain ⟨hsin, hcos, htan⟩ := isNaN_of_not_finite sb (isFinite_of_isNaN hx)
    exact ⟨hsin, hcos, htan, (isNaN_and_quiet_of_eq (atan32_nan hx)).1⟩
  case inf =>
    have hf : isFinite x = false := by rcases List.mem_pair.1 hx with rfl | rfl <;> decide
    exact isNaN_of_not_finite sb hf
  case tan =>
    obtain ⟨hs, hm, hf⟩ := tan32_bounds h0 h1
    exact ⟨hf, zero_lt_of_mag (isNaN_of_isFinite hf) hs hm⟩

end Sys2Proof.Proofs
end

section
/-! PROOFS. The statements of spec/10_state.md: the invariant, what a command reads and writes, the constant registers,
and the controls. -/

namespace Sys2Proof.Machine

open F32

/-! The controls' range (10 R47, R48) and their tenths (10 R51). -/

theorem legalControl_iff {w : Word} :
    legalControl w = true ↔ isNaN w = false ∧ 0 ≤ key w ∧ key w ≤ key TEN := by
  have key_zero : key 0#32 = 0 := by decide +kernel
  have nan_zero : isNaN 0#32 = false := by decide +kernel
  have nan_ten : isNaN TEN = false := by decide +kernel
  simp only [legalControl, Bool.and_eq_true, le_iff, key_zero, nan_zero, nan_ten, true_and]
  tauto

/-- A legal control is finite. -/
theorem isFinite_of_legal {w : Word} (h : legalControl w = true) : isFinite w = true := by
  obtain ⟨-, h0, h1⟩ := legalControl_iff.1 h
  have key_ten : key TEN = mag TEN := by decide +kernel
  have hm := natAbs_key w
  exact isFinite_of_mag_le (a := mag TEN) (by omega) (by decide +kernel)

/-- What a control write stores is legal, whatever the word written (10 R48). -/
theorem legalControl_ctlClamp (w : Word) : legalControl (ctlClamp w) = true := by
  unfold ctlClamp
  split
  · decide +kernel
  · have hn : isNaN w = false := by simpa using ‹¬ isNaN w = true›
    have key_zero : key 0#32 = 0 := by decide +kernel
    have key_ten : 0 ≤ key TEN := by decide +kernel
    obtain ⟨hc, hk⟩ := clamp_spec (x := w) (lo := 0#32) (hi := TEN) hn (by decide +kernel) (by decide +kernel)
      (by decide +kernel)
    exact legalControl_iff.2 ⟨hc, by omega, by omega⟩

/-- A legal control is stored as it is (10 R48). -/
theorem ctlClamp_of_legal {w : Word} (h : legalControl w = true) : ctlClamp w = w := by
  obtain ⟨hn, -, -⟩ := legalControl_iff.1 h
  obtain ⟨h0, h1⟩ := Bool.and_eq_true_iff.1 h
  simp only [ctlClamp, hn, Bool.false_eq_true, if_false]
  exact clamp_eq h0 h1

/-- The tenth of a legal control lies between 0.0 and 1.0 (10 R51): division by 10.0 keeps the order, and takes the ends
of the range to 0.0 and 1.0. -/
theorem tenth_range {w : Word} (h : legalControl w = true) :
    le 0#32 (div w TEN) = true ∧ le (div w TEN) ONE = true := by
  obtain ⟨-, h0, h1⟩ := legalControl_iff.1 h
  have hw := isFinite_of_legal h
  have finite_ten : isFinite TEN = true := by decide +kernel
  have hn : isNaN (div w TEN) = false := by
    rw [div_finite hw finite_ten (by decide +kernel)]
    exact isNaN_ofRatio _ _ _
  have low : key (div 0#32 TEN) ≤ key (div w TEN) :=
    key_div_mono finite_ten (by decide +kernel) hw (by decide +kernel) (by decide +kernel) h0
  have high : key (div w TEN) ≤ key (div TEN TEN) :=
    key_div_mono finite_ten hw finite_ten (by decide +kernel) (by decide +kernel) h1
  have div_zero_ten : div 0#32 TEN = 0#32 := by decide +kernel
  have div_ten_ten : div TEN TEN = ONE := by decide +kernel
  rw [div_zero_ten] at low
  rw [div_ten_ten] at high
  exact ⟨le_iff.2 ⟨by decide +kernel, hn, low⟩, le_iff.2 ⟨hn, by decide +kernel, high⟩⟩

/-- `clampNN` leaves a value that is not below zero, -0.0 among them (00 R15). -/
theorem clampNN_of_nonneg {x : Word} (h : le 0#32 x = true) : clampNN x = x := by
  obtain ⟨-, -, hk⟩ := le_iff.1 h
  have hl : lt x 0#32 = false := by
    rw [← Bool.not_eq_true, lt_iff]
    rintro ⟨-, -, hlt⟩
    omega
  simp [clampNN, hl]

end Sys2Proof.Machine

namespace Sys2Proof.Machine

/-! An aligned 32-bit access as the next event (20 R91, 30 R127). -/

/-- A host write that decodes runs its instruction. -/
theorem step_write {off : Offset} {v : Word} {i : Instr} (hd : decode (.hostWrite off v) = .ok i) (s : State)
    (rest : List Event) :
    step (s.given (.window off ⟨.write, .w32, v⟩ :: rest)) = exec i (s.given rest) := by
  obtain ⟨ha, -, -, -⟩ := decodeWrite_cases hd
  simp [step, fetch, State.given, onEvent, access, ha, hd]

/-- A host write to a register that takes none changes nothing (10 section 2.1, 20 R94). -/
theorem step_ignored_write {off : Offset} {v : Word} (ha : aligned off = true) (hc : regAt off ≠ .cmd)
    (hw : writeInstr (regAt off) v = none) (s : State) (rest : List Event) :
    step (s.given (.window off ⟨.write, .w32, v⟩ :: rest)) = .next (s.given rest) := by
  have hd : decode (.hostWrite off v) = .error (.noWriteOperation off) := by
    simp [decode, decodeWrite, ha, hc, hw]
  simp [step, fetch, State.given, onEvent, access, ha, hd]

/-- A read of the register window delivers the register's bytes (40 R189). -/
theorem step_read {off : Offset} (ha : aligned off = true) (hb : inBuffer off = false) (v : Word) (s : State)
    (rest : List Event) :
    step (s.given (.window off ⟨.read, .w32, v⟩ :: rest)) =
      .next (deliver (bytesOf ((s.given rest).readReg (regAt off))) (s.given rest)) := by
  simp [step, fetch, State.given, onEvent, access, decode, decodeRead, exec, execRead, ha, hb]

/-- The word of a constant register (10 R34, R35, R36, R58). -/
def constantWord : Reg → Option Word
  | .id => some 0x42424348
  | .version => some 0x00010007
  | .caps => some 0x00B21000
  | .stageKind st => some (st.kind.code.setWidth 32)
  | _ => none

/-- A constant register reads its word in every state, and no write operation stands there. -/
theorem constantWord_spec {r : Reg} {w : Word} (h : constantWord r = some w) (s : State) (v : Word) :
    s.readReg r = w ∧ r ≠ .cmd ∧ writeInstr r v = none := by
  cases r <;> simp only [constantWord, Option.some.injEq, reduceCtorEq] at h <;> subst h
  case id | version | caps | stageKind => exact ⟨rfl, by simp, rfl⟩

/-- Where the constant registers stand in the window. -/
theorem constantRegisters_at : ∀ r ∈ constantRegisters,
    aligned r.1 = true ∧ inBuffer r.1 = false ∧ constantWord (regAt r.1) = some r.2 := by
  simp only [constantRegisters, List.forall_mem_cons, List.not_mem_nil, false_implies, implies_true, and_true]
  repeat' apply And.intro
  all_goals rfl

/-- Running `k + 1` steps takes the first and runs the others. -/
theorem runSteps_succ {s t : State} (k : Nat) (h : step s = .next t) : runSteps (k + 1) s = runSteps k t := by
  show Host.Core.run core (k + 1) s = _
  simp only [Host.Core.run, show core.step s = .next t from h]
  rfl

/-! The four control writes as the next event (40 R180 to R183). -/

theorem step_setGain {v : Word} (h : legalControl v = true) (s : State) (rest : List Event) :
    step (s.given (.window 0x040 ⟨.write, .w32, v⟩ :: rest)) = .next (State.given { s with gain := v } rest) := by
  rw [step_write (i := .setGain v) rfl]
  simp only [exec, execSetGain, ctlClamp_of_legal h]
  rfl

theorem step_setTone {v : Word} (h : legalControl v = true) (s : State) (rest : List Event) :
    step (s.given (.window 0x044 ⟨.write, .w32, v⟩ :: rest)) = .next (State.given { s with tone := v } rest) := by
  rw [step_write (i := .setTone v) rfl]
  simp only [exec, execSetTone, ctlClamp_of_legal h]
  rfl

theorem step_setVolume {v : Word} (h : legalControl v = true) (s : State) (rest : List Event) :
    step (s.given (.window 0x048 ⟨.write, .w32, v⟩ :: rest)) = .next (State.given { s with volume := v } rest) := by
  rw [step_write (i := .setVolume v) rfl]
  simp only [exec, execSetVolume, ctlClamp_of_legal h]
  rfl

theorem step_setBypass (b : Bool) (s : State) (rest : List Event) :
    step (s.given (.window 0x04C ⟨.write, .w32, boolWord b⟩ :: rest)) =
      .next (State.given { s with bypass := b } rest) := by
  rw [step_write (i := .setBypass (boolWord b)) rfl]
  simp only [exec, execSetBypass, boolWord_getLsbD]
  rfl

/-! Legal command words by value (30 R121 to R124). -/

theorem toNat_cmdOp (w : Word) : (cmdOp w).toNat = w.toNat % 16 := by
  simp [cmdOp]

theorem toNat_cmdRsv (w : Word) : (cmdRsv w).toNat = w.toNat / 16 % 4096 := by
  simp [cmdRsv, Nat.shiftRight_eq_div_pow]

theorem toNat_cmdLen (w : Word) : (cmdLen w).toNat = w.toNat / 65536 := by
  have h := w.isLt
  simp only [cmdLen, BitVec.extractLsb'_toNat, Nat.shiftRight_eq_div_pow]
  omega

/-- The low half of a legal word is its operation code, and without LEN so is the word (30 R121, R124). -/
theorem legalCmd_value {w : Word} {op : BitVec 4} (hl : legalCmd w = true) (hop : cmdOp w = op) :
    w.setWidth 16 = op.setWidth 16 ∧ (op ≠ 2#4 → w = op.setWidth 32) := by
  have hop' : w.toNat % 16 = op.toNat := by rw [← toNat_cmdOp, hop]
  simp only [legalCmd, Bool.and_eq_true, Bool.or_eq_true, beq_iff_eq, hop] at hl
  obtain ⟨⟨-, hrsv⟩, hlen⟩ := hl
  have hrsv' : w.toNat / 16 % 4096 = 0 := by rw [← toNat_cmdRsv, hrsv]; rfl
  have ho := op.isLt
  have hw := w.isLt
  refine ⟨BitVec.eq_of_toNat_eq ?_, fun h2 => BitVec.eq_of_toNat_eq ?_⟩
  · simp only [BitVec.toNat_setWidth]
    omega
  · have hlen' : w.toNat / 65536 = 0 := by
      rw [← toNat_cmdLen, hlen.resolve_right h2]; rfl
    simp only [BitVec.toNat_setWidth]
    omega

/-! What a completion can be (40 R152 to R179). -/

/-- What the completion of the command word `w` can make of `s`. -/
inductive Completion (s : State) (w : Word) (t : State) : Prop where
  /-- An error completion that changes nothing else: FAULTED, ILLEGAL_CMD, NOT_PREPARED, BAD_LEN (60 R304). -/
  | error (code : ResultCode) (he : code.isError = true) (hn : code ≠ .nonfiniteCoef) (h : t = complete code none s)
  /-- A PREPARE that fails a configuration check (40 R161 to R163). -/
  | badSpec (code : ResultCode) (he : code.isError = true) (hn : code ≠ .nonfiniteCoef) (h : t = failPrepare code s)
  /-- A command whose resolve fails (41 R246). -/
  | nonfinite (fs : Word) (f : Stage × Nat) (hr : s.resolve fs = .error f) (h : t = complete .nonfiniteCoef (some f) s)
  /-- NOP (40 R155). -/
  | nop (hw : w = 0#32) (h : t = complete .ok none s)
  /-- A PREPARE that succeeds (40 R164). -/
  | prepare (rows : CoefFile) (hw : w = 1#32) (hfs : fsValid s.specFs = true) (hmb : maxbValid s.specMaxb = true)
      (hnc : nchValid s.specNch = true) (hr : s.resolve s.specFs = .ok rows)
      (h : t = complete .ok none (commitPrepare rows s))
  /-- A PROCESS on the bypass path (40 R171). -/
  | bypass (hw : w.setWidth 16 = 2#16) (h : t = complete .okBypassed none (countBlock true s))
  /-- A PROCESS on the transform path (40 R172). -/
  | process (rows : CoefFile) (hw : w.setWidth 16 = 2#16) (hr : s.resolve s.activeFs = .ok rows)
      (h : t = complete .ok none (countBlock false (processBlock rows s.activeNch (cmdLen w) { s with coef := rows })))
  /-- A RESOLVE that succeeds (40 R178). -/
  | resolve (rows : CoefFile) (hw : w = 3#32) (hr : s.resolve s.activeFs = .ok rows)
      (h : t = complete .ok none { s with coef := rows })
  /-- CLEAR_STATE (40 R179). -/
  | clear (hw : w = 4#32) (h : t = complete .ok none { s with filter0 := zeroFilter, filter1 := zeroFilter })

/-- With FATAL set a command completes with FAULTED; otherwise its body decides (40 R152). -/
theorem Completion.unlessFatal {s t : State} {w : Word} (h : Completion s w t) :
    Completion s w (unlessFatal s t) := by
  unfold Machine.unlessFatal
  split
  · exact .error .faulted rfl (by simp) rfl
  · exact h

theorem completion_illegal (s : State) (w : Word) : Completion s w (executeIllegal s) :=
  Completion.unlessFatal (.error .illegalCmd rfl (by simp) rfl)

theorem completion_prepare (s : State) : Completion s 1#32 (prepare s) := by
  unfold Machine.prepare
  split
  · exact .badSpec .badFs rfl (by simp) rfl
  · split
    · exact .badSpec .badMaxb rfl (by simp) rfl
    · split
      · exact .badSpec .badNch rfl (by simp) rfl
      · rename_i hfs hmb hnc
        cases hr : s.resolve s.specFs with
        | error f => exact .nonfinite _ f hr rfl
        | ok rows => exact .prepare rows rfl (by simpa using hfs) (by simpa using hmb) (by simpa using hnc) hr rfl

theorem completion_process (s : State) {w : Word} (hw : w.setWidth 16 = 2#16) :
    Completion s w (processBody (cmdLen w) s) := by
  unfold processBody transformBlock
  split
  · exact .error .notPrepared rfl (by simp) rfl
  · split
    · exact .error .badLen rfl (by simp) rfl
    · split
      · exact .bypass hw rfl
      · cases hr : s.resolve s.activeFs with
        | error f => exact .nonfinite _ f hr rfl
        | ok rows => exact .process rows hw hr rfl

theorem completion_resolve (s : State) : Completion s 3#32 (resolveBody s) := by
  unfold resolveBody
  split
  · exact .error .notPrepared rfl (by simp) rfl
  · cases hr : s.resolve s.activeFs with
    | error f => exact .nonfinite _ f hr rfl
    | ok rows => exact .resolve rows rfl hr rfl

/-- Everything the meaning of a decoded command word can do. -/
theorem completion_of_exec {s t : State} {w : Word} {i : Instr} (hd : decode (.command w) = .ok i)
    (h : exec i s = .next t) : Completion s w t := by
  obtain ⟨hl, hop⟩ := decodeCommand_cases hd
  obtain ⟨hop, rfl⟩ | ⟨hop, rfl⟩ | ⟨hop, rfl⟩ | ⟨hop, rfl⟩ | ⟨hop, rfl⟩ := hop <;>
    obtain ⟨hlow, hword⟩ := legalCmd_value hl hop <;> injection h with h <;> subst h
  · exact Completion.unlessFatal (.nop (hword (by decide)) rfl)
  · obtain rfl : w = 1#32 := hword (by decide)
    exact (completion_prepare s).unlessFatal
  · exact (completion_process s hlow).unlessFatal
  · obtain rfl : w = 3#32 := hword (by decide)
    exact (completion_resolve s).unlessFatal
  · exact Completion.unlessFatal (.clear (hword (by decide)) rfl)

/-- Nothing is in flight after a completion (40 R154). -/
theorem Completion.pending {s t : State} {w : Word} (h : Completion s w t) : t.pending = none := by
  cases h <;> subst_vars <;> exact complete_pending _ _ _

/-! Steps by what they do to the command in flight. -/

/-- An effect is one of no reset, or a reset. -/
theorem Effect.reset_or_not {r : Bool} {u t : State} (h : Effect r u t) :
    Effect false u t ∨ t = softReset u ∨ t = powerOnReset u := by
  cases h with
  | same e => exact .inl (.same e)
  | reject d wd e => exact .inl (.reject d wd e)
  | cmd w e => exact .inl (.cmd w e)
  | read off ha e => exact .inl (.read off ha e)
  | run w i hp hd e => exact .inl (.run w i hp hd e)
  | illegal w hp hl e => exact .inl (.illegal w hp hl e)
  | powerOn hr e => exact .inr (.inr e)
  | write off v i hd hr e =>
    by_cases hs : softResets off ⟨.write, .w32, v⟩ = true
    · have hv : off = 0x008#16 ∧ v.getLsbD 0 = true := by simpa [softResets] using hs
      obtain ⟨rfl, h0⟩ := hv
      obtain ⟨-, -, hw, -⟩ := decodeWrite_cases hd
      rw [regAt_ctrl] at hw
      injection hw with hw
      subst hw
      injection e with e
      rw [if_pos h0] at e
      exact .inr (.inl e.symm)
    · exact .inl (.write off v i hd (fun k => absurd k hs) e)

/-- What a step does that is no reset and runs no stage call: it keeps what commands write, accepts a command, or
completes the one in flight. -/
inductive Move (s t : State) : Prop where
  | keep (h : Kept s t)
  | accept (w : Word) (e : Env) (hp : s.pending = none) (h : t = accept w (s.withEnv e))
  | complete (w : Word) (e : Env) (hp : s.pending = some w) (h : Completion (s.withEnv e) w t)

theorem Kept.of_withEnv {s t : State} {e : Env} (h : Kept (s.withEnv e) t) : Kept s t :=
  ⟨h.pending, h.abortRange, h.prepared, h.fatal, h.bypassed, h.result, h.lastCmd, h.faultInfo, h.blockCnt, h.active,
    h.snapshot, h.normalised, h.snapBefore, h.coef, h.filters, h.inputs⟩

theorem Effect.move {s t : State} {e : Env} (h : Effect false (s.withEnv e) t) : Move s t := by
  obtain hk | ⟨w, hp, ht⟩ | ⟨w, hp, ⟨i, hd, hi⟩ | ⟨-, ht⟩⟩ := effect_cases h
  · exact .keep hk.of_withEnv
  · exact .accept w e hp ht
  · exact .complete w e hp (completion_of_exec hd hi)
  · exact .complete w e hp (ht ▸ completion_illegal _ w)

theorem step_move {s t : State} (hc : s.env.stageCall = none) (hr : s.resetsNext = false) (h : step s = .next t) :
    Move s t := by
  obtain ⟨e, -, -, -, -, -, he⟩ := step_effect hc h
  rw [hr] at he
  exact he.move

theorem step_move_or_reset {s t : State} (hc : s.env.stageCall = none) (h : step s = .next t) :
    Move s t ∨ ∃ e, t = softReset (s.withEnv e) ∨ t = powerOnReset (s.withEnv e) := by
  obtain ⟨e, -, -, -, -, -, he⟩ := step_effect hc h
  obtain he | ht := he.reset_or_not
  · exact .inl he.move
  · exact .inr ⟨e, ht⟩

/-! What the moves leave in the filter-state file and in BLOCK_CNT. -/

theorem Kept.filter {s t : State} (h : Kept s t) (c : Chan) : t.filter c = s.filter c := by
  obtain ⟨h0, h1⟩ := h.filters
  cases c
  · exact h0
  · exact h1

@[simp] theorem withEnv_filter (s : State) (e : Env) (c : Chan) : (s.withEnv e).filter c = s.filter c := by
  cases c <;> rfl

@[simp] theorem complete_filter (code : ResultCode) (info : Option (Stage × Nat)) (s : State) (c : Chan) :
    (complete code info s).filter c = s.filter c := by
  cases c
  · exact complete_filter0 code info s
  · exact complete_filter1 code info s

@[simp] theorem accept_filter (w : Word) (s : State) (c : Chan) : (accept w s).filter c = s.filter c := by
  unfold accept
  cases c <;> simp only [State.filter] <;> split <;> rfl

@[simp] theorem accept_blockCnt (w : Word) (s : State) : (accept w s).blockCnt = s.blockCnt := by
  unfold accept
  simp only
  split <;> rfl

@[simp] theorem processBlock_blockCnt (coef : CoefFile) (nch : Word) (len : BitVec 16) (s : State) :
    (processBlock coef nch len s).blockCnt = s.blockCnt := by
  obtain ⟨f0, f1, m, h⟩ := processBlock_frame coef nch len s
  rw [h]
  rfl

@[simp] theorem zeroFilter_get (st : Stage) : zeroFilter.get st = ⟨0#32, 0#32⟩ := PerStage.get_const st Pair.zero

/-- A completion writes the filter-state file in three ways only (10 R68). -/
theorem Completion.filter_cases {s t : State} {w : Word} (h : Completion s w t) :
    (∀ c, t.filter c = s.filter c) ∨ t.status.result = .ok ∧
      ((w.setWidth 16 = 2#16 ∧ ∀ c : Chan, s.activeNch.toNat ≤ c.idx → t.filter c = s.filter c) ∨
       ((w = 1#32 ∨ w = 4#32) ∧ ∀ c st, (t.filter c).get st = ⟨0#32, 0#32⟩)) := by
  cases h with
  | error code he hn e | badSpec code he hn e => subst e; exact .inl (fun c => complete_filter _ _ _ c)
  | nonfinite fs f hr e => subst e; exact .inl (fun c => complete_filter _ _ _ c)
  | nop hw e => subst e; exact .inl (fun c => complete_filter _ _ _ c)
  | bypass hw e => subst e; exact .inl (fun c => complete_filter _ _ _ c)
  | resolve rows hw hr e => subst e; exact .inl (fun c => complete_filter _ _ _ c)
  | prepare rows hw hfs hmb hnc hr e =>
    subst e
    refine .inr ⟨rfl, .inr ⟨.inl hw, fun c st => ?_⟩⟩
    cases c <;> exact zeroFilter_get st
  | clear hw e =>
    subst e
    refine .inr ⟨rfl, .inr ⟨.inr hw, fun c st => ?_⟩⟩
    cases c <;> exact zeroFilter_get st
  | process rows hw hr e =>
    subst e
    obtain ⟨-, hinactive, -⟩ := processBlock_spec rows s.activeNch (cmdLen w) { s with coef := rows }
    refine .inr ⟨rfl, .inl ⟨hw, fun c hc => ?_⟩⟩
    rw [complete_filter]
    exact hinactive c hc

/-- The operation code of a word whose low half is that of a command (30 R121). -/
theorem cmdOp_of_low {w : Word} {x : BitVec 16} (h : w.setWidth 16 = x) : cmdOp w = x.setWidth 4 := by
  subst h
  apply BitVec.eq_of_toNat_eq
  simp only [toNat_cmdOp, BitVec.toNat_setWidth]
  omega

/-- A completion counts a block exactly when it is that of a PROCESS with OK or OK_BYPASSED (10 R45). -/
theorem Completion.blockCnt {s t : State} {w : Word} (h : Completion s w t) :
    t.blockCnt = if cmdOp w = 2#4 ∧ (t.status.result = .ok ∨ t.status.result = .okBypassed)
      then s.blockCnt + 1#32 else s.blockCnt := by
  cases h with
  | error code he hn e | badSpec code he hn e =>
    subst e
    rw [if_neg]
    · exact complete_blockCnt _ _ _
    · rintro ⟨-, hc | hc⟩ <;> cases hc <;> cases he
  | nonfinite fs f hr e => subst e; rw [if_neg (by simp)]; exact complete_blockCnt _ _ _
  | nop hw e | clear hw e | prepare rows hw hfs hmb hnc hr e | resolve rows hw hr e =>
    subst e hw
    rw [if_neg (fun k => absurd k.1 (by decide))]
    exact complete_blockCnt _ _ _
  | bypass hw e =>
    subst e
    rw [if_pos ⟨cmdOp_of_low hw, .inr rfl⟩]
    exact complete_blockCnt _ _ _
  | process rows hw hr e =>
    subst e
    rw [if_pos ⟨cmdOp_of_low hw, .inl rfl⟩]
    simp only [complete_blockCnt, countBlock_blockCnt, processBlock_blockCnt]

/-! The live controls and the commands (10 R50, 70 R352). -/

/-- `s` with other live controls GAIN, TONE, VOLUME and BYPASS. -/
def State.withControls (s : State) (g tn v : Word) (b : Bool) : State :=
  { s with gain := g, tone := tn, volume := v, bypass := b }

section
variable (s : State) (g tn v : Word) (b : Bool)

@[simp] theorem withControls_specFs : (s.withControls g tn v b).specFs = s.specFs := rfl
@[simp] theorem withControls_activeFs : (s.withControls g tn v b).activeFs = s.activeFs := rfl

/-- A resolve reads the normalised controls of the snapshot (41 R245). -/
@[simp] theorem withControls_resolve (fs : Word) : (s.withControls g tn v b).resolve fs = s.resolve fs := rfl

theorem complete_withControls (code : ResultCode) (info : Option (Stage × Nat)) :
    complete code info (s.withControls g tn v b) = (complete code info s).withControls g tn v b := by
  cases code <;> cases info <;> rfl

/-- A branch that does not read the controls commutes with them when both its arms do. -/
theorem ite_withControls {c : Prop} [Decidable c] {x x' y y' : State} (hx : x' = x.withControls g tn v b)
    (hy : y' = y.withControls g tn v b) :
    (if c then x' else y') = (if c then x else y).withControls g tn v b := by
  subst hx hy
  exact (apply_ite (State.withControls · g tn v b) _ _ _).symm

/-- The branch for FATAL commutes with the controls when the body does. -/
theorem unlessFatal_withControls {t u : State} (h : u = t.withControls g tn v b) :
    unlessFatal (s.withControls g tn v b) u = (unlessFatal s t).withControls g tn v b :=
  ite_withControls g tn v b (complete_withControls s g tn v b _ _) h

/-- The same of the outcome of a command whose body leaves `t`. -/
theorem next_unlessFatal_withControls {t t' u : State} (hb : t' = t.withControls g tn v b)
    (h : (.next (unlessFatal s t) : Host.Outcome State Fault Refusal) = .next u) :
    (.next (unlessFatal (s.withControls g tn v b) t') : Host.Outcome State Fault Refusal) =
      .next (u.withControls g tn v b) := by
  injection h with h
  rw [unlessFatal_withControls s g tn v b hb, h]

theorem processSample_withControls (coef : CoefFile) (c : Chan) (n : Nat) :
    processSample coef c (s.withControls g tn v b) n = (processSample coef c s n).withControls g tn v b := by
  cases c <;> rfl

theorem processChan_withControls (coef : CoefFile) (len : Nat) (c : Chan) :
    processChan coef len (s.withControls g tn v b) c = (processChan coef len s c).withControls g tn v b :=
  List.foldl_hom (State.withControls · g tn v b) (fun u n => processSample_withControls u g tn v b coef c n)

theorem processBlock_withControls (coef : CoefFile) (nch : Word) (len : BitVec 16) :
    processBlock coef nch len (s.withControls g tn v b) = (processBlock coef nch len s).withControls g tn v b :=
  List.foldl_hom (State.withControls · g tn v b) (fun u c => processChan_withControls u g tn v b coef _ c)

theorem failPrepare_withControls (code : ResultCode) :
    failPrepare code (s.withControls g tn v b) = (failPrepare code s).withControls g tn v b :=
  complete_withControls { s with status := { s.status with prepared := false } } g tn v b code none

theorem prepare_withControls : prepare (s.withControls g tn v b) = (prepare s).withControls g tn v b := by
  unfold prepare
  refine ite_withControls g tn v b (failPrepare_withControls s g tn v b _)
    (ite_withControls g tn v b (failPrepare_withControls s g tn v b _)
      (ite_withControls g tn v b (failPrepare_withControls s g tn v b _) ?_))
  rw [withControls_specFs, withControls_resolve]
  cases s.resolve s.specFs with
  | error f => exact complete_withControls s g tn v b _ _
  | ok rows => exact complete_withControls (commitPrepare rows s) g tn v b _ _

theorem transformBlock_withControls (len : BitVec 16) :
    transformBlock len (s.withControls g tn v b) = (transformBlock len s).withControls g tn v b := by
  unfold transformBlock
  rw [withControls_activeFs, withControls_resolve]
  cases s.resolve s.activeFs with
  | error f => exact complete_withControls s g tn v b _ _
  | ok rows =>
    have hb := processBlock_withControls { s with coef := rows } g tn v b rows s.activeNch len
    have hc := complete_withControls (countBlock false (processBlock rows s.activeNch len { s with coef := rows }))
      g tn v b .ok none
    exact (congrArg (fun u => complete .ok none (countBlock false u)) hb).trans hc

theorem processBody_withControls (len : BitVec 16) :
    processBody len (s.withControls g tn v b) = (processBody len s).withControls g tn v b :=
  ite_withControls g tn v b (complete_withControls s g tn v b _ _)
    (ite_withControls g tn v b (complete_withControls s g tn v b _ _)
      (ite_withControls g tn v b (complete_withControls (countBlock true s) g tn v b _ _)
        (transformBlock_withControls s g tn v b len)))

theorem resolveBody_withControls : resolveBody (s.withControls g tn v b) = (resolveBody s).withControls g tn v b := by
  unfold resolveBody
  refine ite_withControls g tn v b (complete_withControls s g tn v b _ _) ?_
  rw [withControls_activeFs, withControls_resolve]
  cases s.resolve s.activeFs with
  | error f => exact complete_withControls s g tn v b _ _
  | ok rows => exact complete_withControls { s with coef := rows } g tn v b _ _

end

/-! The invariant apart from the command in flight. -/

/-- `s` with nothing in flight. -/
def State.withoutCommand (s : State) : State := { s with pending := none, abortRange := Range.empty }

/-- The invariant but for `abortRange`, which alone speaks of the command in flight. -/
def State.DataInv (s : State) : Prop := s.withoutCommand.Inv

theorem State.Inv.dataInv {s : State} (h : s.Inv) : s.DataInv := { h with range := rfl }

/-- The environment is no part of the invariant. -/
theorem State.Inv.withEnv {s : State} (h : s.Inv) (e : Env) : (s.withEnv e).Inv := { h with }

/-! The coefficient file of a resolve (41 R245, R246, 10 R61 to R64). -/

/-- What the invariant asks of the coefficient file. -/
structure CoefInv (rows : CoefFile) : Prop where
  finite : ∀ w ∈ checkedWords, F32.isFinite ((rows.get w.1).get w.2) = true
  mode : (ShaperMode.ofCode? rows.shaper.w4).isSome = true
  unused : ∀ w ∈ fixedWords, (rows.get w.1).get w.2 = 0#32

/-- The words that the row of a stage leaves at +0.0 (10 R61 to R64). -/
theorem resolveRows_unused (sb : Bool) (p : Params) (g t v fs : Word) (st : Stage) :
    ∀ i ∈ fixedIndices st.kind, ((resolveRows sb p g t v fs).get st).get i = 0#32 := by
  cases st <;> simp only [Stage.kind, fixedIndices, List.forall_mem_cons, List.not_mem_nil, false_implies, implies_true,
    and_true]
  case aaf | notch | pclp | tone => rfl
  case hpf | ptlp => exact ⟨rfl, rfl, rfl, rfl⟩
  case shaper => exact ⟨rfl, rfl, rfl⟩
  case gainNi | gainInv | vol => exact ⟨rfl, rfl, rfl, rfl, rfl, rfl⟩

theorem coefInv_of_resolve {s : State} {fs : Word} {rows : CoefFile} (h : s.resolve fs = .ok rows) : CoefInv rows := by
  obtain ⟨rfl, hfinite⟩ := resolve_ok_iff.1 h
  refine ⟨hfinite, ?mode, fun w hw => ?unused⟩
  case mode => exact Option.isSome_iff_exists.2 ⟨s.params.shMode, ShaperMode.ofCode_code _⟩
  case unused =>
    obtain ⟨st, -, hw⟩ := List.mem_flatMap.1 hw
    obtain ⟨i, hi, rfl⟩ := List.mem_map.1 hw
    exact resolveRows_unused _ _ _ _ _ _ st i hi

theorem coefInv_zero : CoefInv zeroCoef := by
  refine ⟨?_, by decide, ?_⟩ <;> decide +kernel

/-! What each update asks for to keep it. -/

theorem State.DataInv.withCoef {s : State} (h : s.DataInv) {rows : CoefFile} (hc : CoefInv rows) :
    State.DataInv { s with coef := rows } :=
  { h with finite := hc.finite, mode := hc.mode, unusedCoef := hc.unused }

theorem State.DataInv.withBlock {s : State} (h : s.DataInv) {f0 f1 : FilterFile} {m : Mem} (hm : m.wf = true)
    (hf : ∀ (c : Chan) (st : Stage), idleWordsZero st.kind (((s.withBlock f0 f1 m).filter c).get st) = true) :
    (s.withBlock f0 f1 m).DataInv :=
  { h with memory := hm, unusedState := hf }

theorem zeroFilter_idle (st : Stage) : idleWordsZero st.kind (zeroFilter.get st) = true := by
  cases st <;> rfl

theorem State.DataInv.clearFilters {s : State} (h : s.DataInv) :
    State.DataInv { s with filter0 := zeroFilter, filter1 := zeroFilter } :=
  h.withBlock h.memory (fun c st => by cases c <;> exact zeroFilter_idle st)

theorem State.DataInv.countBlock {s : State} (h : s.DataInv) (b : Bool) : (countBlock b s).DataInv := { h with }

theorem State.DataInv.commitPrepare {s : State} (h : s.DataInv) {rows : CoefFile} (hc : CoefInv rows)
    (hfs : fsValid s.specFs = true) (hmb : maxbValid s.specMaxb = true) (hnc : nchValid s.specNch = true) :
    (commitPrepare rows s).DataInv :=
  { (h.withCoef hc).clearFilters with active := fun _ => ⟨hfs, hmb, hnc⟩ }

/-- The transform path keeps the unused state words (40 R172): an active channel runs the chain, another keeps its
own. -/
theorem State.DataInv.processBlock {s : State} (h : s.DataInv) (rows : CoefFile) (nch : Word) (len : BitVec 16) :
    (processBlock rows nch len s).DataInv := by
  have hm := wf_processBlock rows nch len s h.memory
  obtain ⟨hactive, hinactive, -⟩ := processBlock_spec rows nch len s
  have hf : ∀ (c : Chan) (st : Stage),
      idleWordsZero st.kind (((Machine.processBlock rows nch len s).filter c).get st) = true := by
    intro c st
    have hs : ∀ st : Stage, idleWordsZero st.kind ((s.filter c).get st) = true := h.unusedState c
    rcases Nat.lt_or_ge c.idx nch.toNat with hc | hc
    · have he : (Machine.processBlock rows nch len s).filter c = (sampleMajor rows _ _).2 :=
        (congrArg Prod.snd (hactive c hc)).symm
      rw [he]
      exact sampleMajor_idle rows _ _ hs st
    · rw [hinactive c hc]
      exact hs st
  obtain ⟨f0, f1, m, he⟩ := processBlock_frame rows nch len s
  rw [he] at hm hf ⊢
  exact h.withBlock hm hf

/-! Completions (40 R154). -/

theorem State.DataInv.complete {s : State} (h : s.DataInv) {code : ResultCode} (hc : code ≠ .nonfiniteCoef) :
    (complete code none s).Inv := by
  rw [complete_eq none s hc]
  exact { h with }

/-- VALID is bit 31 of the fault record (10 R41). -/
theorem msb_faultRecord (st : Stage) (i : Nat) : (faultRecord st i).msb = true := by
  simp only [faultRecord, BitVec.msb_or, show (0x80000000#32).msb = true by decide, Bool.true_or]

theorem State.DataInv.nonfinite {s : State} (h : s.DataInv) {f : Stage × Nat} (hf : f ∈ checkedWords) :
    (Machine.complete .nonfiniteCoef (some f) s).Inv := by
  rw [complete_nonfinite]
  exact { h with latched := (msb_faultRecord f.1 f.2).symm, record := .inr ⟨f, hf, rfl⟩ }

theorem State.DataInv.failPrepare {s : State} (h : s.DataInv) {code : ResultCode} (hc : code ≠ .nonfiniteCoef) :
    (failPrepare code s).Inv :=
  State.DataInv.complete (s := { s with status := { s.status with prepared := false } })
    { h with active := fun k => absurd k Bool.false_ne_true } hc

/-- A completion keeps the invariant, whatever the command. -/
theorem Completion.inv {s t : State} {w : Word} (h : Completion s w t) (hs : s.Inv) : t.Inv := by
  have hd := hs.dataInv
  cases h with
  | error code he hn e => exact e ▸ hd.complete hn
  | badSpec code he hn e => exact e ▸ hd.failPrepare hn
  | nonfinite fs f hr e => exact e ▸ hd.nonfinite (resolve_error hr).1
  | nop hw e => exact e ▸ hd.complete (by simp)
  | prepare rows hw hfs hmb hnc hr e =>
    exact e ▸ (hd.commitPrepare (coefInv_of_resolve hr) hfs hmb hnc).complete (by simp)
  | bypass hw e => exact e ▸ (hd.countBlock true).complete (by simp)
  | process rows hw hr e =>
    exact e ▸ (((hd.withCoef (coefInv_of_resolve hr)).processBlock rows _ _).countBlock false).complete (by simp)
  | resolve rows hw hr e => exact e ▸ (hd.withCoef (coefInv_of_resolve hr)).complete (by simp)
  | clear hw e => exact e ▸ hd.clearFilters.complete (by simp)

/-! Acceptance (40 R151). -/

theorem State.DataInv.takeSnapshot {s : State} (h : s.DataInv) : (takeSnapshot s).DataInv :=
  { h with snapshot := h.controls, normalised := ⟨rfl, rfl, rfl⟩ }

/-- With a command in flight the invariant holds once `abortRange` is what the command was given (70 R343). -/
theorem State.DataInv.inFlight {s : State} (h : s.DataInv) (w : Word) (sn : Snapshot) (e : Env) :
    State.Inv { s with pending := some w, abortRange := rangeAt w s, snapBefore := sn, env := e } :=
  { h with range := rfl }

theorem accept_inv {s : State} (h : s.Inv) (w : Word) : (accept w s).Inv := by
  have hd : (if !s.status.fatal && snapshots w then Machine.takeSnapshot s else s).DataInv := by
    split
    · exact h.dataInv.takeSnapshot
    · exact h.dataInv
  exact hd.inFlight w _ _

/-! Steps that neither accept nor complete a command. -/

/-- The controls are legal (10 R47). -/
def State.ControlsLegal (s : State) : Prop :=
  legalControl s.gain ∧ legalControl s.tone ∧ legalControl s.volume

/-- What such a step keeps leaves only the buffer's form and the controls to be shown. -/
theorem Kept.inv {s t : State} (hk : Kept s t) (h : s.Inv) (hm : t.mem.wf = true) (hc : t.ControlsLegal) : t.Inv := by
  obtain ⟨hafs, hamb, hanc⟩ := hk.active
  obtain ⟨hsg, hst, hsv, hsb⟩ := hk.snapshot
  obtain ⟨hng, hnt, hnv⟩ := hk.normalised
  have htransforms : ∀ w, transforms w t = transforms w s := by
    intro w
    unfold transforms
    rw [hk.fatal, hk.prepared, hamb, hsb]
  have hrange : t.rangeInFlight = s.rangeInFlight := by
    unfold State.rangeInFlight
    rw [hk.pending]
    cases s.pending with
    | none => rfl
    | some w => simp only [rangeAt, htransforms, hanc]
  exact {
    memory := hm
    controls := hc
    snapshot := by rw [hsg, hst, hsv]; exact h.snapshot
    normalised := by rw [hng, hnt, hnv, hsg, hst, hsv]; exact h.normalised
    active := by rw [hk.prepared, hafs, hamb, hanc]; exact h.active
    latched := by rw [hk.fatal, hk.faultInfo]; exact h.latched
    record := by rw [hk.faultInfo]; exact h.record
    finite := by rw [hk.coef]; exact h.finite
    mode := by rw [hk.coef]; exact h.mode
    unusedCoef := by rw [hk.coef]; exact h.unusedCoef
    unusedState := fun c st => by rw [hk.filter]; exact h.unusedState c st
    range := by rw [hk.abortRange, hrange]; exact h.range }

/-- What a rejected write and an accepted one both have (20 R95). -/
theorem unlessBusy_elim {P : State → Prop} {s t : State} (hs : P (setAccErr s)) (ht : P t) : P (unlessBusy s t) := by
  unfold unlessBusy
  split
  · exact hs
  · exact ht

/-- A host write keeps the buffer's form: WRITE_BUF stores inside the buffer, and a soft reset scrambles words of it. -/
theorem write_memory {s t : State} {v : Word} {i : Instr} (hw : HostWrite v i) (h : exec i s = .next t)
    (hm : s.mem.wf = true) : t.mem.wf = true := by
  cases hw with
  | ctrl =>
    injection h with h
    subst h
    split
    · exact wf_scramble _ _ _ hm
    · exact hm
  | param p =>
    rw [exec_setParam] at h
    injection h with h
    subst h
    exact unlessBusy_elim (P := fun u => u.mem.wf = true) hm hm
  | specFs | specMaxb | specNch =>
    injection h with h
    subst h
    exact unlessBusy_elim (P := fun u => u.mem.wf = true) hm hm
  | buf c n =>
    injection h with h
    subst h
    exact unlessBusy_elim (P := fun u => u.mem.wf = true) hm (wf_setBuf s c _ v hm n.isLt)
  | gain | tone | volume | bypass | status =>
    injection h with h
    subst h
    exact hm

theorem controlsLegal_reset : State.reset.ControlsLegal := by
  unfold State.ControlsLegal
  decide +kernel

/-- A host write leaves legal controls: the three control writes clamp their word (10 R48). -/
theorem write_controls {s t : State} {v : Word} {i : Instr} (hw : HostWrite v i) (h : exec i s = .next t)
    (hc : s.ControlsLegal) : t.ControlsLegal := by
  obtain ⟨hg, ht, hv⟩ := hc
  cases hw with
  | gain => injection h with h; subst h; exact ⟨legalControl_ctlClamp v, ht, hv⟩
  | tone => injection h with h; subst h; exact ⟨hg, legalControl_ctlClamp v, hv⟩
  | volume => injection h with h; subst h; exact ⟨hg, ht, legalControl_ctlClamp v⟩
  | ctrl =>
    injection h with h
    subst h
    split
    · exact controlsLegal_reset
    · exact ⟨hg, ht, hv⟩
  | param p =>
    rw [exec_setParam] at h
    injection h with h
    subst h
    exact unlessBusy_elim (P := State.ControlsLegal) ⟨hg, ht, hv⟩ ⟨hg, ht, hv⟩
  | specFs | specMaxb | specNch | buf =>
    injection h with h
    subst h
    exact unlessBusy_elim (P := State.ControlsLegal) ⟨hg, ht, hv⟩ ⟨hg, ht, hv⟩
  | bypass | status => injection h with h; subst h; exact ⟨hg, ht, hv⟩

/-! Resets (70 R340, R341). -/

theorem reset_inv : State.reset.Inv where
  memory := rfl
  controls := controlsLegal_reset
  snapshot := by decide +kernel
  normalised := by decide +kernel
  active := fun h => by cases h
  latched := rfl
  record := .inl rfl
  finite := coefInv_zero.finite
  mode := coefInv_zero.mode
  unusedCoef := coefInv_zero.unused
  unusedState := fun c st => by cases c <;> exact zeroFilter_idle st
  range := rfl

theorem powerOnReset_inv (s : State) : (powerOnReset s).Inv := { reset_inv with }

theorem softReset_inv {s : State} (h : s.mem.wf = true) : (softReset s).Inv :=
  { reset_inv with memory := wf_scramble _ _ _ h }

/-! Stage calls (log 3). -/

/-- A stage operation as the step of its kind: what leaves the state words alone writes them back (40 R173). -/
theorem exec_stageInstr (c : Chan) (st : Stage) (x : Word) (s : State) :
    exec (stageInstr st.kind c st x) s =
      .next (runStage c st (stageStep st.kind (s.coef.get st) ((s.filter c).get st) x) s) := by
  cases st <;> cases c <;> rfl

/-- What a stage call decodes to: the operation of its stage's kind, or a shaper mode. -/
theorem decode_stageCall_cases {call : StageCall} {i : Instr} (h : decode call.toCode = .ok i) :
    (∃ c st x, i = stageInstr (Stage.kind st) c st x) ∨
    ∃ x, i = .shaperModeAtanSym x ∨ i = .shaperModeAtanDoc x ∨ i = .shaperModeCubic x := by
  cases call with
  | kind code c st x =>
    simp only [StageCall.toCode, decode, decodeStage] at h
    split at h
    · cases h
    · split at h
      · injection h with h
        subst h
        exact .inl ⟨c, st, x, by rw [‹st.kind = _›]⟩
      · cases h
  | mode code x =>
    simp only [StageCall.toCode, decode, decodeMode] at h
    split at h
    · injection h with h; exact .inr ⟨x, .inl h.symm⟩
    · injection h with h; exact .inr ⟨x, .inr (.inl h.symm)⟩
    · injection h with h; exact .inr ⟨x, .inr (.inr h.symm)⟩
    · cases h

theorem runStage_inv {s : State} (h : s.Inv) (c : Chan) (st : Stage) {r : Word × Pair}
    (hr : idleWordsZero st.kind r.2 = true) : (runStage c st r s).Inv := by
  have hf : ∀ (d : Chan) (su : Stage), idleWordsZero su.kind (((runStage c st r s).filter d).get su) = true := by
    intro d su
    rw [runStage_filter]
    split
    · rw [stage_get_set]
      split
      · rename_i hsu
        exact hsu ▸ hr
      · exact h.unusedState c su
    · exact h.unusedState d su
  cases c <;> exact { h with unusedState := hf }

theorem handOn_inv {s : State} (h : s.Inv) (y : Word) : (handOn y s).Inv := h.withEnv _

theorem stage_inv {s t : State} {call : StageCall} {i : Instr} (hd : decode call.toCode = .ok i)
    (h : exec i s = .next t) (hs : s.Inv) : t.Inv := by
  obtain ⟨c, st, x, rfl⟩ | ⟨x, rfl | rfl | rfl⟩ := decode_stageCall_cases hd
  · rw [exec_stageInstr] at h
    injection h with h
    exact h ▸ runStage_inv hs c st (stageStep_idle _ _ _ _ (hs.unusedState c st))
  all_goals
    injection h with h
    exact h ▸ handOn_inv hs _

/-! Every step. -/

/-- Whatever a step without a stage call does, it keeps the invariant. -/
theorem Effect.inv {r : Bool} {s t : State} (h : Effect r s t) (hs : s.Inv) : t.Inv := by
  cases h with
  | same e => exact e ▸ hs
  | reject d wd e =>
    subst e
    exact (kept_reject d wd s).inv hs (by cases d <;> exact hs.memory) (by cases d <;> exact hs.controls)
  | cmd w e =>
    subst e
    unfold writeCmd
    split
    · exact { hs with }
    · exact accept_inv hs w
  | read off ha e =>
    injection e with e
    subst e
    split
    · exact (kept_reject _ _ s).inv hs hs.memory hs.controls
    · exact (kept_deliver _ s).inv hs hs.memory hs.controls
  | write off v i hd hr e =>
    obtain ⟨-, -, -, hw⟩ := decodeWrite_cases hd
    have hm := write_memory hw e hs.memory
    by_cases hreset : i = .writeCtrl v ∧ v.getLsbD 0 = true
    · obtain ⟨rfl, h0⟩ := hreset
      injection e with e
      rw [if_pos h0] at e
      exact e ▸ softReset_inv hs.memory
    · exact (kept_write hw hreset e).inv hs hm (write_controls hw e hs.controls)
  | run w i hp hd e => exact (completion_of_exec hd e).inv hs
  | illegal w hp hl e => exact e ▸ (completion_illegal s w).inv hs
  | powerOn hr e => exact e ▸ powerOnReset_inv s

end Sys2Proof.Machine

namespace Sys2Proof.Proofs

open Sys2Proof Sys2Proof.Machine Sys2Proof.Machine.F32

/-- Settles O60: a stage call keeps the invariant, and so does everything a step without one can do. -/
theorem stepKeepsInv : Obligations.StepKeepsInv := by
  unfold Obligations.StepKeepsInv
  intro s t hs h
  cases hc : s.env.stageCall with
  | none =>
    obtain ⟨e, -, -, -, -, -, he⟩ := step_effect hc h
    exact he.inv (hs.withEnv e)
  | some call =>
    obtain ⟨i, hd, he⟩ := step_stage hc h
    exact stage_inv hd he (hs.withEnv _)

/-- Settles O3: each of the fourteen offsets names a constant register. -/
theorem constantRegistersReadTheirConstants : Obligations.ConstantRegistersReadTheirConstants := by
  unfold Obligations.ConstantRegistersReadTheirConstants
  intro r hr s v rest
  obtain ⟨ha, hb, hc⟩ := constantRegisters_at r hr
  obtain ⟨hread, hcmd, hwrite⟩ := constantWord_spec hc (s.given rest) v
  exact ⟨by rw [step_read ha hb, hread], step_ignored_write ha hcmd hwrite s rest⟩

/-- Settles O24: a step after which the command is still in flight has neither accepted nor completed one and is no
reset, so it keeps a command's inputs. -/
theorem inputsAreFrozenWhileBusy : Obligations.InputsAreFrozenWhileBusy := by
  unfold Obligations.InputsAreFrozenWhileBusy
  intro s t hb hc h hp
  obtain ⟨w, hw⟩ : ∃ w, s.pending = some w := Option.isSome_iff_exists.1 hb
  have still : t.pending ≠ none := by rw [hp, hw]; exact Option.some_ne_none w
  obtain (hk | ⟨_, _, hidle, -⟩ | ⟨_, _, -, hdone⟩) | ⟨e, rfl | rfl⟩ := step_move_or_reset hc h
  · obtain ⟨hfs, hmb, hnc, hparams, hmem⟩ := hk.inputs hb
    obtain ⟨afs, amb, anc⟩ := hk.active
    obtain ⟨sg, st, sv, sb⟩ := hk.snapshot
    obtain ⟨ng, nt, nv⟩ := hk.normalised
    obtain ⟨f0, f1⟩ := hk.filters
    exact ⟨hfs, hmb, hnc, hparams, afs, amb, anc, sg, st, sv, sb, ng, nt, nv, hk.prepared, hk.fatal, hmem, hk.coef,
      f0, f1⟩
  · rw [hw] at hidle; cases hidle
  · exact absurd hdone.pending still
  · exact absurd rfl still
  · exact absurd rfl still

/-- Settles O25: each command's body commutes with a change of the live controls. -/
theorem commandsIgnoreTheLiveControls : Obligations.CommandsIgnoreTheLiveControls := by
  unfold Obligations.CommandsIgnoreTheLiveControls
  intro s t len g tn v b i hi h
  simp only [List.mem_cons, List.not_mem_nil, or_false] at hi
  obtain rfl | rfl | rfl | rfl | rfl := hi
  · exact next_unlessFatal_withControls s g tn v b (complete_withControls s g tn v b .ok none) h
  · exact next_unlessFatal_withControls s g tn v b (prepare_withControls s g tn v b) h
  · exact next_unlessFatal_withControls s g tn v b (processBody_withControls s g tn v b len) h
  · exact next_unlessFatal_withControls s g tn v b (resolveBody_withControls s g tn v b) h
  · exact next_unlessFatal_withControls s g tn v b
      (complete_withControls { s with filter0 := zeroFilter, filter1 := zeroFilter } g tn v b .ok none) h

/-- Settles O27: BLOCK_CNT in each of the three moves of a step. -/
theorem blockCntCountsProcessedBlocks : Obligations.BlockCntCountsProcessedBlocks := by
  unfold Obligations.BlockCntCountsProcessedBlocks
  refine ⟨fun s => ⟨rfl, rfl⟩, fun s t hc hr h => ?_⟩
  cases step_move hc hr h with
  | keep hk =>
    rw [hk.blockCnt, hk.pending]
    cases s.pending <;> simp
  | accept w e hp ht =>
    subst ht
    rw [hp]
    exact accept_blockCnt w _
  | complete w e hp hdone =>
    rw [hp, hdone.blockCnt]
    simp only [hdone.pending, true_and]
    rfl

/-- Settles O29: the filter-state file in each of the three moves of a step. -/
theorem filterStateHasFourWriters : Obligations.FilterStateHasFourWriters := by
  unfold Obligations.FilterStateHasFourWriters
  intro s t hc hr h
  cases step_move hc hr h with
  | keep hk => exact .inl hk.filter
  | accept w e hp ht => subst ht; exact .inl (fun c => by rw [accept_filter, withEnv_filter])
  | complete w e hp hdone =>
    have hf := hdone.filter_cases
    simp only [withEnv_filter] at hf
    exact hf.imp_right (fun hw => ⟨w, hp, hdone.pending, hw⟩)

/-- Settles O53: the clamp's range, its fixed points, and the tenth of a legal control. -/
theorem controlsStayInTheirRange : Obligations.ControlsStayInTheirRange := by
  unfold Obligations.ControlsStayInTheirRange
  refine ⟨legalControl_ctlClamp, fun w h => ctlClamp_of_legal h, fun w h => ?_⟩
  obtain ⟨h0, h1⟩ := tenth_range h
  exact ⟨h0, h1, clampNN_of_nonneg h0⟩

/-- Settles O54: the four writes, one after the other; each stores the word as it is, because the clamp leaves a legal
control. -/
theorem persistedControlsAreRestored : Obligations.PersistedControlsAreRestored := by
  unfold Obligations.PersistedControlsAreRestored
  intro s u hg ht hv
  calc runSteps 4 (u.given (Script.restore s.gain s.tone s.volume (boolWord s.bypass)))
    _ = runSteps 3 _ := runSteps_succ 3 (step_setGain hg u _)
    _ = runSteps 2 _ := runSteps_succ 2 (step_setTone ht _ _)
    _ = runSteps 1 _ := runSteps_succ 1 (step_setVolume hv _ _)
    _ = runSteps 0 _ := runSteps_succ 0 (step_setBypass s.bypass _ _)

end Sys2Proof.Proofs
end

section
/-! PROOFS. The statements of spec/20_memory.md: which accesses are rejected, what reserved offsets read, what an access
while BUSY does, and the byte order of the window. -/

namespace Sys2Proof.Machine

/-! What stands at an offset of the register window, one lemma for each part of it (10 section 2.1). -/

theorem inBuffer_iff {off : Offset} : inBuffer off = true ↔ 0x8000 ≤ off.toNat := by
  rw [inBuffer, show off.getLsbD 15 = off.msb from (BitVec.msb_eq_getLsbD_last off).symm, BitVec.msb_eq_decide,
    decide_eq_true_iff]

theorem inBuffer_eq_false {off : Offset} (h : off.toNat < 0x8000) : inBuffer off = false := by
  rw [← Bool.not_eq_true, inBuffer_iff]
  omega

theorem regAt_register {off : Offset} (h : off.toNat < 0x8000) : regAt off = lowRegAt off.toNat :=
  if_neg (by rw [← inBuffer, inBuffer_eq_false h]; exact Bool.false_ne_true)

theorem regAt_buffer {off : Offset} (h : 0x8000 ≤ off.toNat) :
    regAt off = .buf (chanOfBit (off.getLsbD 14)) (off.extractLsb' 2 12) :=
  if_pos (inBuffer_iff.2 h)

theorem lowRegAt_controls {a : Nat} (h : a < 0x100) : lowRegAt a = (lowRegs.lookup a).getD .reserved := if_pos h

theorem lowRegAt_params {a : Nat} (h0 : 0x100 ≤ a) (h1 : a < 0x400) :
    lowRegAt a = (ParamId.all[(a - 0x100) / 4]?).elim .reserved .param := by
  rw [lowRegAt, if_neg (by omega), if_pos h1]
  cases ParamId.all[(a - 0x100) / 4]? <;> rfl

theorem lowRegAt_kinds {a : Nat} (h0 : 0x400 ≤ a) (h1 : a < 0x800) :
    lowRegAt a = (Stage.all[(a - 0x400) / 4]?).elim .reserved .stageKind := by
  rw [lowRegAt, if_neg (by omega), if_neg (by omega), if_pos h1]
  cases Stage.all[(a - 0x400) / 4]? <;> rfl

theorem lowRegAt_coefs {a : Nat} (h0 : 0x800 ≤ a) (h1 : a < 0xC00) :
    lowRegAt a = (Stage.all[(a - 0x800) / 0x20]?).elim .reserved (.coef · ((a - 0x800) % 0x20 / 4)) := by
  rw [lowRegAt, if_neg (by omega), if_neg (by omega), if_neg (by omega), if_pos h1]
  cases Stage.all[(a - 0x800) / 0x20]? <;> rfl

theorem lowRegAt_states {a : Nat} (h0 : 0xC00 ≤ a) (h1 : a < 0xE00) :
    lowRegAt a = (Stage.all[(a - 0xC00) % 0x100 / 8]?).elim .reserved
      (.state (chanOfBit (0x100 ≤ a - 0xC00)) · ((a - 0xC00) % 8 / 4)) := by
  rw [lowRegAt, if_neg (by omega), if_neg (by omega), if_neg (by omega), if_neg (by omega), if_pos h1]
  cases Stage.all[(a - 0xC00) % 0x100 / 8]? <;> rfl

theorem lowRegAt_above {a : Nat} (h : 0xE00 ≤ a) : lowRegAt a = .reserved := by
  rw [lowRegAt, if_neg (by omega), if_neg (by omega), if_neg (by omega), if_neg (by omega), if_neg (by omega)]

/-- Past the end of its list a part of the window is reserved (10 R33). -/
theorem elim_past_end {α : Type} {l : List α} {k : Nat} (h : l.length ≤ k) (f : α → Reg) :
    l[k]?.elim .reserved f = .reserved := by
  rw [List.getElem?_eq_none h, Option.elim_none]

theorem length_paramIds : ParamId.all.length = 34 := rfl

theorem length_stages : Stage.all.length = 11 := rfl

/-- Above 0x068 the first part of the window is reserved (10 R33). -/
theorem lookup_lowRegs_past_end {a : Nat} (h : 0x068 < a) : lowRegs.lookup a = none := by
  have hle : ∀ p ∈ lowRegs, p.1 ≤ 0x068 := by decide
  rw [List.lookup_eq_none_iff]
  intro p hp
  have := hle p hp
  simp only [bne_iff_ne, ne_eq]
  omega

theorem reservedOffset_iff {a : Nat} : reservedOffset a = true ↔
    a = 0x03C ∨ (0x06C ≤ a ∧ a ≤ 0x0FC) ∨ (0x188 ≤ a ∧ a ≤ 0x3FC) ∨ (0x42C ≤ a ∧ a ≤ 0x7FC) ∨
    (0x960 ≤ a ∧ a ≤ 0xBFC) ∨ (0xC58 ≤ a ∧ a ≤ 0xCFC) ∨ (0xD58 ≤ a ∧ a ≤ 0x7FFC) := by
  simp only [reservedOffset, Bool.or_eq_true, Bool.and_eq_true, beq_iff_eq, decide_eq_true_eq, or_assoc]

/-- At a reserved offset of the spec's table stands no register (10 R33). -/
theorem lowRegAt_reserved {a : Nat} (h : reservedOffset a = true) : lowRegAt a = .reserved := by
  obtain rfl | ⟨h0, h1⟩ | ⟨h0, h1⟩ | ⟨h0, h1⟩ | ⟨h0, h1⟩ | ⟨h0, h1⟩ | ⟨h0, h1⟩ := reservedOffset_iff.1 h
  · rfl
  · rw [lowRegAt_controls (by omega), lookup_lowRegs_past_end (by omega), Option.getD_none]
  · rw [lowRegAt_params (by omega) (by omega), elim_past_end (by rw [length_paramIds]; omega)]
  · rw [lowRegAt_kinds (by omega) (by omega), elim_past_end (by rw [length_stages]; omega)]
  · rw [lowRegAt_coefs (by omega) (by omega), elim_past_end (by rw [length_stages]; omega)]
  · rw [lowRegAt_states (by omega) (by omega), elim_past_end (by rw [length_stages]; omega)]
  · by_cases hs : a < 0xE00
    · rw [lowRegAt_states (by omega) hs, elim_past_end (by rw [length_stages]; omega)]
    · exact lowRegAt_above (by omega)

theorem regAt_reserved {off : Offset} (h : reservedOffset off.toNat = true) : regAt off = .reserved := by
  rw [regAt_register (by have := reservedOffset_iff.1 h; omega), lowRegAt_reserved h]

/-! A host access as the next event (20 R91 to R95). -/

/-- An access of a wrong width or alignment (20 R92, R93). -/
theorem step_rejected {off : Offset} {a : Access} (h : a.width ≠ .w32 ∨ aligned off = false) (s : State)
    (rest : List Event) :
    step (s.given (.window off a :: rest)) = .next (rejectAccess a.dir a.width (s.given rest)) := by
  simp [step, fetch, State.given, onEvent, access, h]

/-- An access at an address outside the window (20 R94). -/
theorem step_outside {addr : Nat} (h : addr < Config.base ∨ Config.base + 0xFFFF < addr) (a : Access) (s : State)
    (rest : List Event) : step (s.given (.physical addr a :: rest)) = .next (s.given rest) := by
  have hout : windowOffset addr = none := if_neg (by omega)
  simp [step, fetch, State.given, onEvent, hout]

/-- An aligned read runs READ (30 R127). -/
theorem step_runs_read {off : Offset} (ha : aligned off = true) (v : Word) (s : State) (rest : List Event) :
    step (s.given (.window off ⟨.read, .w32, v⟩ :: rest)) = exec (.read off) (s.given rest) := by
  simp [step, fetch, State.given, onEvent, access, decode, decodeRead, ha]

/-- A write to CMD (40 R151, R153). -/
theorem step_writeCmd (w : Word) (s : State) (rest : List Event) :
    step (s.given (.window 0x010 ⟨.write, .w32, w⟩ :: rest)) = .next (writeCmd w (s.given rest)) := rfl

/-- A host write to a register that takes one decodes to its operation (30 R127). -/
theorem decode_hostWrite {off : Offset} {v : Word} {i : Instr} (ha : aligned off = true)
    (hw : writeInstr (regAt off) v = some i) : decode (.hostWrite off v) = .ok i := by
  have hc : regAt off ≠ .cmd := fun hc => by rw [hc] at hw; cases hw
  simp [decode, decodeWrite, ha, hc, hw]

/-- READ delivers the word of a register, and of a buffer word when idle (40 R189). -/
theorem exec_read_delivers {off : Offset} (ha : aligned off = true) {s : State}
    (h : s.busy = false ∨ off.toNat < 0x8000) :
    exec (.read off) s = .next (deliver (bytesOf (s.readReg (regAt off))) s) := by
  have hb : (inBuffer off && s.busy) = false := by
    obtain h | h := h
    · rw [h, Bool.and_false]
    · rw [inBuffer_eq_false h, Bool.false_and]
  simp [exec, execRead, ha, hb]

/-- READ of a buffer word is rejected while BUSY (20 R95). -/
theorem exec_read_rejected {off : Offset} (h : 0x8000 ≤ off.toNat) {s : State} (hb : s.busy = true) :
    exec (.read off) s = .next (rejectAccess .read .w32 s) := by
  simp [exec, execRead, inBuffer_iff.2 h, hb]

/-- The events still to come are read by no register. -/
theorem readReg_given (s : State) (es : List Event) (r : Reg) : (s.given es).readReg r = s.readReg r := by
  cases r <;> rfl

theorem readReg_reserved (s : State) : s.readReg .reserved = 0#32 := rfl

/-! Writes that are rejected while BUSY (20 R95). -/

/-- The registers whose writes are rejected while BUSY: SPEC_*, P_* and the sample buffer (20 R95). -/
def Reg.lockedWhileBusy : Reg → Bool
  | .specFs | .specMaxb | .specNch | .param _ | .buf _ _ => true
  | _ => false

/-- A write to one of them while BUSY sets ACCERR and does nothing else. -/
theorem exec_locked_write {r : Reg} (h : r.lockedWhileBusy = true) (v : Word) {s : State} (hb : s.busy = true) :
    ∃ i, writeInstr r v = some i ∧ exec i s = .next (setAccErr s) := by
  have rejected : ∀ t, unlessBusy s t = setAccErr s := fun t => if_pos hb
  cases r
  case param p => exact ⟨_, rfl, by rw [exec_setParam, writeParam, rejected]⟩
  case specFs | specMaxb | specNch | buf => exact ⟨_, rfl, congrArg _ (rejected _)⟩
  all_goals cases h

theorem step_locked_write {off : Offset} (ha : aligned off = true) (h : (regAt off).lockedWhileBusy = true) (v : Word)
    {s : State} (hb : s.busy = true) (rest : List Event) :
    step (s.given (.window off ⟨.write, .w32, v⟩ :: rest)) = .next (setAccErr (s.given rest)) := by
  obtain ⟨i, hw, he⟩ := exec_locked_write h v (s := s.given rest) hb
  rw [step_write (decode_hostWrite ha hw), he]

/-- SPEC_*, P_* and the buffer stand where the spec's table says. -/
theorem lockedWhileBusy_at {off : Offset} (h : specOrParamOffset off.toNat = true ∨ 0x8000 ≤ off.toNat) :
    (regAt off).lockedWhileBusy = true := by
  obtain h | h := h
  · simp only [specOrParamOffset, Bool.or_eq_true, Bool.and_eq_true, beq_iff_eq, decide_eq_true_eq, or_assoc] at h
    rw [regAt_register (by omega)]
    obtain h | h | h | ⟨h0, h1⟩ := h
    · rw [h]; rfl
    · rw [h]; rfl
    · rw [h]; rfl
    · have hk : (off.toNat - 0x100) / 4 < ParamId.all.length := by rw [length_paramIds]; omega
      rw [lowRegAt_params h0 (by omega), List.getElem?_eq_getElem hk]
      rfl
  · rw [regAt_buffer h]
    rfl

/-! Writes that are accepted while BUSY (20 R95): CTRL (40 R186) and CMD (40 R153). -/

theorem exec_writeCtrl_resets {v : Word} (h : v.getLsbD 0 = true) (s : State) :
    exec (.writeCtrl v) s = .next (softReset s) :=
  congrArg _ (if_pos h)

theorem exec_writeCtrl_setsIrqEn {v : Word} (h : v.getLsbD 0 = false) (s : State) :
    exec (.writeCtrl v) s = .next { s with irqEn := v.getLsbD 1 } :=
  congrArg _ (if_neg (by rw [h]; exact Bool.false_ne_true))

theorem writeCmd_busy (w : Word) {s : State} (h : s.busy = true) :
    writeCmd w s = { s with status := { s.status with overrun := true } } := if_pos h

theorem writeCmd_idle (w : Word) {s : State} (h : s.busy = false) : writeCmd w s = accept w s :=
  if_neg (by rw [h]; exact Bool.false_ne_true)

/-! The readback registers SNAP_*, NORM_*, COEF and STATE while a command is in flight (20 R95). -/

/-- What may stand at a readback offset: SNAP_*, NORM_*, COEF, STATE, or nothing. -/
def Reg.isReadback : Reg → Bool
  | .snapGain | .snapTone | .snapVolume | .snapBypass | .normG | .normT | .normV | .coef _ _ | .state _ _ _
  | .reserved => true
  | _ => false

/-- At a readback offset of the spec's table stands one of them, or nothing. -/
theorem isReadback_at {off : Offset} (h : readbackOffset off.toNat = true) : (regAt off).isReadback = true := by
  simp only [readbackOffset, Bool.or_eq_true, Bool.and_eq_true, decide_eq_true_eq] at h
  rw [regAt_register (by omega)]
  generalize off.toNat = a at h
  obtain ⟨h0, h1⟩ | ⟨h0, h1⟩ := h
  · have snapshotAndTenths : ∀ k : Fin 28, (lowRegAt (0x050 + k)).isReadback = true := by decide
    have := snapshotAndTenths ⟨a - 0x050, by omega⟩
    rwa [show 0x050 + (a - 0x050) = a by omega] at this
  · by_cases hc : a < 0xC00
    · rw [lowRegAt_coefs h0 hc]
      cases Stage.all[(a - 0x800) / 0x20]? <;> rfl
    · by_cases hs : a < 0xE00
      · rw [lowRegAt_states (by omega) hs]
        cases Stage.all[(a - 0xC00) % 0x100 / 8]? <;> rfl
      · rw [lowRegAt_above (by omega)]
        rfl

/-- What a read of them depends on. -/
theorem readReg_readback {s t : State} (hsnap : t.snapRead = s.snapRead) (hcoef : t.coef = s.coef)
    (hfilter : ∀ c, t.filter c = s.filter c) {r : Reg} (h : r.isReadback = true) : t.readReg r = s.readReg r := by
  cases r
  case snapGain | snapTone | snapVolume | snapBypass | normG | normT | normV => simp only [State.readReg, hsnap]
  case coef => simp only [State.readReg, hcoef]
  case state => simp only [State.readReg, hfilter]
  case reserved => rfl
  all_goals cases h

@[simp] theorem accept_coef (w : Word) (s : State) : (accept w s).coef = s.coef := by
  unfold accept
  simp only
  split <;> rfl

/-- Acceptance changes no read of them. -/
theorem readReg_accept (w : Word) {s : State} (h : s.busy = false) {r : Reg} (hr : r.isReadback = true) :
    (accept w s).readReg r = s.readReg r :=
  readReg_readback ((snapRead_accept w s).trans (snapRead_idle h).symm) (accept_coef w s) (accept_filter w s) hr

/-- A step after which the command is still in flight neither accepts nor completes one and is no reset. -/
theorem kept_of_in_flight {s t : State} (hb : s.busy = true) (hc : s.env.stageCall = none) (h : step s = .next t)
    (hp : t.pending = s.pending) : Kept s t := by
  obtain ⟨w, hw⟩ : ∃ w, s.pending = some w := Option.isSome_iff_exists.1 hb
  have still : t.pending ≠ none := by rw [hp, hw]; exact Option.some_ne_none w
  obtain (hk | ⟨_, _, hidle, -⟩ | ⟨_, _, -, hdone⟩) | ⟨e, rfl | rfl⟩ := step_move_or_reset hc h
  · exact hk
  · rw [hw] at hidle; cases hidle
  · exact absurd hdone.pending still
  · exact absurd rfl still
  · exact absurd rfl still

/-! The bytes of a word (20 R90). -/

theorem bytesOf_eq_map (w : Word) : bytesOf w = (List.range 4).map (byteOf w) := rfl

theorem bytesOf_zero : bytesOf 0#32 = [0#8, 0#8, 0#8, 0#8] := by decide

theorem bytesOf_getElem? (w : Word) {i : Nat} (h : i < 4) : (bytesOf w)[i]? = some (byteOf w i) := by
  rw [bytesOf_eq_map, List.getElem?_map, List.getElem?_range h, Option.map_some]

theorem bytesOf_append_getElem? (w : Word) (l : List Byte) {i : Nat} (h : i < 4) :
    (bytesOf w ++ l)[i]? = some (byteOf w i) := by
  rw [List.getElem?_append_left h, bytesOf_getElem? w h]

/-- Four bytes on, the list after a word. -/
theorem bytesOf_append_getElem?_add (w : Word) (l : List Byte) (i : Nat) : (bytesOf w ++ l)[4 + i]? = l[i]? := by
  rw [List.getElem?_append_right (Nat.le_add_right 4 i)]
  exact congrArg (l[·]?) (Nat.add_sub_cancel_left 4 i)

/-- Reading one byte of a buffer word just written (20 R90, R98). -/
theorem bufByte_setBuf_same (s : State) (c : Chan) (n : Nat) (w : Word) {i : Nat} (h : i < 4) :
    (s.setBuf c n w).bufByte (bufAddr c n + i) = byteOf w i := by
  simp only [State.bufByte, State.setBuf, Mem.lookup_storeWord_in _ _ _ i h, Option.getD_some]

theorem exec_writeBuf_idle (c : Chan) (n : BitVec 12) (v : Word) {s : State} (h : s.busy = false) :
    exec (.writeBuf c n v) s = .next (s.setBuf c n.toNat v) :=
  congrArg _ (if_neg (by rw [h]; exact Bool.false_ne_true))

end Sys2Proof.Machine

namespace Sys2Proof.Proofs

open Sys2Proof Sys2Proof.Machine

/-- Settles O5: a reserved offset names no register, which reads 0 and takes no write; an address outside the window has
no offset. -/
theorem reservedOffsetsReadZero : Obligations.ReservedOffsetsReadZero := by
  unfold Obligations.ReservedOffsetsReadZero
  refine ⟨fun s off v rest ha h => ?_, fun s addr a rest h => step_outside h a s rest⟩
  have hr := regAt_reserved h
  have hb := inBuffer_eq_false (off := off) (by have := reservedOffset_iff.1 h; omega)
  refine ⟨?_, step_ignored_write ha (by rw [hr]; simp) (by rw [hr]; rfl) s rest⟩
  rw [step_read ha hb, hr, readReg_reserved, bytesOf_zero]

/-- Settles O6: every such access is rejected, as a read or as a write. -/
theorem wrongAccessesAreRejected : Obligations.WrongAccessesAreRejected := by
  unfold Obligations.WrongAccessesAreRejected
  intro s off a rest h
  rw [step_rejected (h.imp_right (fun hm => by simpa [aligned] using hm))]
  obtain ⟨d, wd, v⟩ := a
  cases d <;> rfl

/-- Settles O7: the accesses while BUSY one by one; a readback register reads what acceptance and every step that keeps
the command in flight leave as it is. -/
theorem busyRejectsInputsAndBuffer : Obligations.BusyRejectsInputsAndBuffer := by
  unfold Obligations.BusyRejectsInputsAndBuffer
  refine ⟨fun s off v rest hb ha => ⟨fun h => ?locked, fun h => ?bufferRead, fun h => ?read, ?_⟩,
    fun s w rest hp => ?accepted, fun s t hb hc hs hp off h => ?inFlight, fun s h => ?idle⟩
  case locked => exact step_locked_write ha (lockedWhileBusy_at h) v hb rest
  case bufferRead => exact (step_runs_read ha v s rest).trans (exec_read_rejected h hb)
  case read => rw [step_runs_read ha, exec_read_delivers ha (.inr h), readReg_given]
  case accepted =>
    have hidle : s.busy = false := by rw [State.busy, hp]; rfl
    refine ⟨accept w (s.given rest), ?_, rfl, fun off h => ?_⟩
    · rw [step_writeCmd, writeCmd_idle w (s := s.given rest) hidle]
    · rw [readReg_accept w (s := s.given rest) hidle (isReadback_at h), readReg_given]
  case inFlight =>
    have hk := kept_of_in_flight hb hc hs hp
    exact readReg_readback hk.snapRead hk.coef hk.filter (isReadback_at h)
  case idle => simp only [State.readReg, snapRead_idle h, State.snapNow, and_self]
  intro writes
  refine ⟨?gain, ?tone, ?volume, ?bypass, ?reset, ?irqEn, ?status, ?cmd⟩
  case gain => rintro rfl; exact step_write (i := .setGain v) rfl s rest
  case tone => rintro rfl; exact step_write (i := .setTone v) rfl s rest
  case volume => rintro rfl; exact step_write (i := .setVolume v) rfl s rest
  case bypass => rintro rfl; exact step_write (i := .setBypass v) rfl s rest
  case reset =>
    rintro rfl h0
    exact (step_write (i := .writeCtrl v) rfl s rest).trans (exec_writeCtrl_resets h0 _)
  case irqEn =>
    rintro rfl h0
    exact (step_write (i := .writeCtrl v) rfl s rest).trans (exec_writeCtrl_setsIrqEn h0 _)
  case status => rintro rfl; exact step_write (i := .clearStatus v) rfl s rest
  case cmd =>
    rintro rfl
    exact (step_writeCmd v s rest).trans (congrArg _ (writeCmd_busy v (s := s.given rest) hb))

/-- Settles O8: the bytes of a word, lowest first, as a read delivers them, as the buffer holds them, and as the
persisted state lists them. -/
theorem theWindowIsLittleEndian : Obligations.TheWindowIsLittleEndian := by
  unfold Obligations.TheWindowIsLittleEndian
  refine ⟨fun s off ha h => ⟨_, exec_read_delivers ha h, bytesOf_eq_map _⟩,
    fun s c n v hb => ⟨_, exec_writeBuf_idle c n v hb, fun i hi => bufByte_setBuf_same s c n.toNat v hi⟩,
    fun s i hi => ?_⟩
  simp only [State.persisted, List.append_assoc]
  refine ⟨bytesOf_append_getElem? _ _ hi, ?tone, ?volume, ?bypass⟩
  case tone => rw [bytesOf_append_getElem?_add, bytesOf_append_getElem? _ _ hi]; rfl
  case volume =>
    rw [show 8 + i = 4 + (4 + i) by omega, bytesOf_append_getElem?_add, bytesOf_append_getElem?_add,
      bytesOf_append_getElem? _ _ hi]
    rfl
  case bypass =>
    rw [show 12 + i = 4 + (4 + (4 + i)) by omega, bytesOf_append_getElem?_add, bytesOf_append_getElem?_add,
      bytesOf_append_getElem?_add, bytesOf_getElem? _ hi]
    rfl

end Sys2Proof.Proofs
end

section
/-! PROOFS. The statements of spec/30_encoding.md: decoding and encoding are inverse to each other, the words of the
tables, and the completion of an illegal command word. -/

namespace Sys2Proof.Machine

/-! Command words (30 R121 to R125). -/

/-- A word is its LEN above its low half (30 R121). -/
theorem cmdLen_append_low (w : Word) : cmdLen w ++ w.setWidth 16 = w := by
  apply BitVec.eq_of_toNat_eq
  rw [F32.toNat_append', toNat_cmdLen, BitVec.toNat_setWidth]
  exact Nat.div_add_mod' w.toNat 65536

theorem toNat_processWord (len : BitVec 16) : (len ++ 0x0002#16).toNat = len.toNat * 65536 + 2 :=
  F32.toNat_append' len 0x0002#16

theorem cmdOp_processWord (len : BitVec 16) : cmdOp (len ++ 0x0002#16) = 2#4 := by
  apply BitVec.eq_of_toNat_eq
  rw [toNat_cmdOp, toNat_processWord, BitVec.toNat_ofNat]
  omega

theorem cmdRsv_processWord (len : BitVec 16) : cmdRsv (len ++ 0x0002#16) = 0#12 := by
  apply BitVec.eq_of_toNat_eq
  rw [toNat_cmdRsv, toNat_processWord, BitVec.toNat_ofNat]
  omega

theorem cmdLen_processWord (len : BitVec 16) : cmdLen (len ++ 0x0002#16) = len := by
  apply BitVec.eq_of_toNat_eq
  rw [toNat_cmdLen, toNat_processWord]
  omega

/-- Every LEN makes a legal PROCESS word (30 R123, R124). -/
theorem decode_processWord (len : BitVec 16) : decode (.command (len ++ 0x0002#16)) = .ok (.process len) := by
  have hlegal : legalCmd (len ++ 0x0002#16) = true := by
    simp only [legalCmd, cmdOp_processWord, cmdRsv_processWord, beq_self_eq_true, Bool.or_true]
    rfl
  simp [decode, decodeCommand, hlegal, cmdOp_processWord, cmdLen_processWord]

/-- A command word that decodes is the encoding of what it decodes to (30 R122, R124). -/
theorem encode_of_decode_command {w : Word} {i : Instr} (h : decode (.command w) = .ok i) :
    encode i = .command w ∧ i.wf = true := by
  obtain ⟨hl, ⟨hop, rfl⟩ | ⟨hop, rfl⟩ | ⟨hop, rfl⟩ | ⟨hop, rfl⟩ | ⟨hop, rfl⟩⟩ := decodeCommand_cases h
  case inr.inr.inl =>
    obtain ⟨hlow, -⟩ := legalCmd_value hl hop
    refine ⟨congrArg Code.command ?_, rfl⟩
    calc (cmdLen w ++ 2#16 : Word)
      _ = cmdLen w ++ w.setWidth 16 := by rw [hlow]; rfl
      _ = w := cmdLen_append_low w
  all_goals
    obtain ⟨-, hword⟩ := legalCmd_value hl hop
    exact ⟨congrArg Code.command (hword (by decide)).symm, rfl⟩

/-- The legal command words by value (30 R124). -/
theorem legalCmd_cases {w : Word} (h : legalCmd w = true) :
    w = 0#32 ∨ w = 1#32 ∨ w.setWidth 16 = 2#16 ∨ w = 3#32 ∨ w = 4#32 := by
  cases hd : decode (.command w) with
  | error e => rw [decodeCommand_error hd] at h; cases h
  | ok i =>
    obtain ⟨-, ⟨hop, -⟩ | ⟨hop, -⟩ | ⟨hop, -⟩ | ⟨hop, -⟩ | ⟨hop, -⟩⟩ := decodeCommand_cases hd <;>
      obtain ⟨hlow, hword⟩ := legalCmd_value h hop
    · exact .inl (hword (by decide))
    · exact .inr (.inl (hword (by decide)))
    · exact .inr (.inr (.inl hlow))
    · exact .inr (.inr (.inr (.inl (hword (by decide)))))
    · exact .inr (.inr (.inr (.inr (hword (by decide)))))

/-! Host writes (30 R127): at each part of the window, an offset is the one its operation encodes to. -/

theorem writeInstr_wf {r : Reg} {v : Word} {i : Instr} (h : writeInstr r v = some i) : i.wf = true := by
  cases writeInstr_cases h
  case param p => cases p <;> rfl
  all_goals rfl

theorem encode_of_writeInstr_control {a : Nat} {v : Word} {i : Instr} (ha : a < 0x100)
    (h : writeInstr (lowRegAt a) v = some i) : encode i = .hostWrite (BitVec.ofNat 16 a) v := by
  have table : ∀ p ∈ lowRegs, writeInstr p.2 v = some i → encode i = .hostWrite (BitVec.ofNat 16 p.1) v := by
    simp only [lowRegs, List.forall_mem_cons, List.not_mem_nil, false_implies, implies_true, and_true]
    repeat' apply And.intro
    all_goals rintro ⟨⟩
    all_goals rfl
  rw [lowRegAt_controls ha] at h
  cases hr : lowRegs.lookup a with
  | none => rw [hr] at h; cases h
  | some r =>
    rw [hr] at h
    obtain ⟨l₁, l₂, hl, -⟩ := List.lookup_eq_some_iff.1 hr
    exact table (a, r) (hl ▸ List.mem_append_right l₁ (List.mem_cons_self ..)) h

/-- The parameter registers stand in a row from 0x100 (10 R53). -/
theorem encode_setParam (p : ParamId) (v : Word) :
    encode (setParamInstr p v) = .hostWrite (BitVec.ofNat 16 (0x100 + 4 * ParamId.all.idxOf p)) v := by
  cases p <;> rfl

theorem encode_of_writeInstr_param {a : Nat} {v : Word} {i : Instr} (h0 : 0x100 ≤ a) (h1 : a < 0x400) (h4 : a % 4 = 0)
    (h : writeInstr (lowRegAt a) v = some i) : encode i = .hostWrite (BitVec.ofNat 16 a) v := by
  rw [lowRegAt_params h0 h1] at h
  cases hp : ParamId.all[(a - 0x100) / 4]? with
  | none => rw [hp] at h; cases h
  | some p =>
    rw [hp] at h
    injection h with h
    obtain ⟨hk, hget⟩ := List.getElem?_eq_some_iff.1 hp
    have hidx : ParamId.all.idxOf p = (a - 0x100) / 4 :=
      hget ▸ List.Nodup.idxOf_getElem (by decide) _ hk
    rw [← h, encode_setParam, hidx, show 0x100 + 4 * ((a - 0x100) / 4) = a by omega]

/-- No write operation stands from 0x400 to the buffer (10 section 2.1). -/
theorem writeInstr_above_params {a : Nat} (h : 0x400 ≤ a) (v : Word) : writeInstr (lowRegAt a) v = none := by
  by_cases hk : a < 0x800
  · rw [lowRegAt_kinds h hk]
    cases Stage.all[(a - 0x400) / 4]? <;> rfl
  · by_cases hc : a < 0xC00
    · rw [lowRegAt_coefs (by omega) hc]
      cases Stage.all[(a - 0x800) / 0x20]? <;> rfl
    · by_cases hs : a < 0xE00
      · rw [lowRegAt_states (by omega) hs]
        cases Stage.all[(a - 0xC00) % 0x100 / 8]? <;> rfl
      · rw [lowRegAt_above (by omega)]
        rfl

theorem idx_chanOfBit (b : Bool) : (chanOfBit b).idx = b.toNat := by cases b <;> rfl

/-- The channel bit and the sample bits of an aligned buffer offset make up the offset (20 R97). -/
theorem bufAddr_fields {off : Offset} (ha : aligned off = true) (h : 0x8000 ≤ off.toNat) :
    bufAddr (chanOfBit (off.getLsbD 14)) (off.extractLsb' 2 12).toNat = off.toNat := by
  have h4 : off.toNat % 4 = 0 := by simpa [aligned] using ha
  have hlt := off.isLt
  have hbit : (off.getLsbD 14).toNat = off.toNat / 16384 % 2 := Nat.toNat_testBit off.toNat 14
  simp only [bufAddr, idx_chanOfBit, hbit, BitVec.extractLsb'_toNat, Nat.shiftRight_eq_div_pow]
  omega

theorem bufAddr_inj {c d : Chan} {n k : Nat} (hn : n < 4096) (hk : k < 4096) (h : bufAddr c n = bufAddr d k) :
    c = d ∧ n = k := by
  by_contra hne
  have := bufAddr_disjoint hn hk (c := c) (d := d) (by tauto)
  omega

theorem toNat_bufOffset (c : Chan) (n : BitVec 12) :
    (BitVec.ofNat 16 (bufAddr c n.toNat)).toNat = bufAddr c n.toNat := by
  obtain ⟨-, hle⟩ := bufAddr_range c n.toNat n.isLt
  rw [BitVec.toNat_ofNat]
  exact Nat.mod_eq_of_lt (by omega)

theorem aligned_bufOffset (c : Chan) (n : BitVec 12) : aligned (BitVec.ofNat 16 (bufAddr c n.toNat)) = true := by
  rw [aligned, toNat_bufOffset, beq_iff_eq, bufAddr]
  omega

/-- At the offset of a buffer word stands that word: two words at one offset are one (20 R97). -/
theorem regAt_bufOffset (c : Chan) (n : BitVec 12) : regAt (BitVec.ofNat 16 (bufAddr c n.toNat)) = .buf c n := by
  have hge : 0x8000 ≤ (BitVec.ofNat 16 (bufAddr c n.toNat)).toNat := by
    rw [toNat_bufOffset]
    exact (bufAddr_range c n.toNat n.isLt).1
  have hfields := (bufAddr_fields (aligned_bufOffset c n) hge).trans (toNat_bufOffset c n)
  obtain ⟨hc, hn⟩ := bufAddr_inj (BitVec.isLt _) n.isLt hfields
  rw [regAt_buffer hge, hc, BitVec.eq_of_toNat_eq hn]

/-- An aligned offset is the one its write operation encodes to (30 R127). -/
theorem encode_of_writeInstr {off : Offset} {v : Word} {i : Instr} (ha : aligned off = true)
    (h : writeInstr (regAt off) v = some i) : encode i = .hostWrite off v := by
  have h4 : off.toNat % 4 = 0 := by simpa [aligned] using ha
  have hoff : BitVec.ofNat 16 off.toNat = off := by rw [BitVec.ofNat_toNat, BitVec.setWidth_eq]
  by_cases hb : 0x8000 ≤ off.toNat
  · rw [regAt_buffer hb] at h
    injection h with h
    rw [← h, encode, bufAddr_fields ha hb, hoff]
  · rw [regAt_register (by omega)] at h
    by_cases hc : off.toNat < 0x100
    · rw [encode_of_writeInstr_control hc h, hoff]
    · by_cases hp : off.toNat < 0x400
      · rw [encode_of_writeInstr_param (by omega) hp h4 h, hoff]
      · rw [writeInstr_above_params (by omega)] at h
        cases h

/-- The operations of the spec's table of host writes, each at the offset it encodes to (30 R127, 10 R53). -/
theorem encode_hostWrites (v : Word) : ∀ r ∈ hostWrites v, encode r.2 = .hostWrite r.1 v ∧ r.2.wf = true := by
  simp only [hostWrites, List.forall_mem_cons, List.not_mem_nil, false_implies, implies_true, and_true]
  repeat' apply And.intro
  all_goals rfl

/-! Stage-kind and shaper-mode codes (30 R130 to R136). -/

theorem ofCode?_kindCode (k : StageKind) : StageKind.ofCode? k.code = some k := by cases k <;> rfl

theorem kindCode_of_ofCode? {code : Byte} {k : StageKind} (h : StageKind.ofCode? code = some k) : k.code = code := by
  simpa using List.find?_some h

/-- A stage-kind code decodes at the stages of its kind (30 R130, R131, 10 R59). -/
theorem decode_stageKind_iff {code : Byte} {c : Chan} {st : Stage} {x : Word} {i : Instr} :
    decode (.stageKind code c st x) = .ok i ↔ code = st.kind.code ∧ i = stageInstr st.kind c st x := by
  constructor
  · intro h
    simp only [decode, decodeStage] at h
    split at h
    · cases h
    · rename_i k hk
      split at h
      · rename_i hst
        injection h with h
        exact ⟨by rw [hst, kindCode_of_ofCode? hk], by rw [hst, h]⟩
      · cases h
  · rintro ⟨rfl, rfl⟩
    simp [decode, decodeStage, ofCode?_kindCode]

theorem encode_stageInstr (k : StageKind) (c : Chan) (st : Stage) (x : Word) :
    encode (stageInstr k c st x) = .stageKind k.code c st x := by cases k <;> rfl

theorem wf_stageInstr (k : StageKind) (c : Chan) (st : Stage) (x : Word) :
    (stageInstr k c st x).wf = (st.kind == k) := by cases k <;> rfl

theorem modeCode_of_ofCode? {code : Word} {m : ShaperMode} (h : ShaperMode.ofCode? code = some m) : m.code = code := by
  unfold ShaperMode.ofCode? at h
  split_ifs at h with h0 h1 h2 <;> cases h
  · exact h0.symm
  · exact h1.symm
  · exact h2.symm

/-- A shaper-mode code that decodes is one of three (30 R135, R136). -/
theorem encode_of_decode_shaperMode {code x : Word} {i : Instr} (h : decode (.shaperMode code x) = .ok i) :
    encode i = .shaperMode code x ∧ i.wf = true := by
  simp only [decode, decodeMode] at h
  cases hm : ShaperMode.ofCode? code with
  | none => rw [hm] at h; cases h
  | some m =>
    rw [hm] at h
    rw [← modeCode_of_ofCode? hm]
    cases m <;> cases h <;> exact ⟨rfl, rfl⟩

theorem decode_hostRead_iff {off : Offset} {i : Instr} :
    decode (.hostRead off) = .ok i ↔ aligned off = true ∧ i = .read off := by
  simp only [decode, decodeRead]
  cases aligned off <;> simp [eq_comm]

/-! The completion of an illegal command word (30 R125). -/

/-- A word that is not legal takes no snapshot and aborts nothing (40 R151, 70 R343). -/
theorem accept_illegal {w : Word} (h : legalCmd w = false) (s : State) :
    accept w s = { s with
      pending := some w, abortRange := Range.empty, snapBefore := s.snapNow, env := { s.env with elapsed := 0 } } := by
  simp [accept, snapshots, rangeAt, transforms, h]

/-- With FATAL clear an illegal word completes with ILLEGAL_CMD (30 R125, 60 R304). -/
theorem step_complete_illegal {w : Word} (h : legalCmd w = false) {s : State} (hp : s.pending = some w)
    (hf : s.status.fatal = false) (rest : List Event) :
    step (s.given (.complete :: rest)) = .next { s.given rest with
      status := { s.status with result := .illegalCmd, done := true, err := true }
      lastCmd := w, pending := none, abortRange := Range.empty } := by
  have hpend : (s.given rest).pending = some w := hp
  have hstep : step (s.given (.complete :: rest)) = .next (executeIllegal (s.given rest)) := by
    simp [step, fetch, onEvent, completion, decodeCommand_illegal h, State.given, hp]
  have hcomplete : executeIllegal (s.given rest) = complete .illegalCmd none (s.given rest) :=
    if_neg (ne_true_of_eq_false hf)
  rw [hstep, hcomplete, complete_eq none _ (by simp), hpend]
  simp only [Status.completed, ResultCode.isError, Bool.or_true, Option.getD_some]
  rfl

end Sys2Proof.Machine

namespace Sys2Proof.Proofs

open Sys2Proof Sys2Proof.Machine

/-- Settles O55: the encodings whose decoding depends on an operand one by one; the decoder evaluates the others, whose
word or offset is fixed. -/
theorem decodeOfEncode : Obligations.DecodeOfEncode := by
  unfold Obligations.DecodeOfEncode
  intro i h
  cases i
  case process len => exact decode_processWord len
  case writeBuf c n v => exact decode_hostWrite (aligned_bufOffset c n) (by rw [regAt_bufOffset]; rfl)
  case read off => exact decode_hostRead_iff.2 ⟨h, rfl⟩
  case stageFoHp c st x | stageBqLp c st x | stageBqPeak c st x | stageBqNotch c st x | stageGainNi c st x |
      stageGainInv c st x | stageShaper c st x | stageFoLp c st x | stageGainVol c st x =>
    have hk := beq_iff_eq.1 h
    exact decode_stageKind_iff.2 ⟨by rw [hk]; rfl, by rw [hk]; rfl⟩
  all_goals rfl

/-- Settles O56, one vocabulary after the other. -/
theorem encodeOfDecode : Obligations.EncodeOfDecode := by
  unfold Obligations.EncodeOfDecode
  intro code i h
  cases code with
  | command w => exact encode_of_decode_command h
  | hostWrite off v =>
    obtain ⟨ha, -, hw, -⟩ := decodeWrite_cases h
    exact ⟨encode_of_writeInstr ha hw, writeInstr_wf hw⟩
  | hostRead off =>
    obtain ⟨ha, rfl⟩ := decode_hostRead_iff.1 h
    exact ⟨rfl, ha⟩
  | stageKind code c st x =>
    obtain ⟨rfl, rfl⟩ := decode_stageKind_iff.1 h
    exact ⟨encode_stageInstr _ c st x, by rw [wf_stageInstr, beq_self_eq_true]⟩
  | shaperMode code x => exact encode_of_decode_shaperMode h

/-- Settles O57: the single words evaluate; what the tables list decodes because it is an encoding. -/
theorem wordsDecodeAsTheTablesSay : Obligations.WordsDecodeAsTheTablesSay := by
  unfold Obligations.WordsDecodeAsTheTablesSay
  refine ⟨rfl, rfl, rfl, rfl, rfl, rfl, rfl, rfl, rfl, rfl, fun v => ?hostWrites, fun n v => ⟨?ch0, ?ch1⟩⟩
  case hostWrites =>
    intro r hr
    obtain ⟨hencode, hwf⟩ := encode_hostWrites v r hr
    exact hencode ▸ decodeOfEncode r.2 hwf
  case ch0 =>
    rw [show 0x8000 + 4 * n.toNat = bufAddr .ch0 n.toNat by simp [bufAddr, Chan.idx]]
    exact decodeOfEncode (.writeBuf .ch0 n v) rfl
  case ch1 =>
    rw [show 0xC000 + 4 * n.toNat = bufAddr .ch1 n.toNat by simp only [bufAddr, Chan.idx]; omega]
    exact decodeOfEncode (.writeBuf .ch1 n v) rfl

/-- Settles O22: an illegal word is accepted without a snapshot, and its completion reports ILLEGAL_CMD. -/
theorem illegalWordsCompleteWithIllegalCmd : Obligations.IllegalWordsCompleteWithIllegalCmd := by
  unfold Obligations.IllegalWordsCompleteWithIllegalCmd
  intro s w rest hp hf hw
  have hl : legalCmd w = false := by
    rw [← Bool.not_eq_true]
    intro hl
    have := legalCmd_cases hl
    tauto
  have hidle : s.busy = false := by rw [State.busy, hp]; rfl
  refine ⟨accept w (s.given (.complete :: rest)), ?_, rfl, ?_⟩
  · rw [step_writeCmd, writeCmd_idle w (s := s.given _) hidle]
  · rw [accept_illegal hl]
    exact step_complete_illegal hl (s := { s with
      pending := some w, abortRange := Range.empty, snapBefore := s.snapNow, env := { s.env with elapsed := 0 } })
      rfl hf rest

end Sys2Proof.Proofs
end

section
/-! PROOFS. The statements of spec/40_chain_processor.md: the host operations, acceptance and completion, the commands,
the transform path of PROCESS, and the order of its loops. -/

namespace Sys2Proof.Machine

/-! Host operations (40 R180 to R189). -/

theorem unlessBusy_busy {s : State} (h : s.busy = true) (t : State) : unlessBusy s t = setAccErr s := if_pos h

theorem unlessBusy_idle {s : State} (h : s.busy = false) (t : State) : unlessBusy s t = t :=
  if_neg (ne_true_of_eq_false h)

/-- `ctlclamp` in one line: NaN, below the range, above it, inside it (10 R48). -/
theorem ctlClamp_eq (w : Word) :
    ctlClamp w = if F32.isNaN w then 0#32 else if F32.lt w 0#32 then 0#32
      else if F32.lt F32.TEN w then F32.TEN else w := by
  have zero_in_range : F32.lt F32.TEN 0#32 = false := by decide +kernel
  unfold ctlClamp F32.clamp
  by_cases hn : F32.isNaN w = true
  · rw [if_pos hn, if_pos hn]
  · rw [if_neg hn, if_neg hn, if_neg hn]
    by_cases h0 : F32.lt w 0#32 = true
    · simp [h0, zero_in_range]
    · simp [h0]

/-- A one-bit field at bit `n`, taken from that bit of a word. -/
theorem bitAt_getLsbD (w : Word) (n : Nat) : bitAt (w.getLsbD n) n = w &&& 1#32 <<< n := by
  rw [← BitVec.twoPow_eq, BitVec.and_twoPow, bitAt, BitVec.twoPow_eq]

theorem boolWord_bit0 (w : Word) : boolWord (w.getLsbD 0) = w &&& 1#32 := bitAt_getLsbD w 0

/-! The parameter registers (10 R54, R55, R56). -/

/-- A write of one parameter register leaves the others. -/
theorem Params.get_set_ne (p : Params) {id q : ParamId} (v : Word) (h : q ≠ id) : (p.set id v).get q = p.get q := by
  cases id <;> cases q <;> first | rfl | exact absurd rfl h

/-- What the mode register holds after a write: a mode 0, 1 or 2, or what it held (10 R56). -/
theorem modeCode_getD_ofCode? (m : ShaperMode) (v : Word) :
    ((ShaperMode.ofCode? v).getD m).code = if v = 0#32 ∨ v = 1#32 ∨ v = 2#32 then v else m.code := by
  unfold ShaperMode.ofCode?
  by_cases h0 : v = 0#32
  · subst h0; rfl
  by_cases h1 : v = 1#32
  · subst h1; rfl
  by_cases h2 : v = 2#32
  · subst h2; rfl
  simp [h0, h1, h2]

/-- What a write of a parameter register makes it read. -/
theorem Params.get_set_same (p : Params) (id : ParamId) (v : Word) :
    (p.set id v).get id =
      if id = .invPol then v &&& 1#32
      else if id = .shMode then (if v = 0#32 ∨ v = 1#32 ∨ v = 2#32 then v else p.get id)
      else v := by
  cases id
  case invPol => exact boolWord_bit0 v
  case shMode => exact modeCode_getD_ofCode? p.shMode v
  all_goals rfl

/-! STATUS (10 R38). -/

theorem getLsbD_bitAt (b : Bool) {n i : Nat} (hi : i < 32) : (bitAt b n).getLsbD i = (b && decide (i = n)) := by
  cases b
  · simp [bitAt]
  · rw [bitAt, if_pos rfl, ← BitVec.twoPow_eq, BitVec.getLsbD_twoPow, Bool.true_and]
    by_cases h : i = n
    · subst h; simp [hi]
    · simp [h, Ne.symm h]

/-- The layout of STATUS, bit by bit. -/
theorem statusWord_getLsbD (s : State) {i : Nat} (hi : i < 32) :
    s.statusWord.getLsbD i =
      (s.busy && decide (i = 0) || s.status.prepared && decide (i = 1) || s.status.fatal && decide (i = 2) ||
       s.status.done && decide (i = 3) || s.status.err && decide (i = 4) || s.status.overrun && decide (i = 5) ||
       s.status.accErr && decide (i = 6) || s.status.bypassed && decide (i = 7) ||
       decide (8 ≤ i) && s.status.result.code.getLsbD (i - 8)) := by
  simp only [State.statusWord, BitVec.getLsbD_or, getLsbD_bitAt _ hi, BitVec.getLsbD_shiftLeft,
    BitVec.getLsbD_setWidth, hi, decide_true, Bool.true_and, show i - 8 < 32 by omega, ← Nat.not_le, decide_not,
    Bool.not_not]

/-- CLEAR_STATUS in the layout of STATUS: bits 3 to 6 under the mask, the other bits as they are (40 R187). -/
theorem statusWord_clear (s : State) (v : Word) :
    State.statusWord { s with status := s.status.clear v } = s.statusWord &&& ~~~(v &&& 0x00000078#32) := by
  apply BitVec.eq_of_getLsbD_eq
  intro i hi
  rw [BitVec.getLsbD_and, BitVec.getLsbD_not, BitVec.getLsbD_and, statusWord_getLsbD _ hi, statusWord_getLsbD _ hi]
  by_cases h8 : 8 ≤ i
  · have hmask : (0x00000078#32).getLsbD i = false := BitVec.getLsbD_of_ge (0x78#8) i h8
    have apart : ∀ k, k < 8 → i ≠ k := fun k hk => by omega
    rw [hmask, Bool.and_false, Bool.not_false]
    simp [h8, hi, apart, State.busy, Status.clear]
  · interval_cases i <;> simp [State.busy, Status.clear]

/-- RESULT, bits 15:8, and the reserved bits above it (10 R38). -/
theorem statusWord_result (s : State) :
    s.statusWord.extractLsb' 8 8 = s.status.result.code ∧ s.statusWord.extractLsb' 16 16 = 0#16 := by
  constructor <;> apply BitVec.eq_of_getLsbD_eq <;> intro i hi
  · have apart : ∀ k, k < 8 → 8 + i ≠ k := fun k hk => by omega
    rw [BitVec.getLsbD_extractLsb', statusWord_getLsbD s (by omega)]
    simp [hi, apart]
  · have apart : ∀ k, k < 8 → 16 + i ≠ k := fun k hk => by omega
    rw [BitVec.getLsbD_extractLsb', statusWord_getLsbD s (by omega),
      BitVec.getLsbD_of_ge s.status.result.code (16 + i - 8) (by omega)]
    simp [apart]

/-! The map of the window, register by register (10 section 2.1). -/

theorem snapRead_eq (s : State) : s.snapRead = if s.pending.isNone then s.snapNow else s.snapBefore := by
  cases hp : s.pending with
  | none => exact snapRead_idle (by rw [State.busy, hp]; rfl)
  | some w => exact snapRead_busy (by rw [State.busy, hp]; rfl)

theorem readReg_registerMap (s : State) : ∀ r ∈ registerMap s, s.readReg (regAt r.1) = r.2 := by
  have hsnap := snapRead_eq s
  simp only [registerMap]
  generalize s.pending.isNone = now at hsnap ⊢
  simp only [List.forall_mem_cons, List.not_mem_nil, false_implies, implies_true, and_true]
  refine ⟨rfl, rfl, rfl, rfl, rfl, rfl, rfl, rfl, rfl, rfl, rfl, rfl, rfl, rfl, rfl, rfl, rfl, rfl, rfl,
    (congrArg Snapshot.gain hsnap).trans ?_, (congrArg Snapshot.tone hsnap).trans ?_,
    (congrArg Snapshot.volume hsnap).trans ?_, (congrArg (fun v : Snapshot => boolWord v.bypass) hsnap).trans ?_,
    (congrArg Snapshot.normG hsnap).trans ?_, (congrArg Snapshot.normT hsnap).trans ?_,
    (congrArg Snapshot.normV hsnap).trans ?_⟩
  all_goals cases now <;> rfl

theorem modeWord_eq_code (m : ShaperMode) : modeWord m = m.code := by cases m <;> rfl

theorem readReg_paramMap (s : State) : ∀ r ∈ paramMap s.params, s.readReg (regAt r.1) = r.2 := by
  simp only [paramMap, modeWord_eq_code, List.forall_mem_cons, List.not_mem_nil, false_implies, implies_true, and_true]
  repeat' apply And.intro
  all_goals rfl

/-- The entry at a stage's index is the stage's (10 R59). -/
theorem stage_of_inStageOrder {α : Type} {x : PerStage α} {k : Nat} {v : α} (h : (inStageOrder x)[k]? = some v) :
    ∃ st, Stage.all[k]? = some st ∧ x.get st = v := by
  have hmap : inStageOrder x = Stage.all.map x.get := rfl
  rw [hmap, List.getElem?_map, Option.map_eq_some_iff] at h
  exact h

theorem index_lt_of_stage {k : Nat} {st : Stage} (h : Stage.all[k]? = some st) : k < 11 :=
  (List.getElem?_eq_some_iff.1 h).1

theorem rowWords_getElem? (r : Row) {i : Nat} (h : i < 8) : (rowWords r)[i]? = some (r.get i) := by
  have hmap : rowWords r = (List.range 8).map r.get := rfl
  rw [hmap, List.getElem?_map, List.getElem?_range h, Option.map_some]

/-- A number below 0x8000 names a register by itself. -/
theorem regAt_ofNat {a : Nat} (h : a < 0x8000) : regAt (BitVec.ofNat 16 a) = lowRegAt a := by
  have ha : (BitVec.ofNat 16 a).toNat = a := by rw [BitVec.toNat_ofNat]; exact Nat.mod_eq_of_lt (by omega)
  rw [regAt_register (by omega), ha]

/-- COEF[k][i] stands at 0x800 + 0x20·k + 4·i (10 R60). -/
theorem regAt_coef {k : Nat} {st : Stage} (hk : Stage.all[k]? = some st) {i : Nat} (hi : i < 8) :
    regAt (BitVec.ofNat 16 (0x800 + 0x20 * k + 4 * i)) = .coef st i := by
  have := index_lt_of_stage hk
  rw [regAt_ofNat (by omega), lowRegAt_coefs (by omega) (by omega),
    show (0x800 + 0x20 * k + 4 * i - 0x800) / 0x20 = k by omega,
    show (0x800 + 0x20 * k + 4 * i - 0x800) % 0x20 / 4 = i by omega, hk, Option.elim_some]

/-- STATE[c][k][j] stands at 0xC00 + 0x100·c + 8·k + 4·j (10 R66). -/
theorem regAt_state (c : Chan) {k : Nat} {st : Stage} (hk : Stage.all[k]? = some st) {j : Nat} (hj : j < 2) :
    regAt (BitVec.ofNat 16 (0xC00 + 0x100 * c.idx + 8 * k + 4 * j)) = .state c st j := by
  have := index_lt_of_stage hk
  have hc : c.idx < 2 := by cases c <;> decide
  have hchan : chanOfBit (decide (0x100 ≤ 0xC00 + 0x100 * c.idx + 8 * k + 4 * j - 0xC00)) = c := by
    cases c
    · rw [decide_eq_false (by simp only [Chan.idx]; omega)]; rfl
    · rw [decide_eq_true (by simp only [Chan.idx]; omega)]; rfl
  rw [regAt_ofNat (by omega), lowRegAt_states (by omega) (by omega), hchan,
    show (0xC00 + 0x100 * c.idx + 8 * k + 4 * j - 0xC00) % 0x100 / 8 = k by omega,
    show (0xC00 + 0x100 * c.idx + 8 * k + 4 * j - 0xC00) % 8 / 4 = j by omega, hk, Option.elim_some]

/-- Both state words of the stage at an index of a channel (10 R66). -/
theorem readReg_state (s : State) (c : Chan) {k : Nat} {p : Pair} (h : (inStageOrder (s.filter c))[k]? = some p) :
    s.readReg (regAt (BitVec.ofNat 16 (0xC00 + 0x100 * c.idx + 8 * k))) = p.s1 ∧
    s.readReg (regAt (BitVec.ofNat 16 (0xC00 + 0x100 * c.idx + 8 * k + 4))) = p.s2 := by
  obtain ⟨st, hk, rfl⟩ := stage_of_inStageOrder h
  exact ⟨congrArg s.readReg (regAt_state c hk (j := 0) (by decide)),
    congrArg s.readReg (regAt_state c hk (j := 1) (by decide))⟩

/-- Buf[c][n] stands at its address (20 R97). -/
theorem readReg_bufAddr (s : State) (c : Chan) {n : Nat} (h : n < 4096) :
    s.readReg (regAt (BitVec.ofNat 16 (bufAddr c n))) = s.bufWord c n := by
  have hn : (BitVec.ofNat 12 n).toNat = n := by rw [BitVec.toNat_ofNat]; exact Nat.mod_eq_of_lt h
  have hreg := regAt_bufOffset c (BitVec.ofNat 12 n)
  rw [hn] at hreg
  rw [hreg, State.readReg, hn]

/-! Acceptance of a command word (40 R151). -/

/-- A word with the low half of PROCESS is one, whatever its LEN (30 R122, R123). -/
theorem decode_of_process_low {w : Word} (h : w.setWidth 16 = 2#16) :
    decode (.command w) = .ok (.process (cmdLen w)) := by
  have hw : cmdLen w ++ 0x0002#16 = w := h ▸ cmdLen_append_low w
  exact (congrArg (fun v => decode (.command v)) hw).symm.trans (decode_processWord (cmdLen w))

theorem process_low_iff {w : Word} : w.setWidth 16 = 2#16 ↔ legalCmd w = true ∧ cmdOp w = 2#4 :=
  ⟨fun h => ⟨(decodeCommand_cases (decode_of_process_low h)).1, cmdOp_of_low h⟩,
    fun ⟨hl, hop⟩ => (legalCmd_value hl hop).1⟩

/-- The words that take the snapshot: PREPARE, RESOLVE and every PROCESS. -/
theorem snapshots_eq (w : Word) : snapshots w = (w == 1#32 || w == 3#32 || w.setWidth 16 == 2#16) := by
  rw [Bool.eq_iff_iff]
  simp only [snapshots, Bool.and_eq_true, Bool.or_eq_true, beq_iff_eq]
  constructor
  · rintro ⟨hl, (hop | hop) | hop⟩
    · exact .inl (.inl ((legalCmd_value hl hop).2 (by decide)))
    · exact .inr (legalCmd_value hl hop).1
    · exact .inl (.inr ((legalCmd_value hl hop).2 (by decide)))
  · rintro ((rfl | rfl) | h)
    · decide
    · decide
    · obtain ⟨hl, hop⟩ := process_low_iff.1 h
      exact ⟨hl, .inl (.inr hop)⟩

theorem transforms_iff {w : Word} {s : State} : transforms w s = true ↔
    w.setWidth 16 = 2#16 ∧ s.status.fatal = false ∧ s.status.prepared = true ∧
      (cmdLen w).toNat ≤ s.activeMaxb.toNat ∧ s.snapBypass = false := by
  simp only [transforms, process_low_iff, Bool.and_eq_true, beq_iff_eq, Bool.not_eq_true', decide_eq_true_eq, and_assoc]

/-- The state whose `abortRange` acceptance computes: the snapshot is taken when it is to be. -/
def snapshotted (w : Word) (s : State) : State := if !s.status.fatal && snapshots w then takeSnapshot s else s

theorem accept_eq (w : Word) (s : State) : accept w s = { snapshotted w s with
    pending := some w, abortRange := rangeAt w (snapshotted w s), snapBefore := s.snapNow
    env := { s.env with elapsed := 0 } } := rfl

/-- The snapshot and the normalised controls are written together or not at all (10 R50, R51). -/
theorem snapshotted_eq {w : Word} {s : State} {taken : Bool} (h : (!s.status.fatal && snapshots w) = taken) :
    snapshotted w s = { s with
      snapGain := if taken then s.gain else s.snapGain
      snapTone := if taken then s.tone else s.snapTone
      snapVolume := if taken then s.volume else s.snapVolume
      snapBypass := if taken then s.bypass else s.snapBypass
      normG := if taken then F32.div s.gain F32.TEN else s.normG
      normT := if taken then F32.div s.tone F32.TEN else s.normT
      normV := if taken then F32.div s.volume F32.TEN else s.normV } := by
  rw [snapshotted, h]
  cases taken <;> rfl

/-- A PROCESS that may transform has taken the snapshot, so the bypass that counts is the live one (70 R343). -/
theorem transforms_snapshotted {w : Word} {s : State} : transforms w (snapshotted w s) = true ↔
    w.setWidth 16 = 2#16 ∧ s.status.fatal = false ∧ s.status.prepared = true ∧
      (cmdLen w).toNat ≤ s.activeMaxb.toNat ∧ s.bypass = false := by
  unfold snapshotted
  by_cases hs : (!s.status.fatal && snapshots w) = true
  · rw [if_pos hs]
    exact transforms_iff
  · rw [if_neg hs, transforms_iff]
    simp only [snapshots_eq, Bool.and_eq_true, Bool.not_eq_true', Bool.or_eq_true, beq_iff_eq] at hs
    tauto

theorem rangeAt_snapshotted (w : Word) (s : State) : rangeAt w (snapshotted w s) =
    if w.setWidth 16 = 2#16 ∧ s.status.fatal = false ∧ s.status.prepared = true ∧
        (cmdLen w).toNat ≤ s.activeMaxb.toNat ∧ s.bypass = false
    then ⟨s.activeNch.toNat, (cmdLen w).toNat⟩ else Range.empty := by
  have hnch : (snapshotted w s).activeNch = s.activeNch := by unfold snapshotted; split <;> rfl
  simp only [rangeAt, transforms_snapshotted, hnch]

theorem toNat_shiftRight_eq_cmdLen (w : Word) : (w >>> 16).toNat = (cmdLen w).toNat := by
  rw [toNat_cmdLen, BitVec.toNat_ushiftRight, Nat.shiftRight_eq_div_pow]

/-! The work of a step (20 R103, R94). -/

theorem windowOffset_base_add (off : Offset) : windowOffset (Config.base + off.toNat) = some off := by
  have := off.isLt
  rw [windowOffset, if_pos (by omega), Nat.add_sub_cancel_left, BitVec.ofNat_toNat, BitVec.setWidth_eq]

/-- An access at the physical address of an offset is the access at the offset (20 R94). -/
theorem step_physical (off : Offset) (a : Access) (s : State) (rest : List Event) :
    step (s.given (.physical (Config.base + off.toNat) a :: rest)) = step (s.given (.window off a :: rest)) := by
  simp [step, fetch, State.given, onEvent, windowOffset_base_add]

/-- A completion event runs the command in flight (40 R152). -/
theorem step_complete_runs {s : State} {w : Word} {i : Instr} (hp : s.pending = some w)
    (hd : decode (.command w) = .ok i) (rest : List Event) :
    step (s.given (.complete :: rest)) = exec i (s.given rest) := by
  simp [step, fetch, State.given, onEvent, completion, hp, hd]

/-- With no event left the command in flight completes (70 R361). -/
theorem step_last_runs {s : State} {w : Word} {i : Instr} (hp : s.pending = some w)
    (hd : decode (.command w) = .ok i) : step (s.given []) = exec i (s.given []) := by
  simp [step, fetch, State.given, completion, hp, hd]

/-- A stage call runs the operation its code names (log 3). -/
theorem step_stageCall {call : StageCall} {i : Instr} (hd : decode call.toCode = .ok i) (s : State) :
    step { s with env := { s.env with stageCall := some call } } =
      exec i { s with env := { s.env with stageCall := none } } := by
  simp [step, fetch, hd]

/-! What a completion leaves, for the command word in flight (40 R154). -/

theorem unlessFatal_clear {s : State} (h : s.status.fatal = false) (t : State) : unlessFatal s t = t :=
  if_neg (ne_true_of_eq_false h)

theorem unlessFatal_set {s : State} (h : s.status.fatal = true) (t : State) :
    unlessFatal s t = complete .faulted none s :=
  if_pos h

theorem completed_success (t : Status) {code : ResultCode} (h : code.isError = false) :
    t.completed code = { t with result := code, done := true } := by
  simp [Status.completed, h]

theorem completed_error (t : Status) {code : ResultCode} (h : code.isError = true) :
    t.completed code = { t with result := code, done := true, err := true } := by
  simp [Status.completed, h]

/-- OK and OK_BYPASSED leave ERR as it is. -/
theorem complete_success {s : State} {w : Word} (hp : s.pending = some w) {code : ResultCode}
    (h : code.isError = false) :
    complete code none s = { s with
      status := { s.status with result := code, done := true }, lastCmd := w, pending := none
      abortRange := Range.empty } := by
  rw [complete_eq none s (by rintro rfl; cases h), hp, completed_success _ h, Option.getD_some]

/-- Every other code sets it. -/
theorem complete_error {s : State} {w : Word} (hp : s.pending = some w) {code : ResultCode}
    (info : Option (Stage × Nat)) (h : code.isError = true) (hn : code ≠ .nonfiniteCoef) :
    complete code info s = { s with
      status := { s.status with result := code, done := true, err := true }, lastCmd := w, pending := none
      abortRange := Range.empty } := by
  rw [complete_eq info s hn, hp, completed_error _ h, Option.getD_some]

theorem isError_eq_false {code : ResultCode} : code.isError = false ↔ code = .ok ∨ code = .okBypassed := by
  cases code <;> simp [ResultCode.isError]

/-! The bodies of the commands, path by path (40 R160 to R178). -/

theorem fsValid_iff {fs : Word} : fsValid fs = true ↔ F32.isFinite fs = true ∧ F32.lt 0#32 fs = true := by
  rw [fsValid, Bool.and_eq_true]

theorem maxbValid_iff {mb : Word} : maxbValid mb = true ↔ 1 ≤ mb.toNat ∧ mb.toNat ≤ 4096 := by
  simp only [maxbValid, Bool.and_eq_true, decide_eq_true_eq]

theorem nchValid_iff {nc : Word} : nchValid nc = true ↔ nc = 1#32 ∨ nc = 2#32 := by
  simp only [nchValid, Bool.or_eq_true, beq_iff_eq]

section
variable {s : State}

theorem prepare_badFs (hfs : ¬ fsValid s.specFs = true) : prepare s = failPrepare .badFs s := by
  simp [prepare, hfs]

theorem prepare_badMaxb (hfs : fsValid s.specFs = true) (hmb : ¬ maxbValid s.specMaxb = true) :
    prepare s = failPrepare .badMaxb s := by
  simp [prepare, hfs, hmb]

theorem prepare_badNch (hfs : fsValid s.specFs = true) (hmb : maxbValid s.specMaxb = true)
    (hnc : ¬ nchValid s.specNch = true) : prepare s = failPrepare .badNch s := by
  simp [prepare, hfs, hmb, hnc]

theorem prepare_ok {rows : CoefFile} (hfs : fsValid s.specFs = true) (hmb : maxbValid s.specMaxb = true)
    (hnc : nchValid s.specNch = true) (hr : s.resolve s.specFs = .ok rows) :
    prepare s = complete .ok none (commitPrepare rows s) := by
  simp [prepare, hfs, hmb, hnc, hr]

theorem prepare_nonfinite {f : Stage × Nat} (hfs : fsValid s.specFs = true) (hmb : maxbValid s.specMaxb = true)
    (hnc : nchValid s.specNch = true) (hr : s.resolve s.specFs = .error f) :
    prepare s = complete .nonfiniteCoef (some f) s := by
  simp [prepare, hfs, hmb, hnc, hr]

theorem processBody_notPrepared (h : s.status.prepared = false) (len : BitVec 16) :
    processBody len s = complete .notPrepared none s := by
  simp [processBody, h]

theorem processBody_badLen {len : BitVec 16} (h : s.status.prepared = true) (hlen : s.activeMaxb.toNat < len.toNat) :
    processBody len s = complete .badLen none s := by
  simp [processBody, h, hlen]

theorem processBody_bypassed {len : BitVec 16} (h : s.status.prepared = true) (hlen : len.toNat ≤ s.activeMaxb.toNat)
    (hb : s.snapBypass = true) : processBody len s = complete .okBypassed none (countBlock true s) := by
  simp [processBody, h, Nat.not_lt.2 hlen, hb]

theorem transformBlock_ok (len : BitVec 16) {rows : CoefFile} (hr : s.resolve s.activeFs = .ok rows) :
    transformBlock len s =
      complete .ok none (countBlock false (processBlock rows s.activeNch len { s with coef := rows })) := by
  unfold transformBlock
  rw [hr]

theorem processBody_transforms {len : BitVec 16} (h : s.status.prepared = true)
    (hlen : len.toNat ≤ s.activeMaxb.toNat) (hb : s.snapBypass = false) : processBody len s = transformBlock len s := by
  simp [processBody, h, Nat.not_lt.2 hlen, hb]

theorem resolveBody_notPrepared (h : s.status.prepared = false) : resolveBody s = complete .notPrepared none s := by
  simp [resolveBody, h]

theorem resolveBody_ok {rows : CoefFile} (h : s.status.prepared = true) (hr : s.resolve s.activeFs = .ok rows) :
    resolveBody s = complete .ok none { s with coef := rows } := by
  simp [resolveBody, h, hr]

/-! The command instructions with FATAL clear (40 R152). -/

theorem exec_prepare (h : s.status.fatal = false) : exec .prepare s = .next (prepare s) :=
  congrArg _ (unlessFatal_clear h _)

theorem exec_process (h : s.status.fatal = false) (len : BitVec 16) :
    exec (.process len) s = .next (processBody len s) :=
  congrArg _ (unlessFatal_clear h _)

theorem exec_resolve (h : s.status.fatal = false) : exec .resolve s = .next (resolveBody s) :=
  congrArg _ (unlessFatal_clear h _)

theorem exec_nop (h : s.status.fatal = false) : exec .nop s = .next (complete .ok none s) :=
  congrArg _ (unlessFatal_clear h _)

theorem exec_clearState (h : s.status.fatal = false) :
    exec .clearState s = .next (complete .ok none { s with filter0 := zeroFilter, filter1 := zeroFilter }) :=
  congrArg _ (unlessFatal_clear h _)

theorem failPrepare_eq {w : Word} (hp : s.pending = some w) {code : ResultCode} (h : code.isError = true)
    (hn : code ≠ .nonfiniteCoef) :
    failPrepare code s = { s with
      status := { s.status with prepared := false, result := code, done := true, err := true }
      lastCmd := w, pending := none, abortRange := Range.empty } :=
  complete_error (s := { s with status := { s.status with prepared := false } }) hp none h hn

end

/-! The transform path and the chain (40 R172, R173). -/

/-- A block of a valid ACTIVE_MAXB is not cut (40 R162). -/
theorem blockLen_of_le {len : BitVec 16} {mb : Word} (hmb : maxbValid mb = true) (hlen : len.toNat ≤ mb.toNat) :
    blockLen len = len.toNat :=
  Nat.min_eq_left (hlen.trans (maxbValid_iff.1 hmb).2)

/-- The chain, stage after stage in the order of 10 R59. -/
theorem chain_eq (coef : CoefFile) (f : FilterFile) (x : Word) :
    chain coef f x =
      let hpf := stageStep .foHp coef.hpf f.hpf x
      let aaf := stageStep .bqLp coef.aaf f.aaf hpf.1
      let peak := stageStep .bqPeak coef.peak f.peak aaf.1
      let notch := stageStep .bqNotch coef.notch f.notch peak.1
      let gainNi := stageStep .gainNi coef.gainNi f.gainNi notch.1
      let gainInv := stageStep .gainInv coef.gainInv f.gainInv gainNi.1
      let shaper := stageStep .shaper coef.shaper f.shaper gainInv.1
      let pclp := stageStep .bqLp coef.pclp f.pclp shaper.1
      let tone := stageStep .bqLp coef.tone f.tone pclp.1
      let ptlp := stageStep .foLp coef.ptlp f.ptlp tone.1
      let vol := stageStep .gainVol coef.vol f.vol ptlp.1
      (vol.1, ⟨hpf.2, aaf.2, peak.2, notch.2, gainNi.2, gainInv.2, shaper.2, pclp.2, tone.2, ptlp.2, vol.2⟩) := rfl

/-! The per-stage files (10 R60, R66). -/

theorem PerStage.set_get_self {α : Type} (p : PerStage α) (st : Stage) : p.set st (p.get st) = p := by
  cases st <;> rfl

theorem PerStage.set_set {α : Type} (p : PerStage α) (st : Stage) (v w : α) : (p.set st v).set st w = p.set st w := by
  cases st <;> rfl

/-- Entries of two stages can be written in either order. -/
theorem PerStage.set_comm {α : Type} (p : PerStage α) {st su : Stage} (v w : α) (h : st ≠ su) :
    (p.set st v).set su w = (p.set su w).set st v := by
  apply PerStage.ext_get
  intro sx
  simp only [stage_get_set]
  by_cases hu : sx = su
  · subst hu; simp [Ne.symm h]
  · simp [hu]

/-! The order of samples and stages (40 R174). -/

/-- A stage outside the list neither shows in the list's work nor is changed by it. -/
theorem chainOver_set {coef : CoefFile} {l : List Stage} {st : Stage} (h : st ∉ l) (f : FilterFile) (p : Pair)
    (x : Word) :
    chainOver coef l (f.set st p) x = ((chainOver coef l f x).1, (chainOver coef l f x).2.set st p) := by
  induction l generalizing f x with
  | nil => rfl
  | cons su l ih =>
    obtain ⟨hne, hl⟩ := List.ne_and_not_mem_of_not_mem_cons h
    simp only [chainOver, PerStage.get_set_ne f p hne, PerStage.set_comm f p _ hne, ih hl]

/-- Stage by stage over distinct stages, the first sample may go through all of them before the others. -/
theorem stageMajorOver_cons (coef : CoefFile) {l : List Stage} (hl : l.Nodup) (x : Word) (xs : List Word)
    (f : FilterFile) :
    stageMajorOver coef l (x :: xs) f =
      ((chainOver coef l f x).1 :: (stageMajorOver coef l xs (chainOver coef l f x).2).1,
        (stageMajorOver coef l xs (chainOver coef l f x).2).2) := by
  induction l generalizing x xs f with
  | nil => rfl
  | cons st l ih =>
    obtain ⟨hst, hl⟩ := List.nodup_cons.1 hl
    simp only [stageMajorOver, stageBlock, chainOver, ih hl, chainOver_set hst, PerStage.get_set_same, PerStage.set_set]

theorem stageMajorOver_nil (coef : CoefFile) (l : List Stage) (f : FilterFile) :
    stageMajorOver coef l [] f = ([], f) := by
  induction l generalizing f with
  | nil => rfl
  | cons st l ih => simp only [stageMajorOver, stageBlock, PerStage.set_get_self, ih]

theorem sampleMajor_eq_stageMajor (coef : CoefFile) (xs : List Word) (f : FilterFile) :
    sampleMajor coef xs f = stageMajor coef xs f := by
  induction xs generalizing f with
  | nil => exact (stageMajorOver_nil coef Stage.all f).symm
  | cons x xs ih => rw [sampleMajor, stageMajor, stageMajorOver_cons coef (by decide), ih]; rfl

/-! The order of the channels (40 R174). -/

theorem byteOf_wordOf (b : Nat → Byte) {i : Nat} (h : i < 4) : byteOf (wordOf (b 0) (b 1) (b 2) (b 3)) i = b i := by
  apply BitVec.eq_of_getLsbD_eq
  intro j hj
  match i, h with
  | 0, _ | 1, _ | 2, _ | 3, _ =>
    simp only [byteOf, wordOf, BitVec.getLsbD_extractLsb', BitVec.getLsbD_append, hj]
    grind

/-- The bytes of a buffer word are its own (20 R90). -/
theorem bufByte_eq_byteOf (s : State) (c : Chan) (n : Nat) {i : Nat} (h : i < 4) :
    s.bufByte (bufAddr c n + i) = byteOf (s.bufWord c n) i :=
  (byteOf_wordOf (fun k => s.bufByte (bufAddr c n + k)) h).symm

/-- There are two channels (20 R97). -/
theorem Chan.eq_of_ne {c d e : Chan} (hcd : c ≠ d) (he : e ≠ c) : e = d := by
  cases c <;> cases d <;> cases e <;> first | rfl | contradiction

/-- Both channels, one after the other, whichever comes first: each has the samples and the state of the chain sample by
sample, and every other byte stays. -/
theorem processChan_both (coef : CoefFile) {len : Nat} (hl : len ≤ 4096) (s : State) {c d : Chan} (hcd : c ≠ d) :
    let t := processChan coef len (processChan coef len s c) d
    (∀ e : Chan, (t.block e len, t.filter e) = sampleMajor coef (s.block e len) (s.filter e)) ∧
    ∀ a, (∀ e : Chan, ∀ n, n < len → a < bufAddr e n ∨ bufAddr e n + 3 < a) → t.bufByte a = s.bufByte a := by
  obtain ⟨hfirst, hfilter, hbyte, hword⟩ := processChan_spec coef len s c hl
  obtain ⟨hsecond, hfilter', hbyte', hword'⟩ := processChan_spec coef len (processChan coef len s c) d hl
  refine ⟨fun e => ?_, fun a ha => (hbyte' a (ha d)).trans (hbyte a (ha c))⟩
  by_cases he : e = c
  · subst he
    rw [hfirst, hfilter' e hcd, block_congr hl (fun n hn => hword' e n hn (.inl hcd))]
  · obtain rfl : e = d := Chan.eq_of_ne hcd he
    rw [← hsecond, hfilter e he, block_congr hl (fun n hn => hword e n hn (.inl he))]

theorem bufWord_eq_of_block {s t : State} {c : Chan} {len : Nat} (h : t.block c len = s.block c len) {n : Nat}
    (hn : n < len) : t.bufWord c n = s.bufWord c n :=
  List.map_inj_left.1 h n (List.mem_range.2 hn)

/-- The channels' passes commute (40 R174). -/
theorem processChan_comm (coef : CoefFile) {len : Nat} (hl : len ≤ 4096) (s : State) {c d : Chan} (hcd : c ≠ d) :
    let t := processChan coef len (processChan coef len s c) d
    let u := processChan coef len (processChan coef len s d) c
    (∀ e, t.filter e = u.filter e) ∧ ∀ a, t.bufByte a = u.bufByte a := by
  intro t u
  obtain ⟨htBlocks, htBytes⟩ := processChan_both coef hl s hcd
  obtain ⟨huBlocks, huBytes⟩ := processChan_both coef hl s hcd.symm
  have both : ∀ e, (t.block e len, t.filter e) = (u.block e len, u.filter e) :=
    fun e => (htBlocks e).trans (huBlocks e).symm
  refine ⟨fun e => congrArg Prod.snd (both e), fun a => ?_⟩
  by_cases ha : ∃ e n, n < len ∧ bufAddr e n ≤ a ∧ a ≤ bufAddr e n + 3
  · obtain ⟨e, n, hn, h0, h3⟩ := ha
    obtain ⟨i, rfl⟩ := Nat.exists_eq_add_of_le h0
    have hi : i < 4 := by omega
    rw [bufByte_eq_byteOf t e n hi, bufByte_eq_byteOf u e n hi, bufWord_eq_of_block (congrArg Prod.fst (both e)) hn]
  · have outside : ∀ e n, n < len → a < bufAddr e n ∨ bufAddr e n + 3 < a := by
      intro e n hn
      by_contra hin
      exact ha ⟨e, n, hn, by omega, by omega⟩
    exact (htBytes a outside).trans (huBytes a outside).symm

end Sys2Proof.Machine

namespace Sys2Proof.Proofs

open Sys2Proof Sys2Proof.Machine

/-- Settles O9: READ is delivered or rejected; what stands at each offset is read off the map of the window. -/
theorem readDeliversTheWord : Obligations.ReadDeliversTheWord := by
  unfold Obligations.ReadDeliversTheWord
  refine ⟨fun s off ha => ?read, fun s => ⟨readReg_registerMap s, readReg_paramMap s, fun k row hrow i hi => ?coef,
    fun k p hp => readReg_state s .ch0 hp, fun k p hp => readReg_state s .ch1 hp,
    fun n hn => ⟨?buf0, ?buf1⟩⟩⟩
  case read =>
    by_cases h : 0x8000 ≤ off.toNat ∧ s.busy = true
    · rw [if_pos h, exec_read_rejected h.1 h.2]
      rfl
    · have hok : s.busy = false ∨ off.toNat < 0x8000 := by
        cases hb : s.busy
        · exact .inl rfl
        · exact .inr (by by_contra hge; exact h ⟨by omega, hb⟩)
      rw [if_neg h, exec_read_delivers ha hok]
      rfl
  case coef =>
    obtain ⟨st, hk, rfl⟩ := stage_of_inStageOrder hrow
    rw [rowWords_getElem? _ hi]
    exact congrArg some (congrArg s.readReg (regAt_coef hk hi)).symm
  case buf0 =>
    rw [show 0x8000 + 4 * n = bufAddr .ch0 n by simp [bufAddr, Chan.idx]]
    exact readReg_bufAddr s .ch0 hn
  case buf1 => exact readReg_bufAddr s .ch1 hn

/-- Settles O10: the word written is the word read, and no byte outside it changes. -/
theorem writeBufStoresOneWord : Obligations.WriteBufStoresOneWord := by
  unfold Obligations.WriteBufStoresOneWord
  intro s c n v
  exact ⟨fun hb => congrArg _ (unlessBusy_busy hb _), fun hb => ⟨_, exec_writeBuf_idle c n v hb,
    bufWord_setBuf_same s c n.toNat v, bufByte_setBuf_out s c n.toNat v, rfl⟩⟩

/-- Settles O11: the three controls store the clamp, which is written out by `ctlClamp_eq`. -/
theorem setControlsStoreTheClampedValue : Obligations.SetControlsStoreTheClampedValue := by
  unfold Obligations.SetControlsStoreTheClampedValue
  intro s w c
  have hc : ctlClamp w = c := ctlClamp_eq w
  simp only [exec, execSetGain, execSetTone, execSetVolume, hc, true_and]
  exact ⟨rfl, boolWord_bit0 w⟩

/-- Settles O12: each SPEC write is the shared `unlessBusy`, whose two branches are the statement's. -/
theorem setSpecStoresUnlessBusy : Obligations.SetSpecStoresUnlessBusy := by
  unfold Obligations.SetSpecStoresUnlessBusy
  intro s w r
  have stores : ∀ t, unlessBusy s t = if s.pending.isSome then r else t := fun _ => rfl
  exact ⟨congrArg Host.Outcome.next (stores _), congrArg Host.Outcome.next (stores _),
    congrArg Host.Outcome.next (stores _)⟩

/-- Settles O13: all 34 operations are one `writeParam`, so the parameter file's write laws decide. -/
theorem setParamStoresItsRegister : Obligations.SetParamStoresItsRegister := by
  unfold Obligations.SetParamStoresItsRegister
  intro s p w
  rw [exec_setParam, writeParam]
  refine ⟨fun hb => congrArg _ (unlessBusy_busy hb _), fun hb => ?_⟩
  rw [unlessBusy_idle hb]
  exact ⟨_, rfl, rfl, fun q hq => Params.get_set_ne s.params w hq, Params.get_set_same s.params p w⟩

/-- Settles O14: bit 0 decides between the two writes of CTRL. -/
theorem writeCtrlResetsOrSetsIrqEn : Obligations.WriteCtrlResetsOrSetsIrqEn := by
  unfold Obligations.WriteCtrlResetsOrSetsIrqEn
  intro s w
  exact ⟨fun h => ⟨exec_writeCtrl_resets h s, rfl⟩, fun h => ⟨exec_writeCtrl_setsIrqEn h s, bitAt_getLsbD w 1⟩⟩

/-- Settles O15: the layout of STATUS bit by bit; CLEAR_STATUS in the same layout. -/
theorem clearStatusClearsBits3To6 : Obligations.ClearStatusClearsBits3To6 := by
  unfold Obligations.ClearStatusClearsBits3To6
  refine ⟨fun s w => ⟨_, rfl, rfl, statusWord_clear s w, rfl⟩, fun s => ?layout, by decide, fun c => ?code⟩
  case layout =>
    refine ⟨?_, ?_, ?_, ?_, ?_, ?_, ?_, ?_, statusWord_result s⟩
    all_goals exact (statusWord_getLsbD s (by decide)).trans (by simp [State.busy])
  case code => exact ⟨c.code, by cases c <;> decide⟩

/-- Settles O17: the snapshot is taken for the words of `snapshots_eq`, and `abortRange` is the range of the state
that has it. -/
theorem acceptanceTakesTheSnapshot : Obligations.AcceptanceTakesTheSnapshot := by
  unfold Obligations.AcceptanceTakesTheSnapshot
  intro s w rest hp snap
  have hidle : s.busy = false := by rw [State.busy, hp]; rfl
  have hsnap : (!(s.given rest).status.fatal && snapshots w) = snap := by rw [snapshots_eq]; rfl
  rw [step_writeCmd, writeCmd_idle w (s := s.given rest) hidle, accept_eq, rangeAt_snapshotted, snapshotted_eq hsnap,
    toNat_shiftRight_eq_cmdLen]
  rfl

/-- Settles O18: CMD while BUSY takes the OVERRUN branch. -/
theorem overrunDiscardsTheWord : Obligations.OverrunDiscardsTheWord := by
  unfold Obligations.OverrunDiscardsTheWord
  intro s w rest hb
  rw [step_writeCmd, writeCmd_busy w (s := s.given rest) hb]
  rfl

/-- Settles O19: a completion with each code; ERR stays exactly for OK and OK_BYPASSED. -/
theorem completeWritesTheResult : Obligations.CompleteWritesTheResult := by
  unfold Obligations.CompleteWritesTheResult
  intro s w code info hp
  refine ⟨fun hn => ?_, fun st i => ?_⟩
  · rw [complete_eq info s hn, hp]
    by_cases hok : code = .ok ∨ code = .okBypassed
    · rw [completed_success _ (isError_eq_false.2 hok), if_pos hok, Option.getD_some]
    · rw [completed_error _ (eq_true_of_ne_false (mt isError_eq_false.1 hok)), if_neg hok, Option.getD_some]
  · rw [complete_nonfinite, hp, Bool.or_true, Option.getD_some]
    rfl

/-- Settles O30: with the checks passed PREPARE commits and completes with OK. -/
theorem prepareLatchesTheSpec : Obligations.PrepareLatchesTheSpec := by
  unfold Obligations.PrepareLatchesTheSpec
  intro s w rows hp hf hfin hpos hlo hhi hnc hr
  have hbody := prepare_ok (fsValid_iff.2 ⟨hfin, hpos⟩) (maxbValid_iff.2 ⟨hlo, hhi⟩) (nchValid_iff.2 hnc) hr
  have hdone := complete_success (s := commitPrepare rows s) hp (code := .ok) rfl
  refine ⟨_, (exec_prepare hf).trans (congrArg _ (hbody.trans hdone)), fun c st => ?_, rfl⟩
  cases c <;> exact zeroFilter_get st

/-- Settles O31: the checks in their order; past them the resolve decides. -/
theorem prepareReportsConfigurationErrors : Obligations.PrepareReportsConfigurationErrors := by
  unfold Obligations.PrepareReportsConfigurationErrors
  intro s w hp hf bad
  rw [exec_prepare hf]
  refine ⟨fun hfs => ?fs, fun hfin hpos hmb => ?maxb, fun hfin hpos hlo hhi h1 h2 => ?nch,
    fun hfin hpos hlo hhi hnc => ?valid⟩
  case fs =>
    rw [prepare_badFs (mt fsValid_iff.1 hfs), failPrepare_eq hp rfl (by simp)]
  case maxb =>
    have hbad : ¬ maxbValid s.specMaxb = true := by rw [maxbValid_iff]; omega
    rw [prepare_badMaxb (fsValid_iff.2 ⟨hfin, hpos⟩) hbad, failPrepare_eq hp rfl (by simp)]
  case nch =>
    have hbad : ¬ nchValid s.specNch = true := by rw [nchValid_iff]; exact not_or.2 ⟨h1, h2⟩
    rw [prepare_badNch (fsValid_iff.2 ⟨hfin, hpos⟩) (maxbValid_iff.2 ⟨hlo, hhi⟩) hbad, failPrepare_eq hp rfl (by simp)]
  case valid =>
    have hfs := fsValid_iff.2 ⟨hfin, hpos⟩
    have hmb := maxbValid_iff.2 ⟨hlo, hhi⟩
    refine ⟨_, rfl, ?_⟩
    cases hr : s.resolve s.specFs with
    | error f => exact .inr (by rw [prepare_nonfinite hfs hmb (nchValid_iff.2 hnc) hr, complete_result])
    | ok rows => exact .inl (by rw [prepare_ok hfs hmb (nchValid_iff.2 hnc) hr, complete_result])

/-- Settles O33: the three paths of PROCESS before the transform. -/
theorem processWithoutTransformLeavesTheBlock : Obligations.ProcessWithoutTransformLeavesTheBlock := by
  unfold Obligations.ProcessWithoutTransformLeavesTheBlock
  intro s w len hp hf
  rw [exec_process hf]
  refine ⟨fun h => ?_, fun h hlen => ?_, fun h hlen hb => ?_⟩
  · rw [processBody_notPrepared h, complete_error hp none rfl (by simp)]
  · rw [processBody_badLen h hlen, complete_error hp none rfl (by simp)]
  · rw [processBody_bypassed h hlen hb, complete_success (s := countBlock true s) hp rfl]
    rfl

/-- Settles O34: the block by the law of the two loops, the chain stage by stage, and a stage operation by its
decoding. -/
theorem processTransformsTheBlock : Obligations.ProcessTransformsTheBlock := by
  unfold Obligations.ProcessTransformsTheBlock
  refine ⟨fun s w len rows hp hf hprep hmb hlen hb hr => ?_, chain_eq, fun s c st x => ?stage⟩
  case stage =>
    refine ⟨_, decode_stageKind_iff.2 ⟨rfl, rfl⟩, ?_⟩
    rw [exec_stageInstr]
    cases c <;> rfl
  obtain ⟨hactive, hinactive, hbytes⟩ := processBlock_spec rows s.activeNch len { s with coef := rows }
  obtain ⟨f0, f1, m, hframe⟩ := processBlock_frame rows s.activeNch len { s with coef := rows }
  have hbody := (processBody_transforms hprep hlen hb).trans (transformBlock_ok len hr)
  rw [blockLen_of_le hmb hlen, hframe] at hactive hbytes
  rw [hframe] at hinactive hbody
  have hdone := complete_success (s := countBlock false (State.withBlock { s with coef := rows } f0 f1 m)) hp
    (code := .ok) rfl
  exact ⟨_, (exec_process hf len).trans (congrArg _ (hbody.trans hdone)), hactive, hinactive, hbytes, rfl⟩

/-- Settles O35: the two paths of RESOLVE before a resolve that fails. -/
theorem resolveWritesTheCoefficients : Obligations.ResolveWritesTheCoefficients := by
  unfold Obligations.ResolveWritesTheCoefficients
  intro s w rows hp hf
  rw [exec_resolve hf]
  refine ⟨fun h hr => ?_, fun h => ?_⟩
  · rw [resolveBody_ok h hr, complete_success (s := { s with coef := rows }) hp rfl]
  · rw [resolveBody_notPrepared h, complete_error hp none rfl (by simp)]

/-- Settles O36: both commands complete with OK, and with FATAL set both are the FAULTED completion. -/
theorem nopAndClearStateCompleteWithOk : Obligations.NopAndClearStateCompleteWithOk := by
  unfold Obligations.NopAndClearStateCompleteWithOk
  intro s w hp
  refine ⟨fun hf => ⟨?nop, ?clearState⟩, fun hf => ?fatal⟩
  case nop => exact (exec_nop hf).trans (congrArg _ (complete_success hp rfl))
  case clearState =>
    have hdone := complete_success (s := { s with filter0 := zeroFilter, filter1 := zeroFilter }) hp (code := .ok) rfl
    refine ⟨_, (exec_clearState hf).trans (congrArg _ hdone), fun c st => ?_, rfl⟩
    cases c <;> exact zeroFilter_get st
  case fatal =>
    have faulted : complete .faulted none s = _ := complete_error hp none rfl (by simp)
    simp only [List.forall_mem_cons, List.not_mem_nil, false_implies, implies_true, and_true]
    exact ⟨congrArg _ ((unlessFatal_set hf _).trans faulted), congrArg _ ((unlessFatal_set hf _).trans faulted)⟩

/-- Settles O40: the exchange of samples and stages, by induction on the stages, and the passes of the two channels. -/
theorem loopOrderIsNotObservable : Obligations.LoopOrderIsNotObservable := by
  unfold Obligations.LoopOrderIsNotObservable
  refine ⟨sampleMajor_eq_stageMajor, fun coef len s => ?_⟩
  obtain ⟨hfilter, hbyte⟩ :=
    processChan_comm coef (Nat.min_le_right len.toNat 4096) s (c := .ch0) (d := .ch1) (by decide)
  exact ⟨hfilter .ch0, hfilter .ch1, hbyte⟩

/-- Settles O58: each kind of event fetches the instruction that its code decodes to. -/
theorem stepRunsTheDecodedInstruction : Obligations.StepRunsTheDecodedInstruction := by
  unfold Obligations.StepRunsTheDecodedInstruction
  intro s i rest
  refine ⟨fun w hp hd => ⟨step_complete_runs hp hd rest, step_last_runs hp hd⟩,
    fun off v hd => ⟨step_write hd s rest, ?physicalWrite⟩, fun off v hd => ?read,
    fun call hd => step_stageCall hd s⟩
  case physicalWrite => rw [step_physical, step_write hd]
  case read =>
    obtain ⟨ha, rfl⟩ := decode_hostRead_iff.1 hd
    exact ⟨step_runs_read ha v s rest, by rw [step_physical, step_runs_read ha]⟩

end Sys2Proof.Proofs
end

section
/-! PROOFS. The statements of spec/41_parameter_resolver.md: the rows of a resolve, the non-finite check, and what writes
the coefficient file. -/

namespace Sys2Proof.Machine.F32

/-! Sums that cancel, and products with a value that is not negative (00 R7, R9). -/

/-- A finite value and its negation cancel to +0.0 (00 R9). -/
theorem add_neg_self {x : Word} (h : isFinite x = true) : add x (neg x) = 0#32 := by
  have hsum : toInt x + toInt (neg x) = 0 := by rw [toInt_neg]; omega
  have hsign : (sign x && sign (neg x)) = false := by rw [sign_neg]; cases sign x <;> rfl
  rw [add_finite h (by rwa [isFinite_neg]), addFinite]
  simp only [hsum, if_true, hsign]
  rfl

/-- A product is at least the product of the lower bounds of its factors. -/
theorem le_mag_mul {x y : Word} {a b c : Nat} (hx : isFinite x = true) (hy : isFinite y = true) (ha : a ≤ mag x)
    (hb : b ≤ mag y) (hi : c ≤ infMag) (hc : unitsOf c * 2 ^ 149 ≤ unitsOf a * unitsOf b) : c ≤ mag (mul x y) := by
  rw [mul_finite hx hy]
  exact le_mag_ofRatio _ (Nat.two_pow_pos 149) hi (Nat.le_trans hc (Nat.mul_le_mul (le_units ha) (le_units hb)))

/-- The key of a finite product with a zero. -/
theorem key_mul_zero {m x : Word} (hm : isFinite m = true) (hx : isFinite x = true) (h0 : mag m = 0) :
    key (mul m x) = 0 := by
  have hround : roundMag 0 (2 ^ 149) = 0 := by decide +kernel
  rw [mul_finite hm hx, ofRatio, units_eq m, h0, unitsOf_zero, Nat.zero_mul, hround, key_pack]
  split <;> rfl

/-- Multiplication by a value that is not below zero, -0.0 among them, is monotone. -/
theorem key_mul_mono_of_nonneg {m x y : Word} (hm : isFinite m = true) (hx : isFinite x = true)
    (hy : isFinite y = true) (h0 : 0 ≤ key m) (h : key x ≤ key y) : key (mul m x) ≤ key (mul m y) := by
  rcases Int.lt_or_eq_of_le h0 with hpos | hzero
  · exact key_mul_mono hm hx hy (sign_of_key hpos).1 h
  · have hmag : mag m = 0 := by rw [← natAbs_key, ← hzero]; rfl
    rw [key_mul_zero hm hx hmag, key_mul_zero hm hy hmag]

/-- A finite value times one of at most 1.0 in magnitude is finite. -/
theorem isFinite_mul_of_le_one {m x : Word} (hm : isFinite m = true) (hx : mag x ≤ 0x3F800000) :
    isFinite (mul m x) = true := by
  have hone : unitsOf 0x3F800000 = 2 ^ 149 := by decide +kernel
  have hle : mag (mul m x) ≤ mag m :=
    mag_mul_le hm (isFinite_of_mag_le hx (by decide)) (Nat.le_refl _) hx
      (Nat.le_of_eq (by rw [hone, roundMag_exact _ _ (Nat.two_pow_pos 149)]))
  exact isFinite_of_mag_le hle (isFinite_iff.1 hm)

/-- A difference of finite values in order is not below zero. -/
theorem key_sub_nonneg {x y : Word} (hx : isFinite x = true) (hy : isFinite y = true) (h : key x ≤ key y) :
    0 ≤ key (sub y x) := by
  have hint := toInt_mono h
  have hzero : keyOfInt 0 = 0 := by decide +kernel
  rw [sub_finite hy hx, key_addFinite, toInt_neg, ← hzero]
  exact keyOfInt_mono (by omega)

/-- A clamp is monotone, also when the bounds cross (00 R15). -/
theorem clamp_mono {x y lo hi : Word} (hlo : isNaN lo = false) (hhi : isNaN hi = false) (h : le x y = true) :
    le (clamp x lo hi) (clamp y lo hi) = true := by
  obtain ⟨hx, hy, hk⟩ := le_iff.1 h
  obtain ⟨nx, kx⟩ := key_clamp hx hlo hhi
  obtain ⟨ny, ky⟩ := key_clamp hy hlo hhi
  exact le_iff.2 ⟨nx, ny, by omega⟩

/-- A clamp between positive finite bounds gives a positive finite value between them. -/
theorem clamp_pos_bounds {x lo hi : Word} (hx : isNaN x = false) (h0 : 0 < key lo) (h1 : key lo ≤ key hi)
    (hlo : isNaN lo = false) (hhi : isFinite hi = true) :
    isFinite (clamp x lo hi) = true ∧ sign (clamp x lo hi) = false ∧ mag lo ≤ mag (clamp x lo hi) ∧
    mag (clamp x lo hi) ≤ mag hi := by
  obtain ⟨-, hk⟩ := clamp_spec hx hlo (isNaN_of_isFinite hhi) h1
  obtain ⟨hsign, -⟩ := sign_of_key (x := clamp x lo hi) (by omega)
  have := natAbs_key (clamp x lo hi)
  have := natAbs_key lo
  have := natAbs_key hi
  have hle : mag (clamp x lo hi) ≤ mag hi := by omega
  exact ⟨isFinite_of_mag_le hle (isFinite_iff.1 hhi), hsign, by omega, hle⟩

/-- The order of a value that is not negative and a bound, from the bound on its magnitude. -/
theorem le_of_mag_le {x b : Word} (sx : sign x = false) (sb : sign b = false) (hb : isFinite b = true)
    (h : mag x ≤ mag b) : le 0#32 x = true ∧ le x b = true := by
  have nx := isNaN_of_isFinite (isFinite_of_mag_le h (isFinite_iff.1 hb))
  exact ⟨le_of_mag (by decide +kernel) nx (by decide +kernel) sx (by rw [show mag 0#32 = 0 by decide +kernel]; omega),
    le_of_mag nx (isNaN_of_isFinite hb) sx sb h⟩

end Sys2Proof.Machine.F32

namespace Sys2Proof.Machine

open F32

/-! The clamped inputs of a biquad row (41 R203). -/

theorem clampQ_bounds {x : Word} (hx : isNaN x = false) :
    isFinite (clampQ x) = true ∧ sign (clampQ x) = false ∧ 0x3D800000 ≤ mag (clampQ x) ∧
    mag (clampQ x) ≤ 0x42800000 :=
  clamp_pos_bounds (lo := Q_LO) (hi := Q_HI) hx (by decide +kernel) (by decide +kernel) (by decide +kernel)
    (by decide +kernel)

theorem clampPG_bounds {x : Word} (hx : isNaN x = false) :
    isFinite (clampPG x) = true ∧ sign (clampPG x) = false ∧ 0x3A800000 ≤ mag (clampPG x) ∧
    mag (clampPG x) ≤ 0x44800000 :=
  clamp_pos_bounds (lo := PG_LO) (hi := PG_HI) hx (by decide +kernel) (by decide +kernel) (by decide +kernel)
    (by decide +kernel)

/-- The divisor of `alpha` is finite and at least 2^-3 (41 R201). -/
theorem two_mul_clampQ_bounds {x : Word} (hx : isNaN x = false) :
    isFinite (mul TWO (clampQ x)) = true ∧ sign (mul TWO (clampQ x)) = false ∧
    0x3E000000 ≤ mag (mul TWO (clampQ x)) := by
  obtain ⟨hq, sq, hlo, hhi⟩ := clampQ_bounds hx
  have finite_two : isFinite TWO = true := by decide +kernel
  have sign_two : sign TWO = false := by decide +kernel
  have hle : mag (mul TWO (clampQ x)) ≤ 0x43000000 :=
    mag_mul_le finite_two hq (a := 0x40000000) (by decide +kernel) hhi (by decide +kernel)
  refine ⟨isFinite_of_mag_le hle (by decide), ?_, ?_⟩
  · rw [mul_finite finite_two hq, sign_ofRatio, sq, sign_two]; rfl
  · exact le_mag_mul finite_two hq (a := 0x40000000) (by decide +kernel) hlo (by decide) (by decide +kernel)

/-- The root of a clamped gain factor lies between 2^-5 and 2^5 (41 R206): the clamp's bounds are 4^-5 and 4^5. -/
theorem sqrt_clampPG_bounds {x : Word} (hx : isNaN x = false) :
    sign (sqrt (clampPG x)) = false ∧ 0x3D000000 ≤ mag (sqrt (clampPG x)) ∧ mag (sqrt (clampPG x)) ≤ 0x42000000 := by
  obtain ⟨hf, hs, hlo, hhi⟩ := clampPG_bounds hx
  refine sqrt_bounds (j := 121) (k := 131) hf hs (by omega) (by decide) ?_ ?_
  · exact Nat.le_trans (by decide +kernel) (Nat.mul_le_mul_right (2 ^ 149) (le_units hlo))
  · exact Nat.le_trans (Nat.mul_le_mul_right (2 ^ 149) (units_le hhi)) (by decide +kernel)

/-- The words the check reads of a biquad row are its first five (41 R246). -/
theorem mem_biquad_indices {i : Nat} (h : i < 5) : i ∈ [0, 1, 2, 3, 4] := List.mem_range.2 h

/-! The first-order rows (41 R212). -/

/-- The prewarped constant of a clamped cutoff is finite and positive (41 R202). -/
theorem warp_clampF {fs x : Word} (hf : isFinite fs = true) (h1 : le ONE fs = true) (hx : isNaN x = false) :
    isFinite (warp fs (clampF fs x)) = true ∧ sign (warp fs (clampF fs x)) = false := by
  obtain ⟨hlt, hle⟩ := warp_angle_bounds hf h1 hx
  obtain ⟨hs, -, hk⟩ := tan32_bounds hlt hle
  exact ⟨hk, hs⟩

/-- The pole word of a first-order row is at most 1.0 in magnitude (41 R212). -/
theorem abs_pole_le_one {k : Word} (hk : isFinite k = true) (sk : sign k = false) :
    le (abs (div (sub k ONE) (add k ONE))) ONE = true := by
  obtain ⟨hden, hlo, -, hnum, hle⟩ := warp_bounds hk sk
  have hm := mag_div_le_one hnum hden (by omega) hle
  exact (le_of_mag_le (by simp) (by decide +kernel) (by decide +kernel) (by rw [mag_abs]; exact hm)).2

/-! The TONE cutoff (41 R235). -/

/-- The tenth of a legal control is at most 1.0 in magnitude (10 R51). -/
theorem mag_tenth_le {w : Word} (h : legalControl w = true) : mag (div w TEN) ≤ 0x3F800000 := by
  obtain ⟨h0, h1⟩ := tenth_range h
  have key_zero : key 0#32 = 0 := by decide +kernel
  have key_one : key ONE = 0x3F800000 := by decide +kernel
  have hlo := (le_iff.1 h0).2.2
  have hhi := (le_iff.1 h1).2.2
  have := natAbs_key (div w TEN)
  omega

/-- The tenths of legal controls keep their order (10 R51). -/
theorem key_tenth_mono {c c' : Word} (hc : legalControl c = true) (hc' : legalControl c' = true)
    (h : le c c' = true) : key (div c TEN) ≤ key (div c' TEN) :=
  key_div_mono (by decide +kernel) (isFinite_of_legal hc) (isFinite_of_legal hc') (by decide +kernel)
    (by decide +kernel) (le_iff.1 h).2.2

/-- F_HI of a finite sample rate is no NaN (41 R200). -/
theorem isNaN_fHi {fs : Word} (h : isFinite fs = true) : isNaN (fHi fs) = false := by
  rw [fHi, mul_finite h (by decide +kernel)]
  exact isNaN_ofRatio _ _ _

theorem clampF_mono {fs x y : Word} (hf : isFinite fs = true) (h : le x y = true) :
    le (clampF fs x) (clampF fs y) = true :=
  clamp_mono (by decide +kernel) (isNaN_fHi hf) h

/-- The cutoff before its clamp, `lo ⊕ (d ⊗ t)`, is monotone in `t` up to 1.0 where `d` is not below zero (41 R220). -/
theorem le_scaled_offset {lo d t t' : Word} (hlo : isFinite lo = true) (hd : isFinite d = true) (h0 : 0 ≤ key d)
    (ht : mag t ≤ 0x3F800000) (ht' : mag t' ≤ 0x3F800000) (h : key t ≤ key t') :
    le (add lo (mul d t)) (add lo (mul d t')) = true := by
  have ft := isFinite_of_mag_le ht (by decide)
  have ft' := isFinite_of_mag_le ht' (by decide)
  have hm := isFinite_mul_of_le_one hd ht
  have hm' := isFinite_mul_of_le_one hd ht'
  have notNaN : ∀ {y : Word}, isFinite y = true → isNaN (add lo y) = false := fun hy => by
    rw [add_finite hlo hy]; exact isNaN_addFinite _ _
  exact le_iff.2 ⟨notNaN hm, notNaN hm', key_add_mono hm hm' hlo (key_mul_mono_of_nonneg hd ft ft' h0 h)⟩

/-! The non-finite check (41 R245, R246). -/

/-- The order of the check: increasing stage, then increasing word (41 R245). -/
def CheckedBefore (a b : Stage × Nat) : Prop := a.1.idx < b.1.idx ∨ (a.1 = b.1 ∧ a.2 < b.2)

theorem CheckedBefore.asymm {a b : Stage × Nat} (h : CheckedBefore a b) : ¬ CheckedBefore b a := by
  obtain hab | ⟨hab, hij⟩ := h
  · rintro (hba | ⟨hba, -⟩)
    · omega
    · rw [hba] at hab; omega
  · rintro (hba | ⟨-, hji⟩)
    · rw [hab] at hba; omega
    · omega

theorem checkedWords_pairwise : checkedWords.Pairwise CheckedBefore := by
  unfold CheckedBefore
  decide +kernel

theorem mem_checkedWords {st : Stage} {i : Nat} : (st, i) ∈ checkedWords ↔ i ∈ checkedIndices st.kind := by
  have hall : st ∈ Stage.all := by cases st <;> decide
  simp only [checkedWords, List.mem_flatMap, List.mem_map, Prod.mk.injEq]
  constructor
  · rintro ⟨st', -, j, hj, rfl, rfl⟩
    exact hj
  · exact fun hi => ⟨st, hall, i, hi, rfl, rfl⟩

/-- What a search of a list finds, when the list is in an order: the one that satisfies the test and has none before it
that does. -/
theorem find?_eq_some_iff_of_pairwise {α : Type} {r : α → α → Prop} (asymm : ∀ {x y}, r x y → ¬ r y x)
    {p : α → Bool} {l : List α} (hl : l.Pairwise r) {a : α} :
    l.find? p = some a ↔ a ∈ l ∧ p a = true ∧ ∀ b ∈ l, r b a → p b = false := by
  induction l with
  | nil => simp
  | cons x l ih =>
    obtain ⟨hx, hl⟩ := List.pairwise_cons.1 hl
    cases hp : p x with
    | true =>
      rw [List.find?_cons_of_pos hp]
      constructor
      · intro h
        obtain rfl : x = a := Option.some.inj h
        refine ⟨List.mem_cons_self, hp, fun b hb hr => ?_⟩
        obtain rfl | hb := List.mem_cons.1 hb
        · exact absurd hr (asymm hr)
        · exact absurd hr (asymm (hx b hb))
      · rintro ⟨ha, -, hfirst⟩
        obtain rfl | ha := List.mem_cons.1 ha
        · rfl
        · rw [hfirst x List.mem_cons_self (hx a ha)] at hp
          cases hp
    | false =>
      rw [List.find?_cons_of_neg (by simp [hp]), ih hl]
      constructor
      · rintro ⟨ha, hpa, hfirst⟩
        exact ⟨List.mem_cons_of_mem x ha, hpa, List.forall_mem_cons.2 ⟨fun _ => hp, hfirst⟩⟩
      · rintro ⟨ha, hpa, hfirst⟩
        have hne : a ≠ x := fun h => by rw [h, hp] at hpa; cases hpa
        exact ⟨(List.mem_cons.1 ha).resolve_left hne, hpa, (List.forall_mem_cons.1 hfirst).2⟩

theorem resolve_error_iff_firstNonfinite {sb : Bool} {p : Params} {g t v fs : Word} {f : Stage × Nat} :
    resolve sb p g t v fs = .error f ↔ firstNonfinite (resolveRows sb p g t v fs) = some f := by
  unfold resolve
  simp only
  cases firstNonfinite (resolveRows sb p g t v fs) with
  | none => exact iff_of_false nofun nofun
  | some f' => simp only [Except.error.injEq, Option.some.injEq]

/-- A row file fails the check at the first checked word that is not finite (41 R246). -/
theorem firstNonfinite_iff {rows : CoefFile} {st : Stage} {i : Nat} :
    firstNonfinite rows = some (st, i) ↔
      i ∈ checkedIndices st.kind ∧ isFinite ((rows.get st).get i) = false ∧
      ∀ st' : Stage, ∀ j ∈ checkedIndices st'.kind, (st'.idx < st.idx ∨ (st' = st ∧ j < i)) →
        isFinite ((rows.get st').get j) = true := by
  rw [firstNonfinite, find?_eq_some_iff_of_pairwise CheckedBefore.asymm checkedWords_pairwise, mem_checkedWords,
    Prod.forall]
  simp only [mem_checkedWords, CheckedBefore, Bool.not_eq_true', Bool.not_eq_false']

/-- A resolve succeeds exactly when every checked word of every stage is finite (41 R245, R247). -/
theorem resolve_ok_rows_iff {sb : Bool} {p : Params} {g t v fs : Word} :
    resolve sb p g t v fs = .ok (resolveRows sb p g t v fs) ↔
      ∀ st : Stage, ∀ j ∈ checkedIndices st.kind, isFinite (((resolveRows sb p g t v fs).get st).get j) = true := by
  simp only [resolve_ok_iff, true_and, Prod.forall, mem_checkedWords]

/-! What writes the coefficient file (41 R247, 10 R60). -/

@[simp] theorem processBlock_coef (coef : CoefFile) (nch : Word) (len : BitVec 16) (s : State) :
    (processBlock coef nch len s).coef = s.coef := by
  obtain ⟨f0, f1, m, h⟩ := processBlock_frame coef nch len s
  rw [h]
  rfl

/-- A completion writes the coefficient file in three ways only: a PREPARE, a PROCESS and a RESOLVE that complete with
OK. -/
theorem Completion.coef_cases {s t : State} {w : Word} (h : Completion s w t) :
    t.coef = s.coef ∨ t.status.result = .ok ∧ (w = 1#32 ∨ w.setWidth 16 = 2#16 ∨ w = 3#32) ∧
      s.resolve (if w = 1#32 then s.specFs else s.activeFs) = .ok t.coef := by
  cases h with
  | error code he hn e | badSpec code he hn e => subst e; exact .inl (complete_coef _ _ _)
  | nonfinite fs f hr e => subst e; exact .inl (complete_coef _ _ _)
  | nop hw e | bypass hw e | clear hw e => subst e; exact .inl (complete_coef _ _ _)
  | prepare rows hw hfs hmb hnc hr e =>
    subst e hw
    exact .inr ⟨rfl, .inl rfl, hr⟩
  | resolve rows hw hr e =>
    subst e hw
    exact .inr ⟨rfl, .inr (.inr rfl), hr⟩
  | process rows hw hr e =>
    have hne : w ≠ 1#32 := fun h => by subst h; cases hw
    subst e
    refine .inr ⟨rfl, .inr (.inl hw), ?_⟩
    rw [if_neg hne, complete_coef, countBlock_coef, processBlock_coef]
    exact hr

end Sys2Proof.Machine

namespace Sys2Proof.Proofs

open Sys2Proof Sys2Proof.Machine Sys2Proof.Machine.F32

/-- Settles O28: the coefficient file in each of the three moves of a step. -/
theorem coefficientsComeFromAResolve : Obligations.CoefficientsComeFromAResolve := by
  unfold Obligations.CoefficientsComeFromAResolve
  intro s t hc hr h hne
  cases step_move hc hr h with
  | keep hk => exact absurd hk.coef hne
  | accept w e hp ht => subst ht; exact absurd (accept_coef w _) hne
  | complete w e hp hdone =>
    obtain ⟨hres, hw, hrows⟩ := hdone.coef_cases.resolve_left hne
    exact ⟨w, hp, hdone.pending, hres, hw, hrows⟩

/-- Settles O48: the list of checked words is in the order of the check, so a search of it finds the first word that is not
finite. -/
theorem resolveReportsTheFirstBadWord : Obligations.ResolveReportsTheFirstBadWord := by
  unfold Obligations.ResolveReportsTheFirstBadWord
  refine ⟨fun s fs => rfl, ?biquads, ?firstOrder, ?gains, rfl, fun sb p g t v fs st i => ?outcome⟩
  case biquads => decide
  case firstOrder => decide
  case gains => decide
  case outcome => exact ⟨resolve_ok_rows_iff, resolve_error_iff_firstNonfinite.trans firstNonfinite_iff⟩

/-- Settles O50: the clamps bound the cosine, `alpha` and the root of the gain factor, and rows of bounded inputs are
finite. -/
theorem biquadRowsAreFinite : Obligations.BiquadRowsAreFinite := by
  unfold Obligations.BiquadRowsAreFinite
  intro sb fs x qx px hf h1 hx hqx hpx f q pg hs
  obtain ⟨hangle, hangle_le⟩ := angle_bounds hf h1 hx
  obtain ⟨hq, sq, hqm⟩ := two_mul_clampQ_bounds hqx
  obtain ⟨sa, ha⟩ := alphaOf_bounds hangle hangle_le hs hq sq hqm
  obtain ⟨sr, hr_lo, hr_hi⟩ := sqrt_clampPG_bounds hpx
  have hcos := cosW_bounds hangle hangle_le
  obtain ⟨hlo, hhi⟩ := le_of_mag_le (b := 0x41000000#32) sa (by decide +kernel) (by decide +kernel) ha
  refine ⟨hlo, hhi, fun i hi => ?_⟩
  have hi := mem_biquad_indices hi
  exact ⟨lowPassRow_finite f q hcos sa ha i hi, notchRow_finite f q hcos sa ha i hi,
    peakRow_finite f q hcos sa ha sr hr_lo hr_hi i hi⟩

/-- Settles O51: the prewarped constant is finite and positive, and so bounds the quotients by itself plus 1.0. -/
theorem firstOrderRowsAreFinite : Obligations.FirstOrderRowsAreFinite := by
  unfold Obligations.FirstOrderRowsAreFinite
  intro fs x hf h1 hx f hp lp
  obtain ⟨hk, sk⟩ := warp_clampF hf h1 hx
  have hrows := pass1Row_finite f hk sk
  exact ⟨hrows, abs_pole_le_one hk sk, abs_pole_le_one hk sk, add_neg_self (hrows 0 (by decide)).1, rfl⟩

/-- Settles O52: the tenth, the product with a difference that is not below zero, the sum and the clamp each keep the
order. -/
theorem toneCutoffIsMonotone : Obligations.ToneCutoffIsMonotone := by
  unfold Obligations.ToneCutoffIsMonotone
  intro p fs c c' hf _ hlo hhi hle hd hc hc' h
  exact clampF_mono hf (le_scaled_offset hlo hd (key_sub_nonneg hlo hhi (le_iff.1 hle).2.2) (mag_tenth_le hc)
    (mag_tenth_le hc') (key_tenth_mono hc hc' h))

/-- Settles O47: the rows of each stage are its formula with the named constants written out; the polarity is bit 0 of its
register. -/
theorem rowsFollowTheirFormulas : Obligations.RowsFollowTheirFormulas := by
  unfold Obligations.RowsFollowTheirFormulas
  intro sb p g t v fs
  refine ⟨rfl, rfl, rfl, rfl, rfl, ?gainInv, rfl, rfl, rfl, rfl, rfl⟩
  case gainInv =>
    simp only [Params.get, boolWord_getLsbD]
    rfl

end Sys2Proof.Proofs
end

section
/-! PROOFS. The statements of spec/42_filters.md: what the filter stages compute (R250, R255), and the peaking row of gain
factor 1.0 (R252). -/

namespace Sys2Proof.Machine.F32

/-! Operations that give an operand back: those with 1.0 and with +0.0, a value with itself (00 R7, R9). -/

theorem sign_one : sign ONE = false := by decide

theorem units_one : units ONE = 2 ^ 149 := by decide +kernel

theorem sqrt_one : sqrt ONE = ONE := by decide +kernel

/-- A finite value of `units x` units, recomputed with any denominator, is itself. -/
theorem ofRatio_units {x : Word} (h : isFinite x = true) {d : Nat} (hd : 0 < d) :
    ofRatio (sign x) (units x * d) d = x := by
  rw [units_eq, ofRatio_exact _ hd, pack_sign_mag (isNaN_of_isFinite h)]

theorem one_mul_of_finite {x : Word} (h : isFinite x = true) : mul ONE x = x := by
  rw [mul_finite (by decide) h, sign_one, Bool.false_bne, units_one, Nat.mul_comm, ofRatio_units h (Nat.two_pow_pos 149)]

theorem mul_one_of_finite {x : Word} (h : isFinite x = true) : mul x ONE = x := by
  rw [mul_finite h (by decide), sign_one, Bool.bne_false, units_one, ofRatio_units h (Nat.two_pow_pos 149)]

theorem div_one_of_finite {x : Word} (h : isFinite x = true) : div x ONE = x := by
  rw [div_finite h (by decide) (by decide), sign_one, Bool.bne_false, units_one, ofRatio_units h (Nat.two_pow_pos 149)]

/-- The quotient of a finite value and itself is 1.0, which is 2^149 units. -/
theorem div_self_of_finite {x : Word} (h : isFinite x = true) (h0 : 0 < mag x) : div x x = ONE := by
  have hz : isZero x = false := by rw [isZero, beq_eq_false_iff_ne]; omega
  have hu : 0 < units x := by rw [units_eq]; exact unitsOf_pos h0
  have hone : unitsOf (mag ONE) = 2 ^ 149 := by rw [← units_eq, units_one]
  calc div x x = ofRatio false (unitsOf (mag ONE) * units x) (units x) := by
        rw [div_finite h h hz, bne_self_eq_false, hone, Nat.mul_comm]
    _ = pack false (mag ONE) := ofRatio_exact _ hu
    _ = ONE := by decide

/-- Below zero as an integer of units is what the sign says of a value that is not zero. -/
theorem decide_toInt_neg_eq_sign {x : Word} (h0 : 0 < units x) : decide (toInt x < 0) = sign x := by
  unfold toInt
  cases sign x <;> simp only [if_true, if_false, Bool.false_eq_true, decide_eq_true_eq, decide_eq_false_iff_not] <;> omega

/-- A sum with +0.0 gives the other operand back, unless that is -0.0 (00 R9). -/
theorem add_zero_of_finite {x : Word} (h : isFinite x = true) (hx : x ≠ 0x80000000#32) : add x 0#32 = x := by
  rcases Nat.eq_zero_or_pos (mag x) with hm | hm
  · have hs : sign x = false := Bool.eq_false_iff.2 fun hs => hx (eq_of_sign_mag hs hm)
    rw [show x = 0#32 from eq_of_sign_mag hs hm]
    decide +kernel
  · have hu : 0 < units x := by rw [units_eq]; exact unitsOf_pos hm
    have hne : toInt x ≠ 0 := by rw [← Int.natAbs_pos, natAbs_toInt]; exact hu
    rw [add_finite h (by decide), addFinite, show toInt 0#32 = 0 by decide, Int.add_zero, if_neg hne, natAbs_toInt,
      decide_toInt_neg_eq_sign hu, ← Nat.mul_one (units x), ofRatio_units h Nat.one_pos]

/-- A finite value less itself is +0.0 (00 R9). -/
theorem sub_self_of_finite {x : Word} (h : isFinite x = true) : sub x x = 0#32 := by
  have hneg : isFinite (neg x) = true := by rwa [isFinite_neg]
  rw [sub_finite h h, ← add_finite h hneg, add_neg_self h]

/-- A product is finite only where its second factor is: a NaN factor gives a NaN, an infinite one a NaN or an infinity
(00 R10, R11). -/
theorem isFinite_right_of_mul {x y : Word} (h : isFinite (mul x y) = true) : isFinite y = true := by
  unfold mul at h
  split at h
  case isTrue => rw [isFinite_of_isNaN (isNaN_quietNaN _ _ _)] at h; cases h
  case isFalse hn =>
    split at h
    case isTrue =>
      split at h
      · rw [isFinite_of_isNaN (isNaN_quietNaN _ _ _)] at h; cases h
      · rw [infOf, isFinite_iff, mag_pack, Nat.min_self] at h; omega
    case isFalse hi =>
      simp only [Bool.or_eq_true, not_or, isNaN, isInf, decide_eq_true_eq, beq_iff_eq] at hn hi
      exact isFinite_iff.2 (by omega)

/-- `1.0 ⊕ x` of a finite value that is not below zero, -0.0 among them, is finite and not zero (41 R208). -/
theorem isFinite_and_pos_one_add {x : Word} (h : isFinite x = true) (h0 : 0 ≤ key x) :
    isFinite (add ONE x) = true ∧ 0 < mag (add ONE x) := by
  have hone : isFinite ONE = true := by decide
  have hmag : mag x ≤ 0x7F7FFFFF := by
    have := isFinite_iff.1 h
    unfold infMag at this
    omega
  have hle : mag (add ONE x) ≤ 0x7F7FFFFF := mag_add_le hone h (Nat.le_refl _) hmag (by decide +kernel)
  have hkey : key (add ONE 0#32) ≤ key (add ONE x) := key_add_mono (by decide) h hone h0
  have hpos : 0 < key (add ONE 0#32) := by decide +kernel
  exact ⟨isFinite_of_mag_le hle (by decide), (sign_of_key (Int.lt_of_lt_of_le hpos hkey)).2⟩

end Sys2Proof.Machine.F32

namespace Sys2Proof.Machine

open F32

/-! The stage operations on the row and the state of a stage (42 R250, R255). -/

theorem exec_biquad {i : Instr} {c : Chan} {st : Stage} {x : Word}
    (h : i ∈ [Instr.stageBqLp c st x, .stageBqPeak c st x, .stageBqNotch c st x]) (s : State) :
    exec i s = .next (runStage c st (biquadStep (s.coef.get st) ((s.filter c).get st) x) s) := by
  simp only [List.mem_cons, List.not_mem_nil, or_false] at h
  obtain rfl | rfl | rfl := h <;> rfl

theorem exec_firstOrder {i : Instr} {c : Chan} {st : Stage} {x : Word}
    (h : i ∈ [Instr.stageFoHp c st x, .stageFoLp c st x]) (s : State) :
    exec i s = .next (runStage c st (firstOrderStep (s.coef.get st) ((s.filter c).get st) x) s) := by
  obtain rfl | rfl := List.mem_pair.1 h <;> rfl

/-- A stage operation writes the state words of its channel and the sample, and nothing else (40 R173). -/
theorem runStage_eq (c : Chan) (st : Stage) (y : Word) (p : Pair) (s : State) :
    runStage c st (y, p) s =
      { s.setFilter c ((s.filter c).set st p) with env := { s.env with sample := y } } := by
  cases c <;> rfl

/-- A flat peaking row: with a gain factor of 1.0 its numerator is its denominator (42 R252). -/
theorem peakRow_one {cw alpha : Word} (f q : Word) (h : isFinite alpha = true) :
    peakRow cw alpha f q ONE = normalise (add ONE alpha) (mul NEG_TWO cw) (sub ONE alpha) (add ONE alpha)
      (mul NEG_TWO cw) (sub ONE alpha) f q ONE := by
  simp only [peakRow, sqrt_one, mul_one_of_finite h, div_one_of_finite h]

/-- A biquad whose numerator is its denominator passes a sample from zero state: each new state word is a finite product
less itself (42 R252). -/
theorem biquadStep_identity {r : Row} {x : Word} (h0 : r.w0 = ONE) (h1 : r.w1 = r.w3) (h2 : r.w2 = r.w4)
    (hx : x ≠ 0x80000000#32) (h3 : isFinite (mul r.w3 x) = true) (h4 : isFinite (mul r.w4 x) = true) :
    biquadStep r ⟨0#32, 0#32⟩ x = (x, ⟨0#32, 0#32⟩) := by
  have hf : isFinite x = true := isFinite_right_of_mul h3
  have hzero : add 0#32 0#32 = 0#32 := add_zero_of_finite (by decide) (by decide)
  have hy : add (mul r.w0 x) 0#32 = x := by rw [h0, one_mul_of_finite hf, add_zero_of_finite hf hx]
  simp only [biquadStep, hy, h1, h2, sub_self_of_finite h3, sub_self_of_finite h4, hzero]

end Sys2Proof.Machine

namespace Sys2Proof.Proofs

open Sys2Proof Sys2Proof.Machine Sys2Proof.Machine.F32

/-- Settles O41: a gain factor of 1.0 makes numerator and denominator of the row the same, and such a row passes a sample
from zero state. -/
theorem flatPeakIsTheIdentity : Obligations.FlatPeakIsTheIdentity := by
  unfold Obligations.FlatPeakIsTheIdentity
  intro cw alpha f q x hf hle row
  have key_zero : key 0#32 = 0 := by decide
  obtain ⟨-, -, h0⟩ := le_iff.1 hle
  obtain ⟨hden, hpos⟩ := isFinite_and_pos_one_add hf (key_zero ▸ h0)
  have hrow : row = _ := peakRow_one f q hf
  have hb0 : row.w0 = ONE := by rw [hrow]; exact div_self_of_finite hden hpos
  have hb1 : row.w1 = row.w3 := by rw [hrow]; rfl
  have hb2 : row.w2 = row.w4 := by rw [hrow]; rfl
  exact ⟨hb0, hb1, hb2, biquadStep_identity hb0 hb1 hb2⟩

/-- Settles O37: each operation runs the step of its section on the row and the state of its stage. -/
theorem filterStagesFollowTheirRules : Obligations.FilterStagesFollowTheirRules := by
  unfold Obligations.FilterStagesFollowTheirRules
  intro s c st x
  refine ⟨fun i hi => ?biquad, fun i hi => ?firstOrder⟩
  case biquad => exact (exec_biquad hi s).trans (congrArg _ (runStage_eq c st _ _ s))
  case firstOrder => exact (exec_firstOrder hi s).trans (congrArg _ (runStage_eq c st _ _ s))

end Sys2Proof.Proofs
end

section
/-! PROOFS. The statements of spec/43_gain_stages.md: what the gain stages compute (R270, R272, R274), and that a gain step
is odd and monotone (R276). -/

namespace Sys2Proof.Machine.F32

/-! Products that are no NaN (00 R9, R10, R11). -/

/-- A product is no NaN where neither factor is one and an infinity does not meet a zero (00 R11). -/
theorem isNaN_mul_iff {m x : Word} : isNaN (mul m x) = false ↔
    isNaN m = false ∧ isNaN x = false ∧ (isInf m = true ∨ isInf x = true → isZero m = false ∧ isZero x = false) := by
  unfold mul
  split
  case isTrue hn => exact iff_of_false (by simp) (by rintro ⟨hm, hx, -⟩; simp [hm, hx] at hn)
  case isFalse hn =>
    obtain ⟨hm, hx⟩ : isNaN m = false ∧ isNaN x = false := by simpa using hn
    split
    case isTrue hi =>
      split
      case isTrue hz => exact iff_of_false (by simp) (fun h => by simp [h.2.2 (Bool.or_eq_true_iff.1 hi)] at hz)
      case isFalse hz => exact iff_of_true (isNaN_infOf _) ⟨hm, hx, fun _ => by simpa using hz⟩
    case isFalse hi => exact iff_of_true (isNaN_ofRatio _ _ _) ⟨hm, hx, fun h => absurd (Bool.or_eq_true_iff.2 h) hi⟩

theorem mul_eq_of_not_nan {m x : Word} (h : isNaN (mul m x) = false) :
    mul m x = if isInf m || isInf x then infOf (sign m != sign x)
      else ofRatio (sign m != sign x) (units m * units x) (2 ^ 149) := by
  obtain ⟨hm, hx, hz⟩ := isNaN_mul_iff.1 h
  unfold mul
  simp only [hm, hx, Bool.or_self, Bool.false_eq_true, if_false]
  split
  case isTrue hi =>
    obtain ⟨hm0, hx0⟩ := hz (Bool.or_eq_true_iff.1 hi)
    simp [hm0, hx0]
  case isFalse => rfl

theorem mul_comm_of_not_nan {m x : Word} (h : isNaN (mul m x) = false) : mul x m = mul m x := by
  have h' : isNaN (mul x m) = false := by
    obtain ⟨hm, hx, hz⟩ := isNaN_mul_iff.1 h
    exact isNaN_mul_iff.2 ⟨hx, hm, fun hi => (hz hi.symm).symm⟩
  rw [mul_eq_of_not_nan h', mul_eq_of_not_nan h, Bool.or_comm, bne_comm, Nat.mul_comm]

@[simp] theorem isNaN_mul_neg (m x : Word) : isNaN (mul m (neg x)) = isNaN (mul m x) := by
  rw [Bool.eq_iff_iff, ← not_iff_not]
  simp [isNaN_mul_iff]

/-- Rounding to nearest is symmetric, so a product changes its sign with its second factor (00 R7). -/
theorem mul_neg_of_not_nan {m x : Word} (h : isNaN (mul m x) = false) : mul m (neg x) = neg (mul m x) := by
  have h' : isNaN (mul m (neg x)) = false := by rwa [isNaN_mul_neg]
  rw [mul_eq_of_not_nan h', mul_eq_of_not_nan h, apply_ite neg]
  simp

theorem neg_mul_of_not_nan {m x : Word} (h : isNaN (mul m x) = false) : mul (neg m) x = neg (mul m x) := by
  have h' : isNaN (mul x m) = false := by rwa [mul_comm_of_not_nan h]
  have h'' : isNaN (mul x (neg m)) = false := by rwa [isNaN_mul_neg]
  rw [mul_comm_of_not_nan h'', mul_neg_of_not_nan h', mul_comm_of_not_nan h]

theorem sign_mul_of_not_nan {m x : Word} (h : isNaN (mul m x) = false) : sign (mul m x) = (sign m != sign x) := by
  rw [mul_eq_of_not_nan h]
  split
  · exact sign_pack _ _
  · exact sign_ofRatio _ _ _

/-- A product with a zero is a zero (00 R9). -/
theorem mag_mul_of_zero {m x : Word} (h : isNaN (mul m x) = false) (h0 : mag m = 0 ∨ mag x = 0) :
    mag (mul m x) = 0 := by
  rw [mul_eq_of_not_nan h]
  split
  case isTrue hi =>
    obtain ⟨hm, hx⟩ := (isNaN_mul_iff.1 h).2.2 (Bool.or_eq_true_iff.1 hi)
    simp only [isZero, beq_eq_false_iff_ne] at hm hx
    omega
  case isFalse =>
    have hu : units m * units x = 0 := by
      rw [units_eq, units_eq]
      rcases h0 with h0 | h0 <;> simp [h0]
    exact Nat.le_zero.1 (mag_ofRatio_le _ (Nat.two_pow_pos 149) (by rw [hu]; exact Nat.zero_le _))

/-- The greater the second factor's magnitude, the greater the product's, up to that of an infinity (00 R7, R10). -/
theorem mag_mul_mono {m x y : Word} (hx : isNaN (mul m x) = false) (hy : isNaN (mul m y) = false)
    (h : mag x ≤ mag y) : mag (mul m x) ≤ mag (mul m y) := by
  by_cases hi : isInf m = true ∨ isInf y = true
  case pos =>
    have hinf : mag (mul m y) = infMag := by simp [mul_eq_of_not_nan hy, hi, infOf]
    rw [hinf]
    simpa [isNaN] using hx
  case neg =>
    obtain ⟨-, hny, -⟩ := isNaN_mul_iff.1 hy
    have hix : ¬ (isInf m = true ∨ isInf x = true) := by
      simp only [isNaN, isInf, decide_eq_false_iff_not, beq_iff_eq] at hi hny ⊢
      omega
    simp only [mul_eq_of_not_nan hx, mul_eq_of_not_nan hy, Bool.or_eq_true, hi, hix, if_false]
    exact mag_ofRatio_mono _ _ (Nat.two_pow_pos 149) (Nat.two_pow_pos 149)
      (Nat.mul_le_mul_right _ (Nat.mul_le_mul_left _ (units_eq y ▸ units_le h)))

/-- Multiplication by a factor without sign is monotone, the infinities included. -/
theorem key_mul_mono_of_sign {m x y : Word} (hx : isNaN (mul m x) = false) (hy : isNaN (mul m y) = false)
    (sm : sign m = false) (h : key x ≤ key y) : key (mul m x) ≤ key (mul m y) := by
  unfold key
  rw [sign_mul_of_not_nan hx, sign_mul_of_not_nan hy, sm, Bool.false_bne, Bool.false_bne]
  exact signed_mono (mag_mul_mono hx hy) (mag_mul_mono hy hx) (fun h0 => mag_mul_of_zero hx (.inr h0))
    (fun h0 => mag_mul_of_zero hy (.inr h0)) h

/-- Multiplication by a factor that is not below zero, -0.0 and the infinity among them, is monotone (43 R276). -/
theorem le_mul_of_nonneg {m x y : Word} (hx : isNaN (mul m x) = false) (hy : isNaN (mul m y) = false)
    (h0 : 0 ≤ key m) (h : key x ≤ key y) : le (mul m x) (mul m y) = true := by
  refine le_iff.2 ⟨hx, hy, ?_⟩
  rcases Int.lt_or_eq_of_le h0 with hpos | hzero
  · exact key_mul_mono_of_sign hx hy (sign_of_key hpos).1 h
  · have hm : mag m = 0 := by rw [← natAbs_key, ← hzero]; rfl
    have hkx := natAbs_key (mul m x)
    have hky := natAbs_key (mul m y)
    rw [mag_mul_of_zero hx (.inl hm)] at hkx
    rw [mag_mul_of_zero hy (.inl hm)] at hky
    omega

/-- Multiplication by a factor below zero turns the order around (43 R276). -/
theorem le_mul_of_neg {m x y : Word} (hx : isNaN (mul m x) = false) (hy : isNaN (mul m y) = false)
    (h0 : key m < 0) (h : key x ≤ key y) : le (mul m y) (mul m x) = true := by
  have hx' : isNaN (mul (neg m) x) = false := by rwa [neg_mul_of_not_nan hx, isNaN_neg]
  have hy' : isNaN (mul (neg m) y) = false := by rwa [neg_mul_of_not_nan hy, isNaN_neg]
  have hle := le_mul_of_nonneg hx' hy' (by rw [key_neg_eq]; omega) h
  rw [neg_mul_of_not_nan hx, neg_mul_of_not_nan hy] at hle
  simpa using neg_le_neg_of_le hle

end Sys2Proof.Machine.F32

namespace Sys2Proof.Machine

open F32

/-- The gain operations hand on the gain step of their row, and write nothing else (43 R270, R272, R274). -/
theorem exec_gain {i : Instr} {c : Chan} {st : Stage} {x : Word}
    (h : i ∈ [Instr.stageGainNi c st x, .stageGainInv c st x, .stageGainVol c st x]) (s : State) :
    exec i s = .next (handOn (gainStep (s.coef.get st) x) s) := by
  simp only [List.mem_cons, List.not_mem_nil, or_false] at h
  obtain rfl | rfl | rfl := h <;> rfl

end Sys2Proof.Machine

namespace Sys2Proof.Proofs

open Sys2Proof Sys2Proof.Machine Sys2Proof.Machine.F32

/-- Settles O42: the sign of a product is that of its factors, and its magnitude, each rounding being monotone, keeps the
order of theirs. -/
theorem gainIsOddAndMonotone : Obligations.GainIsOddAndMonotone := by
  unfold Obligations.GainIsOddAndMonotone
  intro m x y hx hy
  have key_zero : key 0#32 = 0 := by decide
  refine ⟨mul_neg_of_not_nan hx, fun hm hle => ?nonneg, fun hm hle => ?neg⟩
  case nonneg =>
    obtain ⟨-, -, h0⟩ := le_iff.1 hm
    exact le_mul_of_nonneg hx hy (key_zero ▸ h0) (le_iff.1 hle).2.2
  case neg =>
    obtain ⟨-, -, h0⟩ := lt_iff.1 hm
    exact le_mul_of_neg hx hy (key_zero ▸ h0) (le_iff.1 hle).2.2

/-- Settles O38: each operation hands on the gain step of its row, which is a multiplication by word 1. -/
theorem gainStagesMultiply : Obligations.GainStagesMultiply := by
  unfold Obligations.GainStagesMultiply
  intro s c st x i hi
  exact exec_gain hi s

end Sys2Proof.Proofs
end

section
/-! PROOFS. The statements of spec/44_waveshaper.md: what the shaper modes compute (R285, R287, R288, R289), that the
symmetric ones are odd (R292), and that CUBIC on a row of the resolver gives finite samples (R293). -/

namespace Sys2Proof.Machine.F32

/-! `copysign` (00 R16). -/

@[simp] theorem abs_copysign (m x : Word) : abs (copysign m x) = abs m := by
  have disjoint_masks : 0x80000000#32 &&& 0x7FFFFFFF#32 = 0#32 := by decide
  rw [abs, copysign, BitVec.and_or_distrib_right, BitVec.and_assoc, BitVec.and_self, BitVec.and_assoc, disjoint_masks,
    BitVec.and_zero, BitVec.or_zero, abs]

@[simp] theorem mag_copysign (m x : Word) : mag (copysign m x) = mag m := by
  rw [← mag_abs, abs_copysign, mag_abs]

@[simp] theorem sign_copysign (m x : Word) : sign (copysign m x) = sign x := by
  have msb_low : (0x7FFFFFFF#32).msb = false := by decide
  have msb_high : (0x80000000#32).msb = true := by decide
  simp [sign, copysign, BitVec.msb_or, BitVec.msb_and, msb_low, msb_high]

@[simp] theorem copysign_neg (m x : Word) : copysign m (neg x) = neg (copysign m x) :=
  eq_of_sign_mag (by simp) (by simp)

@[simp] theorem isFinite_copysign (m x : Word) : isFinite (copysign m x) = isFinite m := by simp [isFinite]

/-! Magnitudes and finiteness from the order. -/

/-- A value whose magnitude, as a value, is not above a bound has at most the bound's magnitude. -/
theorem mag_le_of_key_abs_le {x b : Word} (h : key (abs x) ≤ key b) : mag x ≤ mag b := by
  have hx : key (abs x) = mag x := by rw [key_pos (sign_abs x), mag_abs]
  have hb := natAbs_key b
  omega

/-- What lies between two finite values is finite. -/
theorem isFinite_of_key_between {x lo hi : Word} (hlo : isFinite lo = true) (hhi : isFinite hi = true)
    (h1 : key lo ≤ key x) (h2 : key x ≤ key hi) : isFinite x = true := by
  rw [isFinite_iff] at *
  have := natAbs_key x
  have := natAbs_key lo
  have := natAbs_key hi
  omega

/-- A difference of finite values grows with its first operand and falls with its second, each rounding being monotone
(00 R7). -/
theorem key_sub_mono {x x' y y' : Word} (hx : isFinite x = true) (hx' : isFinite x' = true) (hy : isFinite y = true)
    (hy' : isFinite y' = true) (h1 : key x ≤ key x') (h2 : key y' ≤ key y) : key (sub x y) ≤ key (sub x' y') := by
  have hint := toInt_mono h1
  have hint' := toInt_mono h2
  rw [sub_finite hx hy, sub_finite hx' hy', key_addFinite, key_addFinite, toInt_neg, toInt_neg]
  exact keyOfInt_mono (by omega)

/-- Atan32 of any value but NaN is finite, that of the infinities among them (00 R12 `P_ATAN_BOUND`). -/
theorem isFinite_atan32 {x : Word} (h : isNaN x = false) : isFinite (atan32 x) = true := by
  obtain ⟨-, -, -, hle⟩ := atan32_bounds h
  exact isFinite_of_mag_le hle (by decide)

/-- A product of finite factors is no NaN, also where it overflows (00 R10, R11). -/
theorem isNaN_mul_of_finite {m x : Word} (hm : isFinite m = true) (hx : isFinite x = true) :
    isNaN (mul m x) = false := by
  rw [mul_finite hm hx, isNaN_ofRatio]

end Sys2Proof.Machine.F32

namespace Sys2Proof.Machine

open F32

/-! CUBIC by its three regions (44 R289). -/

/-- What CUBIC makes of a magnitude `a` in its knee, before the sign (44 R289). -/
def cubicKnee (r : Row) (a : Word) : Word :=
  let d := sub a r.w1
  sub a (mul (mul (mul d d) d) r.w3)

/-- CUBIC of a value that is no NaN: the linear region, the knee and the hard limit (44 R289). -/
theorem shapeCubic_of_not_nan (r : Row) {x : Word} (h : isNaN x = false) :
    shapeCubic r x = if le (abs x) r.w1 then x
      else if lt (abs x) r.w2 then copysign (cubicKnee r (abs x)) x else copysign ONE x := by
  rw [shapeCubic, h]
  rfl

/-- The knee of a row with the resolver's bounds is finite: the distance from the threshold is at most 4.0, its cube at
most 64.0, and so is the row's factor. -/
theorem isFinite_cubicKnee {r : Row} {a : Word} (ha : mag a ≤ mag TWO) (ht : mag r.w1 ≤ mag ONE)
    (hc : mag r.w3 ≤ 0x42800000) : isFinite (cubicKnee r a) = true := by
  have fa : isFinite a = true := isFinite_of_mag_le ha (by decide)
  have ft : isFinite r.w1 = true := isFinite_of_mag_le ht (by decide)
  have fc : isFinite r.w3 = true := isFinite_of_mag_le hc (by decide)
  have distance : mag (sub a r.w1) ≤ 0x40800000 := mag_sub_le fa ft ha ht (by decide +kernel)
  have fd := isFinite_of_mag_le distance (by decide)
  have square : mag (mul (sub a r.w1) (sub a r.w1)) ≤ 0x41800000 :=
    mag_mul_le fd fd distance distance (by decide +kernel)
  have fs := isFinite_of_mag_le square (by decide)
  have cube : mag (mul (mul (sub a r.w1) (sub a r.w1)) (sub a r.w1)) ≤ 0x42800000 :=
    mag_mul_le fs fd square distance (by decide +kernel)
  have fcube := isFinite_of_mag_le cube (by decide)
  have scaled := mag_mul_le fcube fc cube hc (c := 0x45800000) (by decide +kernel)
  have fscaled := isFinite_of_mag_le scaled (by decide)
  exact isFinite_of_mag_le (mag_sub_le fa fscaled ha scaled (c := 0x46000000) (by decide +kernel)) (by decide)

/-! The shaper row of the resolver (41 R230), for a threshold that is no NaN. -/

/-- The threshold lies between 0.0 and T_HI. -/
theorem rowShaper_threshold {p : Params} (g : Word) (h : isNaN p.shT = false) :
    isFinite (rowShaper p g).w1 = true ∧ key 0#32 ≤ key (rowShaper p g).w1 ∧ key (rowShaper p g).w1 ≤ key T_HI := by
  have in_order : key 0#32 ≤ key T_HI := by decide
  obtain ⟨-, hkey⟩ := clamp_spec (lo := 0#32) (hi := T_HI) h (by decide) (by decide) in_order
  have hlo : key 0#32 ≤ key (rowShaper p g).w1 := by rw [rowShaper, hkey]; omega
  have hhi : key (rowShaper p g).w1 ≤ key T_HI := by rw [rowShaper, hkey]; omega
  exact ⟨isFinite_of_key_between (by decide) (by decide) hlo hhi, hlo, hhi⟩

/-- The knee's end `(3 ⊖ Tc) ⊘ 2` lies between its values at the greatest and at the least threshold. -/
theorem rowShaper_kneeEnd {p : Params} (g : Word) (h : isNaN p.shT = false) :
    isFinite (rowShaper p g).w2 = true ∧ key (div (sub THREE T_HI) TWO) ≤ key (rowShaper p g).w2 ∧
    key (rowShaper p g).w2 ≤ key (div (sub THREE 0#32) TWO) := by
  obtain ⟨ft, hlo, hhi⟩ := rowShaper_threshold g h
  have three : isFinite THREE = true := by decide
  have two : isFinite TWO = true := by decide
  have least : isFinite (sub THREE T_HI) = true := by decide +kernel
  have greatest : isFinite (sub THREE 0#32) = true := by decide +kernel
  have above : key (sub THREE T_HI) ≤ key (sub THREE (rowShaper p g).w1) :=
    key_sub_mono three three (by decide) ft (Int.le_refl _) hhi
  have below : key (sub THREE (rowShaper p g).w1) ≤ key (sub THREE 0#32) :=
    key_sub_mono three three ft (by decide) (Int.le_refl _) hlo
  have fdiff := isFinite_of_key_between least greatest above below
  have habove : key (div (sub THREE T_HI) TWO) ≤ key (rowShaper p g).w2 :=
    key_div_mono two least fdiff (by decide) (by decide) above
  have hbelow : key (rowShaper p g).w2 ≤ key (div (sub THREE 0#32) TWO) :=
    key_div_mono two fdiff greatest (by decide) (by decide) below
  exact ⟨isFinite_of_key_between (by decide +kernel) (by decide +kernel) habove hbelow, habove, hbelow⟩

/-- The knee's width `B ⊖ Tc` is least, 0.09375, at the greatest threshold, and at most 1.5. -/
theorem rowShaper_kneeWidth {p : Params} (g : Word) (h : isNaN p.shT = false) :
    0x3DC00000 ≤ mag (sub (rowShaper p g).w2 (rowShaper p g).w1) ∧
    mag (sub (rowShaper p g).w2 (rowShaper p g).w1) ≤ 0x3FC00000 := by
  obtain ⟨ft, htlo, hthi⟩ := rowShaper_threshold g h
  obtain ⟨fb, hblo, hbhi⟩ := rowShaper_kneeEnd g h
  have least := key_sub_mono (by decide +kernel) fb (by decide) ft hblo hthi
  have greatest := key_sub_mono fb (by decide +kernel) ft (by decide) hbhi htlo
  have key_least : key (sub (div (sub THREE T_HI) TWO) T_HI) = 0x3DC00000 := by decide +kernel
  have key_greatest : key (sub (div (sub THREE 0#32) TWO) 0#32) = 0x3FC00000 := by decide +kernel
  have := natAbs_key (sub (rowShaper p g).w2 (rowShaper p g).w1)
  omega

/-- The cubic factor is at most 64.0: its divisor `3 ⊗ H ⊗ H` is at least 2^-6, as the knee's width is at least
0.09375. -/
theorem rowShaper_cubicFactor {p : Params} (g : Word) (h : isNaN p.shT = false) :
    mag (rowShaper p g).w3 ≤ 0x42800000 := by
  obtain ⟨hlo, hhi⟩ := rowShaper_kneeWidth g h
  have three : isFinite THREE = true := by decide
  have fwidth := isFinite_of_mag_le hhi (by decide)
  have tripleHi := mag_mul_le three fwidth (Nat.le_refl _) hhi (c := 0x40A00000) (by decide +kernel)
  have tripleLo := le_mag_mul three fwidth (Nat.le_refl _) hlo (c := 0x3E800000) (by decide) (by decide +kernel)
  have ftriple := isFinite_of_mag_le tripleHi (by decide)
  have divisorHi := mag_mul_le ftriple fwidth tripleHi hhi (c := 0x41000000) (by decide +kernel)
  have divisorLo := le_mag_mul ftriple fwidth tripleLo hlo (c := 0x3C800000) (by decide) (by decide +kernel)
  exact mag_div_le (by decide) (isFinite_of_mag_le divisorHi (by decide)) (Nat.le_refl (mag ONE)) (by decide)
    divisorLo (by decide +kernel)

/-! The SHAPER operation (44 R285). -/

/-- The SHAPER operation is the mode that the decoder reads in word 4 of its row (30 R135, 44 R285). -/
theorem exec_stageShaper_eq_mode {s : State} {x : Word} {i : Instr} (c : Chan)
    (h : decodeMode s.coef.shaper.w4 x = .ok i) : exec (.stageShaper c .shaper x) s = exec i s := by
  have hexec : exec (.stageShaper c .shaper x) s = .next (handOn (shape s.coef.shaper x) s) := rfl
  rw [hexec, shape]
  unfold decodeMode at h
  cases hm : ShaperMode.ofCode? s.coef.shaper.w4 with
  | none => rw [hm] at h; cases h
  | some m => cases m <;> (rw [hm] at h; cases h; rfl)

end Sys2Proof.Machine

namespace Sys2Proof.Proofs

open Sys2Proof Sys2Proof.Machine Sys2Proof.Machine.F32

/-- Settles O43: Atan32 is odd and so is a product that is no NaN; CUBIC chooses its region by the magnitude and puts the
sign on at the end. -/
theorem symmetricShapesAreOdd : Obligations.SymmetricShapesAreOdd := by
  unfold Obligations.SymmetricShapesAreOdd
  intro r x hx
  refine ⟨fun hk => ?atanSym, ?cubic⟩
  case atanSym =>
    have hprod := isNaN_mul_of_finite hk (isFinite_atan32 hx)
    rw [shapeAtanSym, shapeAtanSym, atan32_neg hx, mul_neg_of_not_nan hprod]
  case cubic =>
    rw [shapeCubic_of_not_nan r hx, shapeCubic_of_not_nan r (by rwa [isNaN_neg]), abs_neg_eq, copysign_neg, copysign_neg,
      apply_ite neg, apply_ite neg]

/-- Settles O44, region by region: a linear sample is at most the threshold, the knee's terms are bounded by those of the
row, and the hard limit is 1.0. -/
theorem cubicOutputIsFinite : Obligations.CubicOutputIsFinite := by
  unfold Obligations.CubicOutputIsFinite
  intro p g x hp hx
  obtain ⟨ft, htlo, hthi⟩ := rowShaper_threshold g hp
  obtain ⟨-, -, hb⟩ := rowShaper_kneeEnd g hp
  rw [shapeCubic_of_not_nan _ hx]
  split
  case isTrue hlin =>
    exact isFinite_of_mag_le (mag_le_of_key_abs_le (le_iff.1 hlin).2.2) (isFinite_iff.1 ft)
  case isFalse =>
    split
    case isTrue hknee =>
      obtain ⟨-, -, hlt⟩ := lt_iff.1 hknee
      have key_end : key (div (sub THREE 0#32) TWO) ≤ key TWO := by decide +kernel
      have key_threshold : key 0#32 = 0 ∧ key T_HI ≤ mag ONE := by decide
      have hax : mag (abs x) ≤ mag TWO := by
        rw [mag_abs]
        exact mag_le_of_key_abs_le (by omega)
      have htc : mag (rowShaper p g).w1 ≤ mag ONE := by rw [← natAbs_key]; omega
      rw [isFinite_copysign]
      exact isFinite_cubicKnee hax htc (rowShaper_cubicFactor g hp)
    case isFalse =>
      rw [isFinite_copysign]
      decide

/-- Settles O39: each mode hands on its shape, and the SHAPER operation is the mode that its row's word 4 decodes to. -/
theorem shaperModesFollowTheirRules : Obligations.ShaperModesFollowTheirRules := by
  unfold Obligations.ShaperModesFollowTheirRules
  intro s c x
  refine ⟨rfl, rfl, rfl, fun h => ?_, fun h => ?_, fun h => ?_, shape s.coef.shaper x, rfl⟩ <;>
    exact exec_stageShaper_eq_mode c (by rw [h]; rfl)

end Sys2Proof.Proofs
end

section
/-! PROOFS. The statements of spec/60_exceptions.md: the result a completion reports, what an error leaves unchanged, FATAL
and its record, the silent corrections, and the interrupt output. -/

namespace Sys2Proof.Machine

/-! Writes that are ignored (60 R303). -/

/-- The registers at which a host write has a meaning (10 section 2.1). -/
def Reg.takesWrite : Reg → Bool
  | .ctrl | .status | .cmd | .specFs | .specMaxb | .specNch | .gain | .tone | .volume | .bypass | .param _
  | .buf _ _ => true
  | _ => false

/-- At any other register a write is neither a command nor an operation. -/
theorem writeInstr_of_takesWrite_eq_false {r : Reg} (h : r.takesWrite = false) (v : Word) :
    r ≠ .cmd ∧ writeInstr r v = none := by
  cases r <;> simp only [Reg.takesWrite, reduceCtorEq] at h <;> exact ⟨by simp, rfl⟩

/-- CMD stands below 0x100 (10 section 2.1). -/
theorem lowRegAt_ne_cmd {a : Nat} (h : 0x100 ≤ a) : lowRegAt a ≠ .cmd := by
  rw [lowRegAt, if_neg (by omega)]
  repeat' split
  all_goals simp

/-- At a read-only offset of the spec's table a write is neither a command nor an operation. -/
theorem writeInstr_readOnly {off : Offset} (h : readOnlyOffset off.toNat = true) (v : Word) :
    regAt off ≠ .cmd ∧ writeInstr (regAt off) v = none := by
  have hplace : off.toNat < 0x100 ∨ 0x400 ≤ off.toNat ∧ off.toNat < 0x8000 := by
    simp only [readOnlyOffset, Bool.or_eq_true, Bool.and_eq_true, beq_iff_eq, decide_eq_true_eq] at h
    omega
  rw [regAt_register (by omega)]
  obtain hlow | ⟨habove, -⟩ := hplace
  · have controls : ∀ a : Fin 0x100, readOnlyOffset a = true → (lowRegAt a).takesWrite = false := by decide +kernel
    exact writeInstr_of_takesWrite_eq_false (controls ⟨off.toNat, hlow⟩ h) v
  · exact ⟨lowRegAt_ne_cmd (by omega), writeInstr_above_params habove v⟩

/-- A write to P_SH_MODE of a word that is no mode leaves the parameter registers as they are (10 R56). -/
theorem set_shMode_reserved (p : Params) {v : Word} (h0 : v ≠ 0#32) (h1 : v ≠ 1#32) (h2 : v ≠ 2#32) :
    p.set .shMode v = p := by
  have reserved : ShaperMode.ofCode? v = none := by
    rw [ShaperMode.ofCode?, if_neg h0, if_neg h1, if_neg h2]
  simp only [Params.set, reserved, Option.getD_none]

/-! The interrupt output (60 R320). -/

/-- A completion sets DONE, so the output is IRQ_EN. -/
theorem irq_complete (code : ResultCode) (info : Option (Stage × Nat)) (s : State) :
    (complete code info s).irq = s.irqEn := by
  rw [State.irq, complete_irqEn, complete_done, Bool.and_true]

/-- Clearing DONE drops the output. -/
theorem irq_of_clear_done {w : Word} (h : w.getLsbD 3 = true) (s : State) :
    State.irq { s with status := s.status.clear w } = false := by
  simp [State.irq, Status.clear, h]

/-! Commands whose resolve fails (41 R247, 60 R310). -/

/-- A completion with NONFINITE_COEF, for the command word in flight. -/
theorem complete_nonfinite_inFlight {s : State} {w : Word} (hp : s.pending = some w) (st : Stage) (i : Nat) :
    complete .nonfiniteCoef (some (st, i)) s = { s with
      status := { s.status with result := .nonfiniteCoef, done := true, err := true, fatal := true }
      faultInfo := 0x80000000#32 ||| (BitVec.ofNat 32 i <<< 8) ||| BitVec.ofNat 32 st.idx
      lastCmd := w, pending := none, abortRange := Range.empty } := by
  rw [complete_nonfinite, hp, Bool.or_true, Option.getD_some]
  rfl

theorem transformBlock_nonfinite {s : State} {f : Stage × Nat} (len : BitVec 16)
    (hr : s.resolve s.activeFs = .error f) : transformBlock len s = complete .nonfiniteCoef (some f) s := by
  unfold transformBlock
  rw [hr]

theorem resolveBody_nonfinite {s : State} {f : Stage × Nat} (h : s.status.prepared = true)
    (hr : s.resolve s.activeFs = .error f) : resolveBody s = complete .nonfiniteCoef (some f) s := by
  simp [resolveBody, h, hr]

/-! The priority list (60 R304), command by command. -/

/-- The code a command that resolves reports for what its resolve gives. -/
def resolveCode : Except (Stage × Nat) CoefFile → ResultCode
  | .error _ => .nonfiniteCoef
  | .ok _ => .ok

theorem resultOf_fatal {s : State} (h : s.status.fatal = true) (w : Word) : resultOf w s = .faulted := if_pos h

section
variable {s : State} {w : Word}

theorem resultOf_illegal (hf : s.status.fatal = false) (hl : legalCmd w = false) : resultOf w s = .illegalCmd := by
  simp [resultOf, hf, hl]

theorem resultOf_prepare (hf : s.status.fatal = false) (hl : legalCmd w = true) (hop : cmdOp w = 1#4) :
    resultOf w s = if !fsValid s.specFs then .badFs else if !maxbValid s.specMaxb then .badMaxb
      else if !nchValid s.specNch then .badNch else resolveCode (s.resolve s.specFs) := by
  simp only [resultOf, hf, hl, hop]
  rfl

theorem resultOf_process (hf : s.status.fatal = false) (hl : legalCmd w = true) (hop : cmdOp w = 2#4) :
    resultOf w s = if !s.status.prepared then .notPrepared else if s.activeMaxb.toNat < (cmdLen w).toNat then .badLen
      else if s.snapBypass then .okBypassed else resolveCode (s.resolve s.activeFs) := by
  simp only [resultOf, hf, hl, hop]
  rfl

theorem resultOf_resolve (hf : s.status.fatal = false) (hl : legalCmd w = true) (hop : cmdOp w = 3#4) :
    resultOf w s = if !s.status.prepared then .notPrepared else resolveCode (s.resolve s.activeFs) := by
  simp only [resultOf, hf, hl, hop]
  rfl

/-- NOP and CLEAR_STATE meet no condition of the list. -/
theorem resultOf_other (hf : s.status.fatal = false) (hl : legalCmd w = true) (h1 : cmdOp w ≠ 1#4)
    (h2 : cmdOp w ≠ 2#4) (h3 : cmdOp w ≠ 3#4) : resultOf w s = .ok := by
  simp [resultOf, hf, hl, h1, h2, h3]

end

/-- The sample rate a command resolves for (40 R160, R170, R178). -/
def State.rateOf (s : State) (w : Word) : Word := if cmdOp w = 1#4 then s.specFs else s.activeFs

/-- What the completion of `w` in `s` leaves, by the result of the priority list: it is the one reported, and an error
leaves no more than its own record. -/
inductive Reports (s : State) (w : Word) (t : State) : Prop where
  | success (he : (resultOf w s).isError = false) (h : t.status.result = resultOf w s)
  | error (code : ResultCode) (hc : resultOf w s = code)
      (hcode : code = .faulted ∨ code = .illegalCmd ∨ code = .notPrepared ∨ code = .badLen)
      (h : t = complete code none s)
  | badSpec (code : ResultCode) (hc : resultOf w s = code) (hcode : code = .badFs ∨ code = .badMaxb ∨ code = .badNch)
      (h : t = failPrepare code s)
  | nonfinite (f : Stage × Nat) (hc : resultOf w s = .nonfiniteCoef) (hr : s.resolve (s.rateOf w) = .error f)
      (h : t = complete .nonfiniteCoef (some f) s)

/-- FATAL comes first in the list (60 R304). -/
theorem Reports.of_unlessFatal {s t : State} {w : Word} (h : s.status.fatal = false → Reports s w t) :
    Reports s w (unlessFatal s t) := by
  cases hf : s.status.fatal with
  | true =>
    rw [unlessFatal_set hf]
    exact .error .faulted (resultOf_fatal hf w) (.inl rfl) rfl
  | false =>
    rw [unlessFatal_clear hf]
    exact h hf

theorem reports_illegal {s : State} {w : Word} (hl : legalCmd w = false) : Reports s w (executeIllegal s) :=
  .of_unlessFatal fun hf => .error .illegalCmd (resultOf_illegal hf hl) (.inr (.inl rfl)) rfl

section
variable {s : State} {w : Word}

/-- The checks of PREPARE stand in the order of the list. -/
theorem reports_prepare (hf : s.status.fatal = false) (hl : legalCmd w = true) (hop : cmdOp w = 1#4) :
    Reports s w (prepare s) := by
  have hcode := resultOf_prepare hf hl hop
  have hrate : s.rateOf w = s.specFs := if_pos hop
  by_cases hfs : fsValid s.specFs = true
  · by_cases hmb : maxbValid s.specMaxb = true
    · by_cases hnc : nchValid s.specNch = true
      · simp only [hfs, hmb, hnc, Bool.not_true, Bool.false_eq_true, if_false] at hcode
        cases hr : s.resolve s.specFs with
        | error f => exact .nonfinite f (by rw [hcode, hr]; rfl) (hrate ▸ hr) (prepare_nonfinite hfs hmb hnc hr)
        | ok rows =>
          rw [hr] at hcode
          exact .success (by rw [hcode]; rfl) (by rw [hcode, prepare_ok hfs hmb hnc hr]; rfl)
      · exact .badSpec .badNch (by simp [hcode, hfs, hmb, hnc]) (.inr (.inr rfl)) (prepare_badNch hfs hmb hnc)
    · exact .badSpec .badMaxb (by simp [hcode, hfs, hmb]) (.inr (.inl rfl)) (prepare_badMaxb hfs hmb)
  · exact .badSpec .badFs (by simp [hcode, hfs]) (.inl rfl) (prepare_badFs hfs)

/-- So do those of PROCESS, the bypass before the resolve. -/
theorem reports_process (hf : s.status.fatal = false) (hl : legalCmd w = true) (hop : cmdOp w = 2#4) :
    Reports s w (processBody (cmdLen w) s) := by
  have hcode := resultOf_process hf hl hop
  have hrate : s.rateOf w = s.activeFs := if_neg (by rw [hop]; decide)
  cases hprep : s.status.prepared with
  | false => exact .error .notPrepared (by simp [hcode, hprep]) (by simp) (processBody_notPrepared hprep _)
  | true =>
    rcases Nat.lt_or_ge s.activeMaxb.toNat (cmdLen w).toNat with hlen | hlen
    · exact .error .badLen (by simp [hcode, hprep, hlen]) (by simp) (processBody_badLen hprep hlen)
    · have hfit := Nat.not_lt.2 hlen
      cases hb : s.snapBypass with
      | true =>
        have hok : resultOf w s = .okBypassed := by simp [hcode, hprep, hfit, hb]
        exact .success (by rw [hok]; rfl) (by rw [hok, processBody_bypassed hprep hlen hb]; rfl)
      | false =>
        have hok : resultOf w s = resolveCode (s.resolve s.activeFs) := by simp [hcode, hprep, hfit, hb]
        rw [processBody_transforms hprep hlen hb]
        cases hr : s.resolve s.activeFs with
        | error f => exact .nonfinite f (by rw [hok, hr]; rfl) (hrate ▸ hr) (transformBlock_nonfinite _ hr)
        | ok rows =>
          rw [hr] at hok
          exact .success (by rw [hok]; rfl) (by rw [hok, transformBlock_ok _ hr]; rfl)

theorem reports_resolve (hf : s.status.fatal = false) (hl : legalCmd w = true) (hop : cmdOp w = 3#4) :
    Reports s w (resolveBody s) := by
  have hcode := resultOf_resolve hf hl hop
  have hrate : s.rateOf w = s.activeFs := if_neg (by rw [hop]; decide)
  cases hprep : s.status.prepared with
  | false => exact .error .notPrepared (by simp [hcode, hprep]) (by simp) (resolveBody_notPrepared hprep)
  | true =>
    have hok : resultOf w s = resolveCode (s.resolve s.activeFs) := by simp [hcode, hprep]
    cases hr : s.resolve s.activeFs with
    | error f => exact .nonfinite f (by rw [hok, hr]; rfl) (hrate ▸ hr) (resolveBody_nonfinite hprep hr)
    | ok rows =>
      rw [hr] at hok
      exact .success (by rw [hok]; rfl) (by rw [hok, resolveBody_ok hprep hr]; rfl)

/-- NOP and CLEAR_STATE complete with OK. -/
theorem reports_other (hf : s.status.fatal = false) (hl : legalCmd w = true)
    (hop : cmdOp w ≠ 1#4 ∧ cmdOp w ≠ 2#4 ∧ cmdOp w ≠ 3#4) (u : State) : Reports s w (complete .ok none u) := by
  obtain ⟨h1, h2, h3⟩ := hop
  have hok := resultOf_other hf hl h1 h2 h3
  exact .success (by rw [hok]; rfl) (by rw [hok]; rfl)

/-- The meaning of a decoded command word reports the first result of the list that applies. -/
theorem reports_of_exec {t : State} {i : Instr} (hd : decode (.command w) = .ok i) (h : exec i s = .next t) :
    Reports s w t := by
  obtain ⟨hl, ⟨hop, rfl⟩ | ⟨hop, rfl⟩ | ⟨hop, rfl⟩ | ⟨hop, rfl⟩ | ⟨hop, rfl⟩⟩ := decodeCommand_cases hd <;>
    injection h with h <;> subst h
  · exact .of_unlessFatal fun hf => reports_other hf hl (by rw [hop]; decide) s
  · exact .of_unlessFatal fun hf => reports_prepare hf hl hop
  · exact .of_unlessFatal fun hf => reports_process hf hl hop
  · exact .of_unlessFatal fun hf => reports_resolve hf hl hop
  · exact .of_unlessFatal fun hf => reports_other hf hl (by rw [hop]; decide) _

/-- A completion event ends the command in flight with that result (40 R152). -/
theorem step_complete_reports (hp : s.pending = some w) (rest : List Event) :
    ∃ t, step (s.given (.complete :: rest)) = .next t ∧ Reports (s.given rest) w t := by
  cases hd : decode (.command w) with
  | ok i =>
    obtain ⟨t, ht⟩ := exec_next i (s.given rest)
    exact ⟨t, (step_complete_runs hp hd rest).trans ht, reports_of_exec hd ht⟩
  | error e =>
    refine ⟨_, ?_, reports_illegal (decodeCommand_error hd)⟩
    simp [step, fetch, State.given, onEvent, completion, hp, hd]

end

/-- The events still to come do not show in the result. -/
theorem resultOf_given (s : State) (w : Word) (es : List Event) : resultOf w (s.given es) = resultOf w s := by
  have hresolve : ∀ fs, (s.given es).resolve fs = s.resolve fs := fun _ => rfl
  unfold resultOf
  simp only [hresolve]
  rfl

/-! FATAL (60 R310). -/

/-- With FATAL set no command word takes the snapshot (40 R151). -/
theorem accept_fatal {s : State} (h : s.status.fatal = true) (w : Word) : accept w s = { s with
    pending := some w, abortRange := rangeAt w s, snapBefore := s.snapNow, env := { s.env with elapsed := 0 } } := by
  simp [accept, h]

/-- With FATAL set every command word completes with FAULTED (40 R152). -/
theorem exec_command_fatal {s : State} (h : s.status.fatal = true) {w : Word} {i : Instr}
    (hd : decode (.command w) = .ok i) : exec i s = .next (complete .faulted none s) := by
  obtain ⟨-, ⟨-, rfl⟩ | ⟨-, rfl⟩ | ⟨-, rfl⟩ | ⟨-, rfl⟩ | ⟨-, rfl⟩⟩ := decodeCommand_cases hd <;>
    exact congrArg _ (unlessFatal_set h _)

/-- What a step of a faulted block does that is no reset and runs no stage call. -/
theorem step_fatal_cases {s t : State} (hf : s.status.fatal = true) (hc : s.env.stageCall = none)
    (hr : s.resetsNext = false) (h : step s = .next t) :
    Kept s t ∨ ∃ e : Env, (∃ w, s.pending = none ∧ t = accept w (s.withEnv e)) ∨
      (∃ w, s.pending = some w ∧ t = complete .faulted none (s.withEnv e)) := by
  obtain ⟨e, -, -, -, -, -, he⟩ := step_effect hc h
  rw [hr] at he
  obtain hk | hw | ⟨w, hp, ⟨i, hd, hi⟩ | ⟨-, ht⟩⟩ := effect_cases he
  · exact .inl hk.of_withEnv
  · exact .inr ⟨e, .inl hw⟩
  · rw [exec_command_fatal (s := s.withEnv e) hf hd] at hi
    injection hi with hi
    exact .inr ⟨e, .inr ⟨w, hp, hi.symm⟩⟩
  · exact .inr ⟨e, .inr ⟨w, hp, ht.trans (unlessFatal_set (s := s.withEnv e) hf _)⟩⟩

/-! The zero resistor (60 R311). -/

open F32

/-- The five words the check reads of a biquad row are finite for clamped inputs that are no NaN, when Sin32 is at most 1.0
(41 R208). -/
theorem biquad_words_finite {sb : Bool} (hs : SineAtMostOne sb) {fs x qx px : Word} (hf : isFinite fs = true)
    (h1 : le ONE fs = true) (hx : isNaN x = false) (hqx : isNaN qx = false) (hpx : isNaN px = false) {i : Nat}
    (hi : i ∈ [0, 1, 2, 3, 4]) :
    let f := clampF fs x
    let alpha := alphaOf sb fs f (clampQ qx)
    isFinite ((lowPassRow (cosW fs f) alpha f (clampQ qx)).get i) = true ∧
    isFinite ((notchRow (cosW fs f) alpha f (clampQ qx)).get i) = true ∧
    isFinite ((peakRow (cosW fs f) alpha f (clampQ qx) (clampPG px)).get i) = true := by
  obtain ⟨hangle, hangle_le⟩ := angle_bounds hf h1 hx
  obtain ⟨-, -, words⟩ := Proofs.biquadRowsAreFinite sb fs x qx px hf h1 hx hqx hpx (hs _ hangle hangle_le)
  exact words i (List.mem_range.1 hi)

/-- The reset parameters with P_R2 = 0.0. -/
def zeroResistor : Params := { Params.reset with r2 := 0#32 }

/-- At 48000.0 with GAIN at 5.0 the stages before GAIN_NI, which do not read P_R2, are finite when Sin32 is at most 1.0
(41 R208, R212). -/
theorem zeroResistor_finite_before_gainNi {sb : Bool} (hs : SineAtMostOne sb) (t v : Word) {st : Stage}
    (h : st.idx < 4) : ∀ i ∈ checkedIndices st.kind,
      isFinite (((resolveRows sb zeroResistor HALF t v 0x473B8000#32).get st).get i) = true := by
  have hf : isFinite 0x473B8000#32 = true := by decide
  have h1 : le ONE 0x473B8000#32 = true := by decide
  intro i hi
  cases st
  case hpf =>
    obtain ⟨hk, sk⟩ := warp_clampF (x := zeroResistor.hpFc) hf h1 (by decide)
    exact (pass1Row_finite _ hk sk i hi).1
  case aaf =>
    exact (biquad_words_finite (x := sub (mul 0x473B8000#32 HALF) zeroResistor.aaMargin) (qx := zeroResistor.aaQ)
      (px := ONE) hs hf h1 (by decide +kernel) (by decide) (by decide) hi).1
  case peak =>
    exact (biquad_words_finite (x := quadratic zeroResistor.pkFa zeroResistor.pkFb zeroResistor.pkFc HALF)
      (qx := linear zeroResistor.pkQa zeroResistor.pkQb HALF)
      (px := quadratic zeroResistor.pkGa zeroResistor.pkGb zeroResistor.pkGc HALF) hs hf h1 (by decide +kernel)
      (by decide +kernel) (by decide +kernel) hi).2.2
  case notch =>
    exact (biquad_words_finite (x := quadratic zeroResistor.ntFa zeroResistor.ntFb zeroResistor.ntFc HALF)
      (qx := linear zeroResistor.ntQa zeroResistor.ntQb HALF) (px := ONE) hs hf h1 (by decide +kernel)
      (by decide +kernel) (by decide) hi).2.1
  all_goals simp only [Stage.idx] at h; omega

/-- The gain over a resistor of 0.0 is an infinity (41 R225), so the check stops at word 0 of stage 4 (60 R311). -/
theorem resolve_zeroResistor {sb : Bool} (hs : SineAtMostOne sb) (t v : Word) :
    resolve sb zeroResistor HALF t v 0x473B8000#32 = .error (.gainNi, 0) := by
  have infinite : isFinite ((rowGainNi zeroResistor HALF).get 0) = false := by decide +kernel
  rw [resolve_error_iff_firstNonfinite, firstNonfinite_iff]
  refine ⟨by decide, infinite, fun st' j hj hbefore => ?_⟩
  obtain hlt | ⟨-, hlt⟩ := hbefore
  · exact zeroResistor_finite_before_gainNi hs t v hlt j hj
  · exact absurd hlt (Nat.not_lt_zero j)

/-- STATUS of an idle block that has only completed with NONFINITE_COEF since its reset: FATAL, DONE, ERR and RESULT. -/
theorem statusWord_nonfinite_after_reset {s : State} (hp : s.pending = none)
    (hs : s.status = { Status.reset with result := .nonfiniteCoef, done := true, err := true, fatal := true }) :
    s.statusWord = 0x0000201C#32 := by
  rw [State.statusWord, State.busy, hp, hs]
  decide

end Sys2Proof.Machine

namespace Sys2Proof.Proofs

open Sys2Proof Sys2Proof.Machine Sys2Proof.Machine.F32

/-- Settles O16: the output after each operation that writes IRQ_EN or DONE. -/
theorem irqIsEnabledDone : Obligations.IrqIsEnabledDone := by
  unfold Obligations.IrqIsEnabledDone
  intro s
  refine ⟨rfl, fun code info => irq_complete code info s, fun t h => ?set, fun t h => ?clear, fun w t hw h => ?done,
    rfl, rfl⟩
  case set =>
    rw [exec_writeCtrl_setsIrqEn (by decide)] at h
    injection h with h
    subst h
    exact Bool.true_and _
  case clear =>
    rw [exec_writeCtrl_setsIrqEn (by decide)] at h
    injection h with h
    subst h
    exact Bool.false_and _
  case done =>
    injection h with h
    exact h ▸ irq_of_clear_done hw s

/-- Settles O4: a control write stores its clamp, a reserved mode leaves the register, and at a read-only or reserved
offset no register takes a write. -/
theorem silentCorrectionsLeaveTheStatus : Obligations.SilentCorrectionsLeaveTheStatus := by
  unfold Obligations.SilentCorrectionsLeaveTheStatus
  refine ⟨fun s v => ?controls, fun s v hb h0 h1 h2 => ?mode, fun s off v rest ha h => ?ignored⟩
  case controls =>
    simp only [List.forall_mem_cons, List.not_mem_nil, false_implies, implies_true, and_true]
    exact ⟨⟨_, rfl, rfl⟩, ⟨_, rfl, rfl⟩, ⟨_, rfl, rfl⟩⟩
  case mode =>
    have hexec : exec (.setParamShMode v) s = .next (unlessBusy s { s with params := s.params.set .shMode v }) := rfl
    rw [hexec, unlessBusy_idle hb, set_shMode_reserved s.params h0 h1 h2]
  case ignored =>
    obtain h | h := Bool.or_eq_true_iff.1 h
    · obtain ⟨hcmd, hwrite⟩ := writeInstr_readOnly h v
      exact step_ignored_write ha hcmd hwrite s rest
    · obtain ⟨-, hwrite⟩ := reservedOffsetsReadZero.1 s off v rest ha h
      exact hwrite

/-- Settles O32: the three bodies past their checks, with a resolve that fails. -/
theorem nonfiniteCoefficientLatchesFatal : Obligations.NonfiniteCoefficientLatchesFatal := by
  unfold Obligations.NonfiniteCoefficientLatchesFatal
  intro s w st i len hp hf fault
  have hfault : .next (complete .nonfiniteCoef (some (st, i)) s) = fault :=
    congrArg _ (complete_nonfinite_inFlight hp st i)
  refine ⟨fun hfs hmb hnc hr => ?prepare, fun hprep hr => ?resolve, fun hprep hlen hb hr => ?process⟩
  case prepare => rw [exec_prepare hf, prepare_nonfinite hfs hmb hnc hr, hfault]
  case resolve => rw [exec_resolve hf, resolveBody_nonfinite hprep hr, hfault]
  case process =>
    rw [exec_process hf, processBody_transforms hprep hlen hb, transformBlock_nonfinite len hr, hfault]

/-- Settles O20: what a completion reports, case by case. -/
theorem resultsFollowThePriority : Obligations.ResultsFollowThePriority := by
  unfold Obligations.ResultsFollowThePriority
  intro s w rest hp
  obtain ⟨t, hstep, hreport⟩ := step_complete_reports hp rest
  refine ⟨t, hstep, ?_⟩
  rw [← resultOf_given s w rest]
  cases hreport with
  | success he h => exact ⟨h, fun hn => by rw [hn] at he; cases he⟩
  | error code hc hcode h =>
    subst h
    exact ⟨hc.symm, fun hn => by rw [← hc, hn] at hcode; simp at hcode⟩
  | badSpec code hc hcode h =>
    subst h
    exact ⟨hc.symm, fun hn => by rw [← hc, hn] at hcode; simp at hcode⟩
  | nonfinite f hc hr h =>
    subst h
    exact ⟨hc.symm, fun _ => ⟨f.1, f.2, hr, rfl⟩⟩

/-- Settles O21: the three ways to an error, each with what it writes. -/
theorem errorsArePrecise : Obligations.ErrorsArePrecise := by
  unfold Obligations.ErrorsArePrecise
  intro s t w rest hp h herr
  obtain ⟨t', hstep, hreport⟩ := step_complete_reports hp rest
  rw [hstep] at h
  injection h with h
  subst h
  have hp' : (s.given rest).pending = some w := hp
  cases hreport with
  | success he h => rw [h, he] at herr; cases herr
  | error code hc hcode h =>
    obtain rfl | rfl | rfl | rfl := hcode <;>
      exact h ▸ complete_error hp' none rfl (by simp)
  | badSpec code hc hcode h =>
    obtain rfl | rfl | rfl := hcode <;>
      exact h ▸ failPrepare_eq hp' rfl (by simp)
  | nonfinite f hc hr h => exact h ▸ complete_nonfinite_inFlight hp' f.1 f.2

/-- Settles O23: with FATAL set a step keeps what commands write, accepts a word without a snapshot, or completes one with
FAULTED. -/
theorem fatalIsClearedOnlyByReset : Obligations.FatalIsClearedOnlyByReset := by
  unfold Obligations.FatalIsClearedOnlyByReset
  intro s t hf hc hr h
  obtain hk | ⟨e, ⟨w, hp, rfl⟩ | ⟨w, hp, rfl⟩⟩ := step_fatal_cases hf hc hr h
  · obtain ⟨afs, amb, anc⟩ := hk.active
    obtain ⟨sg, st, sv, sb⟩ := hk.snapshot
    obtain ⟨ng, nt, nv⟩ := hk.normalised
    obtain ⟨f0, f1⟩ := hk.filters
    refine ⟨hk.fatal.trans hf, hk.faultInfo, hk.prepared, hk.coef, f0, f1, hk.blockCnt, afs, amb, anc, hk.bypassed, sg,
      st, sv, sb, ng, nt, nv, fun w hw hnone => ?_⟩
    rw [hk.pending, hw] at hnone
    cases hnone
  · rw [accept_fatal (s := s.withEnv e) hf]
    refine ⟨hf, rfl, rfl, rfl, rfl, rfl, rfl, rfl, rfl, rfl, rfl, rfl, rfl, rfl, rfl, rfl, rfl, rfl, fun w' hw => ?_⟩
    rw [hp] at hw
    cases hw
  · rw [complete_error (s := s.withEnv e) hp none rfl (by simp)]
    refine ⟨hf, rfl, rfl, rfl, rfl, rfl, rfl, rfl, rfl, rfl, rfl, rfl, rfl, rfl, rfl, rfl, rfl, rfl, fun w' hw _ => ?_⟩
    obtain rfl : w = w' := Option.some.inj (hp.symm.trans hw)
    exact ⟨rfl, rfl, rfl, rfl⟩

/-- Settles O49: the resolve fails at stage 4, word 0, and O32 says what the PREPARE then leaves. -/
theorem zeroResistorFaultsAtStageFour : Obligations.ZeroResistorFaultsAtStageFour := by
  unfold Obligations.ZeroResistorFaultsAtStageFour
  intro s hs hp hstatus hfs hmb hnc hparams hg
  have hresolve : s.resolve s.specFs = .error (.gainNi, 0) := by
    rw [State.resolve, hparams, hg, hfs]
    exact resolve_zeroResistor hs s.normT s.normV
  obtain ⟨hprepare, -⟩ := nonfiniteCoefficientLatchesFatal s 1#32 .gainNi 0 0#16 hp (by rw [hstatus]; rfl)
  refine ⟨_, hprepare (by rw [hfs]; decide) (by rw [hmb]; decide) (by rw [hnc]; decide) hresolve, ?record, ?status, rfl⟩
  case record =>
    have hrecord : faultRecord .gainNi 0 = 0x80000004#32 := by decide
    exact hrecord
  case status =>
    rw [hstatus]
    exact statusWord_nonfinite_after_reset rfl rfl

end Sys2Proof.Proofs
end

section
/-! PROOFS. The statements of spec/70_reset_and_hazards.md: what a reset leaves in the registers and in the buffer (R340
to R343), that the invariant holds after it, and that every command in flight completes within its bound (R360, R361). -/

namespace Sys2Proof.Machine

/-! The registers after a reset (70 R340, R341). -/

/-- What every reset leaves: the reset values, beside a buffer, the choice of Sin32 and an environment. -/
def State.resetWith (m : Mem) (sb : Bool) (e : Env) : State :=
  { State.reset with mem := m, sineBounded := sb, env := e }

theorem softReset_eq (s : State) : softReset s =
    State.resetWith (scramble s.env.aborts s.abortRange s.mem) s.sineBounded
      { s.env with elapsed := 0, aborts := s.env.aborts + 1 } := rfl

theorem powerOnReset_eq (s : State) : powerOnReset s =
    State.resetWith [] s.sineBounded { s.env with elapsed := 0, powerOns := s.env.powerOns + 1 } := rfl

theorem reset_eq : State.reset = State.resetWith [] false Env.initial := rfl

/-- Below 0x8000 stands no buffer word (20 R97). -/
theorem lowRegAt_ne_buf (a : Nat) (c : Chan) (n : BitVec 12) : lowRegAt a ≠ .buf c n := by
  by_cases h : a < 0x100
  · have hlow : ∀ p ∈ lowRegs, p.2 ≠ .buf c n := by simp [lowRegs]
    rw [lowRegAt_controls h]
    cases hr : lowRegs.lookup a with
    | none => simp
    | some r =>
      obtain ⟨before, after, hl, -⟩ := List.lookup_eq_some_iff.1 hr
      exact hlow (a, r) (by simp [hl])
  · rw [lowRegAt, if_neg h]
    repeat' split
    all_goals simp

/-- No register but the buffer words tells one reset from another. -/
theorem readReg_eq_reset {r : Reg} (h : ∀ c n, r ≠ .buf c n) (m : Mem) (sb : Bool) (e : Env) :
    (State.resetWith m sb e).readReg r = State.reset.readReg r := by
  cases r with
  | buf c n => exact absurd rfl (h c n)
  | _ => rfl

/-! The spec's table of reset values, one lemma for each part of the window (10 section 2.1). -/

theorem resetWord_params {a : Nat} (h0 : 0x100 ≤ a) (h1 : a < 0x400) (h4 : a % 4 = 0) :
    resetWord a = paramResets.getD ((a - 0x100) / 4) 0 := by
  have hlen : paramResets.length = 34 := rfl
  rw [resetWord, if_neg (by omega), if_neg (by omega), if_neg (by omega), if_neg (by omega)]
  split
  · rfl
  · rw [if_neg (by omega), List.getD_eq_default _ _ (by omega)]

theorem resetWord_kinds {a : Nat} (h0 : 0x400 ≤ a) (h4 : a % 4 = 0) :
    resetWord a = stageKinds.getD ((a - 0x400) / 4) 0 := by
  have hlen : stageKinds.length = 11 := rfl
  rw [resetWord, if_neg (by omega), if_neg (by omega), if_neg (by omega), if_neg (by omega), if_neg (by omega)]
  split
  · rfl
  · rw [List.getD_eq_default _ _ (by omega)]

theorem resetWord_files {a : Nat} (h0 : 0x800 ≤ a) (h4 : a % 4 = 0) : resetWord a = 0 := by
  have hlen : stageKinds.length = 11 := rfl
  rw [resetWord_kinds (by omega) h4, List.getD_eq_default _ _ (by omega)]

theorem readReg_reset_controls {a : Nat} (h : a < 0x100) (h4 : a % 4 = 0) :
    State.reset.readReg (lowRegAt a) = resetWord a := by
  have table : ∀ i : Fin 64, State.reset.readReg (lowRegAt (4 * i.1)) = resetWord (4 * i.1) := by decide +kernel
  have := table ⟨a / 4, by omega⟩
  rwa [show 4 * (a / 4) = a by omega] at this

/-- What an entry of a part of the window reads, and +0.0 past the end of its list (10 R33). -/
theorem readReg_elim {α : Type} (s : State) (o : Option α) (f : α → Reg) :
    s.readReg (o.elim .reserved f) = (o.map (fun x => s.readReg (f x))).getD 0 := by
  cases o <;> rfl

theorem readReg_reset_params {a : Nat} (h0 : 0x100 ≤ a) (h1 : a < 0x400) (h4 : a % 4 = 0) :
    State.reset.readReg (lowRegAt a) = resetWord a := by
  have table : paramResets = ParamId.all.map (fun p => State.reset.readReg (.param p)) := rfl
  rw [lowRegAt_params h0 h1, readReg_elim, resetWord_params h0 h1 h4, table, List.getD_eq_getElem?_getD,
    List.getElem?_map]

theorem readReg_reset_kinds {a : Nat} (h0 : 0x400 ≤ a) (h1 : a < 0x800) (h4 : a % 4 = 0) :
    State.reset.readReg (lowRegAt a) = resetWord a := by
  have table : stageKinds = Stage.all.map (fun st => State.reset.readReg (.stageKind st)) := rfl
  rw [lowRegAt_kinds h0 h1, readReg_elim, resetWord_kinds h0 h4, table, List.getD_eq_getElem?_getD, List.getElem?_map]

theorem readReg_reset_coef (st : Stage) (i : Nat) : State.reset.readReg (.coef st i) = 0 := by
  have hrow : State.reset.coef.get st = Row.zero := PerStage.get_const st Row.zero
  rw [State.readReg, hrow]
  unfold Row.get
  split <;> rfl

theorem readReg_reset_state (c : Chan) (st : Stage) (j : Nat) : State.reset.readReg (.state c st j) = 0 := by
  have hfile : State.reset.filter c = zeroFilter := by cases c <;> rfl
  rw [State.readReg, hfile, zeroFilter_get]
  unfold Pair.get
  split <;> rfl

/-- The coefficient and filter-state files and the reserved offsets above them (10 R60, R66, R33). -/
theorem readReg_reset_files {a : Nat} (h0 : 0x800 ≤ a) (h4 : a % 4 = 0) :
    State.reset.readReg (lowRegAt a) = resetWord a := by
  rw [resetWord_files h0 h4]
  by_cases hcoef : a < 0xC00
  · rw [lowRegAt_coefs h0 hcoef]
    cases Stage.all[(a - 0x800) / 0x20]? with
    | none => rfl
    | some st => exact readReg_reset_coef st _
  · by_cases hstate : a < 0xE00
    · rw [lowRegAt_states (by omega) hstate]
      cases Stage.all[(a - 0xC00) % 0x100 / 8]? with
      | none => rfl
      | some st => exact readReg_reset_state _ st _
    · rw [lowRegAt_above (by omega)]
      rfl

/-- Every reset leaves every register at its reset value (70 R340). -/
theorem readReg_resetWith_eq {off : Offset} (h : off.toNat < 0x8000) (ha : aligned off = true) (m : Mem)
    (sb : Bool) (e : Env) : (State.resetWith m sb e).readReg (regAt off) = resetWord off.toNat := by
  have h4 : off.toNat % 4 = 0 := by simpa [aligned] using ha
  rw [regAt_register h, readReg_eq_reset (lowRegAt_ne_buf _)]
  by_cases hcontrols : off.toNat < 0x100
  · exact readReg_reset_controls hcontrols h4
  · by_cases hparams : off.toNat < 0x400
    · exact readReg_reset_params (by omega) hparams h4
    · by_cases hkinds : off.toNat < 0x800
      · exact readReg_reset_kinds (by omega) hkinds h4
      · exact readReg_reset_files (by omega) h4

/-! The buffer after a soft reset (70 R341, R343). -/

/-- `s` with its buffer replaced. -/
def State.withMem (s : State) (m : Mem) : State := { s with mem := m }

/-- What a soft reset does to the words of one channel (70 R343). -/
def scrambleWords (k : Nat) (c : Chan) (l : List Nat) (m : Mem) : Mem :=
  l.foldl (fun m n => m.storeWord (bufAddr c n) (Config.abortWord k (bufAddr c n))) m

theorem scramble_eq (k : Nat) (r : Range) (m : Mem) : scramble k r m =
    (Chan.all.filter (fun c => decide (c.idx < r.nch))).foldl
      (fun m c => scrambleWords k c (List.range (min r.len 4096)) m) m := rfl

/-- A buffer word after the scrambling of some words of one channel. -/
theorem bufWord_scrambleWords (s : State) (k : Nat) (c : Chan) {l : List Nat} (hl : ∀ n ∈ l, n < 4096) (m : Mem)
    (d : Chan) {j : Nat} (hj : j < 4096) :
    (s.withMem (scrambleWords k c l m)).bufWord d j =
      if c = d ∧ j ∈ l then Config.abortWord k (bufAddr d j) else (s.withMem m).bufWord d j := by
  induction l generalizing m with
  | nil => simp [scrambleWords]
  | cons n l ih =>
    obtain ⟨hn, hl⟩ := List.forall_mem_cons.1 hl
    have hstore : s.withMem (m.storeWord (bufAddr c n) (Config.abortWord k (bufAddr c n))) =
      (s.withMem m).setBuf c n (Config.abortWord k (bufAddr c n)) := rfl
    rw [scrambleWords, List.foldl_cons, ← scrambleWords, ih hl, hstore]
    by_cases hnow : c = d ∧ n = j
    · obtain ⟨rfl, rfl⟩ := hnow
      rw [bufWord_setBuf_same, ite_self, if_pos ⟨rfl, List.mem_cons_self⟩]
    · have hlater : (c = d ∧ j ∈ n :: l) ↔ (c = d ∧ j ∈ l) :=
        and_congr_right fun hc => List.mem_cons.trans (or_iff_right fun h => hnow ⟨hc, h.symm⟩)
      rw [bufWord_setBuf_ne _ _ hn hj (not_and_or.1 hnow), if_congr hlater rfl rfl]

/-- A buffer word after the scrambling of the first `len` words of some channels. -/
theorem bufWord_scrambleChans (s : State) (k len : Nat) (l : List Chan) (m : Mem) (d : Chan) {j : Nat}
    (hj : j < 4096) :
    (s.withMem (l.foldl (fun m c => scrambleWords k c (List.range (min len 4096)) m) m)).bufWord d j =
      if d ∈ l ∧ j < len then Config.abortWord k (bufAddr d j) else (s.withMem m).bufWord d j := by
  have hl : ∀ n ∈ List.range (min len 4096), n < 4096 := fun n hn => by rw [List.mem_range] at hn; omega
  have hrange : j ∈ List.range (min len 4096) ↔ j < len := by rw [List.mem_range]; omega
  induction l generalizing m with
  | nil => simp
  | cons c l ih =>
    rw [List.foldl_cons, ih, bufWord_scrambleWords s k c hl m d hj]
    simp only [hrange]
    by_cases hc : c = d
    · by_cases hlen : j < len <;> simp [hc, hlen]
    · simp [hc, Ne.symm hc]

/-- A buffer word after the scrambling of a range (70 R343). -/
theorem bufWord_scramble (s : State) (k : Nat) (r : Range) (m : Mem) (d : Chan) {j : Nat} (hj : j < 4096) :
    (s.withMem (scramble k r m)).bufWord d j =
      if d.idx < r.nch ∧ j < r.len then Config.abortWord k (bufAddr d j) else (s.withMem m).bufWord d j := by
  have hchan : d ∈ Chan.all.filter (fun c => decide (c.idx < r.nch)) ↔ d.idx < r.nch := by
    cases d <;> simp [Chan.all]
  rw [scramble_eq, bufWord_scrambleChans s k r.len _ m d hj]
  simp only [hchan]

theorem bufWord_softReset (s : State) (c : Chan) {n : Nat} (hn : n < 4096) : (softReset s).bufWord c n =
    if c.idx < s.abortRange.nch ∧ n < s.abortRange.len then Config.abortWord s.env.aborts (bufAddr c n)
    else s.bufWord c n :=
  bufWord_scramble s s.env.aborts s.abortRange s.mem c hn

/-! The step that a work is (20 R103): no work stops but that of a stage call. -/

/-- What the step whose work it is answers. -/
def Work.outcome : Work → Host.Outcome State Fault Refusal
  | .run i s => exec i s
  | .settle s => .next s
  | .stop f => .fault f

theorem step_eq_outcome (s : State) : step s = (fetch s).outcome := rfl

/-- Without a stage call the work is that of the next event (70 R361). -/
theorem fetch_event {s : State} {e : Event} {rest : List Event} (hc : s.env.stageCall = none)
    (hi : s.env.inbox = e :: rest) : fetch s = onEvent e (s.after rest) := by
  unfold fetch
  split
  · rename_i h
    rw [hc] at h
    cases h
  · split <;> rename_i h <;> rw [hi] at h <;> cases h
    rfl

/-- With no event left it is the completion (70 R361). -/
theorem fetch_empty {s : State} (hc : s.env.stageCall = none) (hi : s.env.inbox = []) : fetch s = completion s := by
  rw [fetch, hc, hi]

theorem completion_idle {s : State} (h : s.pending = none) : completion s = .settle s := by
  rw [completion, h]

/-- A completion runs no stage operation and changes no event, no counter and nothing handed on (40 R154). -/
theorem Completion.env {s t : State} {w : Word} (h : Completion s w t) : t.env = s.env := by
  cases h with
  | error code _ _ h => rw [h, complete_env]
  | badSpec code _ _ h => rw [h, failPrepare, complete_env]
  | nonfinite _ f _ h => rw [h, complete_env]
  | nop _ h => rw [h, complete_env]
  | prepare rows _ _ _ _ _ h => rw [h, complete_env, commitPrepare_env]
  | bypass _ h => rw [h, complete_env, countBlock]
  | process rows _ _ h =>
    obtain ⟨f0, f1, m, hblock⟩ := processBlock_frame rows s.activeNch (cmdLen w) { s with coef := rows }
    rw [h, complete_env, hblock]
    rfl
  | resolve rows _ _ h => rw [h, complete_env]
  | clear _ h => rw [h, complete_env]

/-- The completion step ends the command in flight, if there is one (40 R152, 70 R361). -/
theorem completion_ends (s : State) :
    ∃ t, (completion s).outcome = .next t ∧ t.busy = false ∧ t.env = s.env := by
  cases hp : s.pending with
  | none => exact ⟨s, by rw [completion_idle hp, Work.outcome], by rw [State.busy, hp, Option.isSome_none], rfl⟩
  | some w =>
    have ended : ∀ {t}, Completion s w t → t.busy = false ∧ t.env = s.env :=
      fun h => ⟨by rw [State.busy, h.pending, Option.isSome_none], h.env⟩
    cases hd : decode (.command w) with
    | ok i =>
      obtain ⟨t, ht⟩ := exec_next i s
      exact ⟨t, by simp only [completion, hp, hd, Work.outcome, ht], ended (completion_of_exec hd ht)⟩
    | error e =>
      exact ⟨_, by simp only [completion, hp, hd, Work.outcome], ended (completion_illegal s w)⟩

theorem outcome_run (i : Instr) (s : State) : ∃ t, (Work.run i s).outcome = .next t := exec_next i s

theorem outcome_settle (s : State) : ∃ t, (Work.settle s).outcome = .next t := ⟨s, rfl⟩

/-- No host access stops the block (70 R361). -/
theorem access_answers (off : Offset) (a : Access) (s : State) : ∃ t, (access off a s).outcome = .next t := by
  unfold access
  split
  · exact outcome_settle _
  · cases a.dir with
    | read => cases decode (.hostRead off) with
      | ok i => exact outcome_run i s
      | error e => exact outcome_settle s
    | write => cases decode (.hostWrite off a.value) with
      | ok i => exact outcome_run i s
      | error e => cases e <;> exact outcome_settle _

/-! Clock cycles (70 R360, log 9). -/

/-- Two states with one resolve and one range have one bound. -/
theorem latencyBound_congr {s t : State} (hr : t.resolve t.activeFs = s.resolve s.activeFs)
    (ha : t.abortRange = s.abortRange) : latencyBound t = latencyBound s := by
  cases h : s.resolve s.activeFs with
  | error f => rw [latencyBound_error h, latencyBound_error (hr.trans h)]
  | ok rows => rw [latencyBound_ok h, latencyBound_ok (hr.trans h), ha]

theorem latencyBound_withEnv (s : State) (e : Env) : latencyBound (s.withEnv e) = latencyBound s :=
  latencyBound_congr rfl rfl

theorem latencyBound_after (s : State) (es : List Event) : latencyBound (s.after es) = latencyBound s :=
  latencyBound_congr rfl rfl

/-- A clock cycle takes no event of its own, and leaves a command in flight only below the bound. -/
theorem clockCycle_spec (s : State) : ∃ t, (clockCycle s).outcome = .next t ∧ t.env.inbox = s.env.inbox ∧
    t.env.stageCall = s.env.stageCall ∧
    (t.busy = true → s.busy = true ∧ t.env.elapsed = s.env.elapsed + 1 ∧ latencyBound t = latencyBound s ∧
      s.env.elapsed + 1 < latencyBound s) := by
  unfold clockCycle
  split
  · rename_i hbusy
    simp only
    split
    · obtain ⟨t, ht, hb, he⟩ := completion_ends (s.withEnv { s.env with elapsed := s.env.elapsed + 1 })
      exact ⟨t, ht, by rw [he]; rfl, by rw [he]; rfl, fun h => by rw [hb] at h; cases h⟩
    · rename_i hbound
      exact ⟨_, rfl, rfl, rfl, fun _ => ⟨hbusy, rfl, latencyBound_withEnv s _, Nat.lt_of_not_le hbound⟩⟩
  · rename_i hidle
    exact ⟨s, rfl, rfl, rfl, fun h => absurd h hidle⟩

theorem elapsed_after (s : State) (es : List Event) : (s.after es).env.elapsed = s.env.elapsed := rfl

/-- As many clock cycles as the bound leaves end the command in flight (70 R361). -/
theorem clocks_end (k : Nat) (s : State) (hc : s.env.stageCall = none) (hi : s.env.inbox = List.replicate k .clock)
    (h : s.busy = true → 1 ≤ k ∧ latencyBound s ≤ s.env.elapsed + k) :
    ∃ t, runSteps k s = .next t ∧ t.busy = false := by
  induction k generalizing s with
  | zero =>
    have hidle : s.busy = false := Bool.eq_false_iff.2 fun hb => absurd (h hb).1 (by decide)
    exact ⟨s, rfl, hidle⟩
  | succ k ih =>
    obtain ⟨t, ht, htin, htc, htb⟩ := clockCycle_spec (s.after (List.replicate k .clock))
    have hstep : step s = .next t := by
      rw [step_eq_outcome, fetch_event hc hi, onEvent, ht]
    obtain ⟨u, hu, hub⟩ := ih t (htc.trans hc) htin fun hb => by
      obtain ⟨hbusy, helapsed, hbound, hbelow⟩ := htb hb
      obtain ⟨-, hleft⟩ := h hbusy
      rw [elapsed_after] at helapsed hbelow
      rw [latencyBound_after] at hbound hbelow
      have hmore : 1 < k + 1 := Nat.lt_of_add_lt_add_left (hbelow.trans_le hleft)
      rw [helapsed, hbound, Nat.add_assoc, Nat.add_comm 1]
      exact ⟨Nat.le_of_lt_succ hmore, hleft⟩
    exact ⟨u, by rw [runSteps_succ k hstep, hu], hub⟩

/-- No step of a block without a stage call stops (70 R361). -/
theorem step_answers {s : State} (hc : s.env.stageCall = none) : ∃ t, step s = .next t := by
  rw [step_eq_outcome]
  cases hi : s.env.inbox with
  | nil =>
    rw [fetch_empty hc hi]
    exact (completion_ends s).imp fun _ h => h.1
  | cons e rest =>
    rw [fetch_event hc hi]
    cases e with
    | window off a => exact access_answers off a _
    | physical addr a =>
      simp only [onEvent]
      cases windowOffset addr with
      | none => exact outcome_settle _
      | some off => exact access_answers off a _
    | complete => exact (completion_ends _).imp fun _ h => h.1
    | clock => exact (clockCycle_spec _).imp fun _ h => h.1
    | powerOn => exact outcome_settle _

/-! The bound of a command accepted just now (70 R360). -/

theorem resolveCode_eq_ok {r : Except (Stage × Nat) CoefFile} : resolveCode r = .ok ↔ ∃ rows, r = .ok rows := by
  cases r <;> simp [resolveCode]

/-- A PROCESS completes with OK when it is on the transform path and its resolve succeeds (60 R304). -/
theorem process_ok_iff {w : Word} {s : State} : (w.setWidth 16 = 2#16 ∧ resultOf w s = .ok) ↔
    transforms w s = true ∧ ∃ rows, s.resolve s.activeFs = .ok rows := by
  rw [transforms_iff, and_assoc]
  refine and_congr_right fun hw => ?_
  obtain ⟨hl, hop⟩ := process_low_iff.1 hw
  cases hf : s.status.fatal with
  | true => simp [resultOf_fatal hf]
  | false =>
    rw [resultOf_process hf hl hop, ← resolveCode_eq_ok]
    cases s.status.prepared with
    | false => simp
    | true =>
      cases s.snapBypass with
      | true => by_cases hlen : s.activeMaxb.toNat < (cmdLen w).toNat <;> simp [hlen]
      | false => by_cases hlen : s.activeMaxb.toNat < (cmdLen w).toNat <;> simp [hlen, ← Nat.not_lt]

/-- The bound of a command in flight with the range of its acceptance (70 R343, R360). -/
theorem latencyBound_of_rangeAt {w : Word} {s : State} (h : s.abortRange = rangeAt w s) : latencyBound s =
    if w.setWidth 16 = 2#16 ∧ resultOf w s = .ok
    then Config.lFixed + Config.lSample * ((cmdLen w).toNat * s.activeNch.toNat) else Config.lFixed := by
  by_cases hok : w.setWidth 16 = 2#16 ∧ resultOf w s = .ok
  · obtain ⟨ht, rows, hr⟩ := process_ok_iff.1 hok
    rw [if_pos hok, latencyBound_ok hr, h, rangeAt, if_pos ht]
  · rw [if_neg hok]
    cases hr : s.resolve s.activeFs with
    | error f => exact latencyBound_error hr
    | ok rows =>
      have ht : ¬ transforms w s = true := fun ht => hok (process_ok_iff.2 ⟨ht, rows, hr⟩)
      exact latencyBound_empty (h.trans (if_neg ht))

@[simp] theorem accept_activeNch (w : Word) (s : State) : (accept w s).activeNch = s.activeNch := by
  unfold accept
  simp only
  split <;> rfl

/-- Acceptance gives the range that the accepted command has in flight (70 R343). -/
theorem accept_abortRange (w : Word) (s : State) : (accept w s).abortRange = rangeAt w (accept w s) := rfl

end Sys2Proof.Machine

namespace Sys2Proof.Proofs

open Sys2Proof Sys2Proof.Machine

/-- Settles O59: the base case, already used for the resets in the proof that every step keeps the invariant. -/
theorem invHoldsAtReset : Obligations.InvHoldsAtReset := reset_inv

/-- Settles O1: a power-on reset and the state after reset are one record beside the environment, and its registers read
the table. -/
theorem powerOnResetLeavesResetValues : Obligations.PowerOnResetLeavesResetValues := by
  unfold Obligations.PowerOnResetLeavesResetValues
  refine ⟨fun s rest => ⟨powerOnReset (s.given rest), rfl, fun off h ha => ?powerOn, rfl, rfl, rfl, fun _ => rfl,
    rfl⟩, fun off h ha => ?reset, rfl, rfl, rfl, fun _ => rfl⟩
  case powerOn => rw [powerOnReset_eq, readReg_resetWith_eq h ha]
  case reset => rw [reset_eq, readReg_resetWith_eq h ha]

/-- Settles O2: the registers as after every reset, and the buffer words of `abortRange` and outside it. -/
theorem softResetKeepsTheBuffer : Obligations.SoftResetKeepsTheBuffer := by
  unfold Obligations.SoftResetKeepsTheBuffer
  intro s v h
  refine ⟨softReset s, exec_writeCtrl_resets h s, fun off hoff ha => ?registers, rfl, rfl, rfl,
    fun c n hn => bufWord_softReset s c hn⟩
  case registers => rw [softReset_eq, readReg_resetWith_eq hoff ha]

/-- Settles O26: what a completion step and a clock cycle do, and the bound that acceptance sets. -/
theorem everyAcceptedCommandCompletes : Obligations.EveryAcceptedCommandCompletes := by
  unfold Obligations.EveryAcceptedCommandCompletes
  refine ⟨fun s hc => step_answers hc, fun s rest => ?complete, fun s => ?empty, fun s k hk hbound => ?clocks,
    fun s w rest hp => ?accepted⟩
  case complete => exact (completion_ends (s.given rest)).imp fun _ ⟨ht, hidle, _⟩ => ⟨ht, hidle⟩
  case empty => exact (completion_ends (s.given [])).imp fun _ ⟨ht, hidle, _⟩ => ⟨ht, hidle⟩
  case clocks => exact clocks_end k (s.given (List.replicate k .clock)) rfl rfl fun _ => ⟨hk, hbound⟩
  case accepted =>
    have hidle : (s.given rest).busy = false := by simp [State.busy, State.given, hp]
    refine ⟨accept w (s.given rest), by rw [step_writeCmd, writeCmd_idle w hidle], rfl, ?_⟩
    rw [latencyBound_of_rangeAt (accept_abortRange w _), accept_activeNch, toNat_shiftRight_eq_cmdLen]
    rfl

end Sys2Proof.Proofs
end
